-- ==== Sys2Proof/Word.lean ====
section
/-! DEFINITION. The machine's units (spec/00_scope.md R7): the 12-bit word and the 24-bit long; the byte exists only in the
program image file (spec/20_memory.md R58, R64). -/

namespace Sys2Proof

/-- "a 12-bit unsigned value, the engine's native arithmetic unit" (00_scope.md R7). -/
abbrev Word := BitVec 12

/-- "a 24-bit value represented as two words (high, low)" (00_scope.md R7): the width of PC, SP, FP and of every address. -/
abbrev Long := BitVec 24

/-- A byte of the program image file (20_memory.md R64); the machine itself has no bytes (R58). -/
abbrev Byte := BitVec 8

/-- One past the largest value of a register or of an address: 2^24 (10_state.md R24). -/
def addressLimit : Nat := 16777216

end Sys2Proof
end

