-- ==== Sys2Proof/Syntax.lean ====
section
/-! DEFINITION. The instructions: one constructor of `Instr` per row of spec/opcode_table.json (38 one-opcode instructions
and the 16 modes of `jmp`), with the names of opcodes and modes that the two maps of spec/30_encoding.md R85 and R86
number. -/

namespace Sys2Proof

/-- The 39 operations an opcode word can select (30_encoding.md R85). -/
inductive Opcode where
  | loadLit | loadLocal | storeLocal | memc
  | add | sub | mul | mul2 | div | mod | neg | not | inc | dec | or | xor | and | rotLC | rotRC
  | addL | subL | mulL | divL | modL | negL | notL | incL | decL | orL | xorL | andL
  | jmp | call | ret | ret1 | ret2
  | eni | dsi | hlt
deriving DecidableEq, Repr

/-- The 16 modes the second word of a `jmp` can select (30_encoding.md R86). -/
inductive JmpMode where
  | jmp | z | nz | c | cz | gz | lz | ge | le | eq | neq | ro | zL | nzL | gzL | lzL
deriving DecidableEq, Repr

/-- The instructions: one constructor per row of the opcode table. `k` is the operand word of format K, `target` the absolute
24-bit address of formats A and J (30_encoding.md R81, R83). -/
inductive Instr where
  -- 40_stack_memory.md
  | loadLit (k : Word)
  | loadLocal (k : Word)
  | storeLocal (k : Word)
  | memc
  -- 41_alu_word.md
  | add
  | sub
  | mul
  | mul2
  | div
  | mod
  | neg
  | not
  | inc
  | dec
  | or
  | xor
  | and
  | rotLC
  | rotRC
  -- 42_alu_long.md
  | addL
  | subL
  | mulL
  | divL
  | modL
  | negL
  | notL
  | incL
  | decL
  | orL
  | xorL
  | andL
  -- 44_control_transfer.md
  | jmp (target : Long)
  | jz (target : Long)
  | jnz (target : Long)
  | jc (target : Long)
  | jcz (target : Long)
  | jgz (target : Long)
  | jlz (target : Long)
  | jge (target : Long)
  | jle (target : Long)
  | jeq (target : Long)
  | jneq (target : Long)
  | jro
  | jzL (target : Long)
  | jnzL (target : Long)
  | jgzL (target : Long)
  | jlzL (target : Long)
  -- 43_call_return.md
  | call (target : Long)
  | ret
  | ret1
  | ret2
  -- 45_system.md
  | eni
  | dsi
  | hlt
deriving DecidableEq, Repr

/-- The type of an interrupt request: `Stop`, or the 24-bit entry PC that identifies an ordinary type (60_exceptions.md
R250). -/
inductive IrqType where
  | stop
  | vector (entry : Long)
deriving DecidableEq, Repr

/-- An interrupt request `(type, args)` (10_state.md R29, 60_exceptions.md R251). -/
structure Request where
  type : IrqType
  args : List Word
deriving DecidableEq, Repr

/-- The five sources of requests (60_exceptions.md R250). -/
inductive IrqSource where
  | timer | vblank | keyboard | mouse | stop
deriving DecidableEq, Repr

end Sys2Proof
end

