-- ==== Sys2Proof/Config.lean ====
section
/-! DEFINITION. What an implementation fixes (the parameters of spec/00_scope.md R5) and the free values. -/

namespace Sys2Proof

/-- The parameters of 00_scope.md R5. They are plain data carried by the state (`State.cfg`, log 1), so that a claim about
every state is a claim about every configuration: "A model must not fix them" (R6). `DIV0` is no parameter here: the spec
decides on the fatal fault (41_alu_word.md R136). `INIT_MEM` and the program image are arguments of `Machine.boot`. -/
structure Config where
  /-- words of general RAM -/
  ramSize : Nat
  /-- words of the optional graphics-register block, 0 when absent -/
  gramSize : Nat
  /-- words of video RAM -/
  vramSize : Nat
  /-- words of program ROM -/
  romSize : Nat
  /-- `ENTRY_PC`: the value of PC after reset (70_reset_and_hazards.md R291) -/
  entryPc : Long
  /-- `VEC_TIMER`, `VEC_VBLANK`, `VEC_KEYBOARD`, `VEC_MOUSE` (60_exceptions.md R250) -/
  vecTimer : Long
  vecVblank : Long
  vecKeyboard : Long
  vecMouse : Long
  /-- `OPCODE_MAP`: the number of each opcode (30_encoding.md R85) -/
  opcodeMap : List (Word × Opcode)
  /-- `MODE_MAP`: the number of each `jmp` mode (30_encoding.md R86) -/
  modeMap : List (Word × JmpMode)
deriving DecidableEq, Repr

/-- `GRAM_BASE = RAM_SIZE` (20_memory.md R50). -/
abbrev Config.gramBase (c : Config) : Nat := c.ramSize

/-- `VRAM_BASE = RAM_SIZE + GRAM_SIZE` (20_memory.md R50). -/
abbrev Config.vramBase (c : Config) : Nat := c.ramSize + c.gramSize

/-- `ROM_BASE = RAM_SIZE + GRAM_SIZE + VRAM_SIZE` (20_memory.md R50). -/
abbrev Config.romBase (c : Config) : Nat := c.ramSize + c.gramSize + c.vramSize

/-- `MEM_SIZE = RAM_SIZE + GRAM_SIZE + VRAM_SIZE + ROM_SIZE` (20_memory.md R50). -/
abbrev Config.memSize (c : Config) : Nat := c.ramSize + c.gramSize + c.vramSize + c.romSize

/-- "each type's numeric value *is* its entry PC"; `Stop` has no vector (60_exceptions.md R250). -/
def Config.irqType (c : Config) : IrqSource → IrqType
  | .timer => .vector c.vecTimer
  | .vblank => .vector c.vecVblank
  | .keyboard => .vector c.vecKeyboard
  | .mouse => .vector c.vecMouse
  | .stop => .stop

/-- FREE VALUE (log 11, DESIGN CHOICE, safe). Whether PC is advanced by a `hlt` that ends the run: "`PC` at the end by (1) is
unspecified: either the address of the `hlt` or the address after it" (70_reset_and_hazards.md R300). Applied to the
counter `State.draws`. -/
opaque freeHaltAdvancesPc : Nat → Bool

/-- FREE VALUE (log 12, DESIGN CHOICE, safe). The return address that `call` saves when `PC + 3` is no 24-bit value, for which
43_call_return.md R193 states no words. Applied to the counter `State.draws`. -/
opaque freeReturnAddress : Nat → Long

end Sys2Proof
end

