-- ==== Sys2Proof/WellFormed.lean ====
section
/-! DEFINITION. Well-formedness, as decidable predicates: of a configuration (spec/00_scope.md R6), of an instruction under a
configuration, of a request (spec/60_exceptions.md R251). Operand words have no check of their own: "Operand words are
never validated for themselves" (spec/30_encoding.md R88), and their widths are in `Instr`'s types. -/

namespace Sys2Proof

/-- "`RAM_SIZE >= 5` (the start-up frame header lives at addresses 0 to 4)" and "`MEM_SIZE <= 2^24`" (00_scope.md R6). -/
abbrev Config.sizesWf (c : Config) : Prop := 5 ≤ c.ramSize ∧ c.memSize ≤ addressLimit

/-- The maps give each opcode and each mode one number, and no number two meanings (30_encoding.md R85, R86). -/
abbrev Config.mapsWf (c : Config) : Prop :=
  (c.opcodeMap.map Prod.fst).Nodup ∧ (c.opcodeMap.map Prod.snd).Nodup ∧
  (c.modeMap.map Prod.fst).Nodup ∧ (c.modeMap.map Prod.snd).Nodup

/-- A configuration the spec admits. -/
abbrev Config.wf (c : Config) : Prop := c.sizesWf ∧ c.mapsWf

/-- The operation an instruction's opcode word names. -/
def Instr.opcode : Instr → Opcode
  | .loadLit _ => .loadLit
  | .loadLocal _ => .loadLocal
  | .storeLocal _ => .storeLocal
  | .memc => .memc
  | .add => .add
  | .sub => .sub
  | .mul => .mul
  | .mul2 => .mul2
  | .div => .div
  | .mod => .mod
  | .neg => .neg
  | .not => .not
  | .inc => .inc
  | .dec => .dec
  | .or => .or
  | .xor => .xor
  | .and => .and
  | .rotLC => .rotLC
  | .rotRC => .rotRC
  | .addL => .addL
  | .subL => .subL
  | .mulL => .mulL
  | .divL => .divL
  | .modL => .modL
  | .negL => .negL
  | .notL => .notL
  | .incL => .incL
  | .decL => .decL
  | .orL => .orL
  | .xorL => .xorL
  | .andL => .andL
  | .jmp _ => .jmp
  | .jz _ => .jmp
  | .jnz _ => .jmp
  | .jc _ => .jmp
  | .jcz _ => .jmp
  | .jgz _ => .jmp
  | .jlz _ => .jmp
  | .jge _ => .jmp
  | .jle _ => .jmp
  | .jeq _ => .jmp
  | .jneq _ => .jmp
  | .jro => .jmp
  | .jzL _ => .jmp
  | .jnzL _ => .jmp
  | .jgzL _ => .jmp
  | .jlzL _ => .jmp
  | .call _ => .call
  | .ret => .ret
  | .ret1 => .ret1
  | .ret2 => .ret2
  | .eni => .eni
  | .dsi => .dsi
  | .hlt => .hlt

/-- The mode a `jmp`'s second word names; none for every other instruction. -/
def Instr.mode : Instr → Option JmpMode
  | .jmp _ => some .jmp
  | .jz _ => some .z
  | .jnz _ => some .nz
  | .jc _ => some .c
  | .jcz _ => some .cz
  | .jgz _ => some .gz
  | .jlz _ => some .lz
  | .jge _ => some .ge
  | .jle _ => some .le
  | .jeq _ => some .eq
  | .jneq _ => some .neq
  | .jro => some .ro
  | .jzL _ => some .zL
  | .jnzL _ => some .nzL
  | .jgzL _ => some .gzL
  | .jlzL _ => some .lzL
  | .loadLit _ | .loadLocal _ | .storeLocal _ | .memc
  | .add | .sub | .mul | .mul2 | .div | .mod | .neg | .not | .inc | .dec | .or | .xor | .and | .rotLC | .rotRC
  | .addL | .subL | .mulL | .divL | .modL | .negL | .notL | .incL | .decL | .orL | .xorL | .andL
  | .call _ | .ret | .ret1 | .ret2 | .eni | .dsi | .hlt => none

/-- The opcode map numbers the instruction's opcode. -/
abbrev Instr.opcodeMapped (c : Config) (i : Instr) : Prop := i.opcode ∈ c.opcodeMap.map Prod.snd

/-- The mode map numbers the instruction's mode, where it has one. -/
abbrev Instr.modeMapped (c : Config) (i : Instr) : Prop := ∀ m ∈ i.mode, m ∈ c.modeMap.map Prod.snd

/-- An instruction that has words under the configuration's two maps. Under the default maps every instruction has
(a model may admit fewer, 42_alu_long.md's preamble). -/
abbrev Instr.wf (c : Config) (i : Instr) : Prop := i.opcodeMapped c ∧ i.modeMapped c

/-- "`0 <= n <= 0xFFF` because `n` is stored in one word of the frame header" (60_exceptions.md R251). -/
abbrev Request.wf (q : Request) : Prop := q.args.length ≤ 0xFFF

end Sys2Proof
end

