-- ==== Sys2Proof/Decode.lean ====
section
/-! DEFINITION. Decoding and encoding (spec/30_encoding.md R80 to R89): the default maps, the decoder (total, rejecting by
name), the encoder, and the host's view of one row of the opcode table. -/

namespace Sys2Proof

/-- `long(h, l) = h * 4096 + l` (00_scope.md R7). -/
def longOf (h l : Word) : Long := h ++ l

/-- `hi(v) = v[23:12]` (00_scope.md R7). -/
def hiWord (v : Long) : Word := v.extractLsb' 12 12

/-- `lo(v) = v[11:0]` (00_scope.md R7). -/
def loWord (v : Long) : Word := v.extractLsb' 0 12

/-- The default `OPCODE_MAP`, the table of 30_encoding.md R85. The numbers are the spec's own (D1, log 2). -/
def defaultOpcodeMap : List (Word × Opcode) :=
  [(0x010, .loadLit), (0x011, .loadLocal), (0x012, .storeLocal), (0x013, .memc)] ++
  [(0x020, .add), (0x021, .sub), (0x022, .mul), (0x023, .mul2), (0x024, .div), (0x025, .mod), (0x026, .neg),
   (0x027, .not), (0x028, .inc), (0x029, .dec), (0x02A, .or), (0x02B, .xor), (0x02C, .and), (0x02D, .rotLC),
   (0x02E, .rotRC)] ++
  [(0x040, .addL), (0x041, .subL), (0x042, .mulL), (0x044, .divL), (0x045, .modL), (0x046, .negL), (0x047, .notL),
   (0x048, .incL), (0x049, .decL), (0x04A, .orL), (0x04B, .xorL), (0x04C, .andL)] ++
  [(0x060, .jmp), (0x061, .call), (0x062, .ret), (0x063, .ret1), (0x064, .ret2)] ++
  [(0x070, .eni), (0x071, .dsi), (0x072, .hlt)]

/-- The default `MODE_MAP`, the table of 30_encoding.md R86. The numbers are the spec's own (D2, log 2). -/
def defaultModeMap : List (Word × JmpMode) :=
  [(0x000, .jmp), (0x001, .z), (0x002, .nz), (0x003, .c), (0x004, .cz), (0x005, .gz), (0x006, .lz), (0x007, .ge),
   (0x008, .le), (0x009, .eq), (0x00A, .neq), (0x00B, .ro)] ++
  [(0x011, .zL), (0x012, .nzL), (0x015, .gzL), (0x016, .lzL)]

/-- What a map says of a word: the name it numbers so, if any. -/
def nameOfWord {α : Type} : List (Word × α) → Word → Option α
  | [], _ => none
  | (v, a) :: m, w => if v = w then some a else nameOfWord m w

/-- The number a map gives a name, if any. -/
def wordOfName {α : Type} [DecidableEq α] : List (Word × α) → α → Option Word
  | [], _ => none
  | (w, b) :: m, a => if b = a then some w else wordOfName m a

/-- Why words do not decode: "Unknown opcode", a mode word outside the map (30_encoding.md R87), or operand words that are
not there (R82). -/
inductive DecodeError where
  | unknownOpcode
  | unknownMode
  | truncated
deriving DecidableEq, Repr

/-- Format K: one operand word (30_encoding.md R83 a). -/
def decodeK (mk : Word → Instr) : List Word → Except DecodeError Instr
  | k :: _ => .ok (mk k)
  | [] => .error .truncated

/-- The target of formats A and J: two words, high first (30_encoding.md R83 b). -/
def decodeTarget (mk : Long → Instr) : List Word → Except DecodeError Instr
  | h :: l :: _ => .ok (mk (longOf h l))
  | [_] => .error .truncated
  | [] => .error .truncated

/-- A `jmp` of the given mode: format JR for RO, format J for every other (30_encoding.md R81, R89). -/
def decodeMode (ws : List Word) : JmpMode → Except DecodeError Instr
  | .jmp => decodeTarget .jmp ws
  | .z => decodeTarget .jz ws
  | .nz => decodeTarget .jnz ws
  | .c => decodeTarget .jc ws
  | .cz => decodeTarget .jcz ws
  | .gz => decodeTarget .jgz ws
  | .lz => decodeTarget .jlz ws
  | .ge => decodeTarget .jge ws
  | .le => decodeTarget .jle ws
  | .eq => decodeTarget .jeq ws
  | .neq => decodeTarget .jneq ws
  | .ro => .ok .jro
  | .zL => decodeTarget .jzL ws
  | .nzL => decodeTarget .jnzL ws
  | .gzL => decodeTarget .jgzL ws
  | .lzL => decodeTarget .jlzL ws

/-- The words after a `jmp` opcode: the mode word is looked up before any target word is read (30_encoding.md R89). -/
def decodeJmp (c : Config) : List Word → Except DecodeError Instr
  | [] => .error .truncated
  | w :: ws =>
    match nameOfWord c.modeMap w with
    | none => .error .unknownMode
    | some m => decodeMode ws m

/-- The words after the opcode word (30_encoding.md R81, R89). -/
def decodeOperands (c : Config) (ws : List Word) : Opcode → Except DecodeError Instr
  | .loadLit => decodeK .loadLit ws
  | .loadLocal => decodeK .loadLocal ws
  | .storeLocal => decodeK .storeLocal ws
  | .memc => .ok .memc
  | .add => .ok .add
  | .sub => .ok .sub
  | .mul => .ok .mul
  | .mul2 => .ok .mul2
  | .div => .ok .div
  | .mod => .ok .mod
  | .neg => .ok .neg
  | .not => .ok .not
  | .inc => .ok .inc
  | .dec => .ok .dec
  | .or => .ok .or
  | .xor => .ok .xor
  | .and => .ok .and
  | .rotLC => .ok .rotLC
  | .rotRC => .ok .rotRC
  | .addL => .ok .addL
  | .subL => .ok .subL
  | .mulL => .ok .mulL
  | .divL => .ok .divL
  | .modL => .ok .modL
  | .negL => .ok .negL
  | .notL => .ok .notL
  | .incL => .ok .incL
  | .decL => .ok .decL
  | .orL => .ok .orL
  | .xorL => .ok .xorL
  | .andL => .ok .andL
  | .jmp => decodeJmp c ws
  | .call => decodeTarget .call ws
  | .ret => .ok .ret
  | .ret1 => .ok .ret1
  | .ret2 => .ok .ret2
  | .eni => .ok .eni
  | .dsi => .ok .dsi
  | .hlt => .ok .hlt

/-- The instruction at the head of a list of words, the words that can be read from PC upward (30_encoding.md R89). "An
unknown opcode is detected from word 0 alone, before any operand word is read" (R82). -/
def decode (c : Config) : List Word → Except DecodeError Instr
  | [] => .error .truncated
  | w :: ws =>
    match nameOfWord c.opcodeMap w with
    | none => .error .unknownOpcode
    | some op => decodeOperands c ws op

/-- The two words of a target, high first (30_encoding.md R83 b). -/
def targetWords (t : Long) : List Word := [hiWord t, loWord t]

/-- The operand words after the opcode word and, in a `jmp`, the mode word (30_encoding.md R81). -/
def Instr.operandWords : Instr → List Word
  | .loadLit k => [k]
  | .loadLocal k => [k]
  | .storeLocal k => [k]
  | .jmp t => targetWords t
  | .jz t => targetWords t
  | .jnz t => targetWords t
  | .jc t => targetWords t
  | .jcz t => targetWords t
  | .jgz t => targetWords t
  | .jlz t => targetWords t
  | .jge t => targetWords t
  | .jle t => targetWords t
  | .jeq t => targetWords t
  | .jneq t => targetWords t
  | .jzL t => targetWords t
  | .jnzL t => targetWords t
  | .jgzL t => targetWords t
  | .jlzL t => targetWords t
  | .call t => targetWords t
  | .memc
  | .add | .sub | .mul | .mul2 | .div | .mod | .neg | .not | .inc | .dec | .or | .xor | .and | .rotLC | .rotRC
  | .addL | .subL | .mulL | .divL | .modL | .negL | .notL | .incL | .decL | .orL | .xorL | .andL
  | .jro | .ret | .ret1 | .ret2 | .eni | .dsi | .hlt => []

/-- The words of an instruction under the configuration's maps; no words where a map has no number for it
(30_encoding.md R81, R91). -/
def encode (c : Config) (i : Instr) : List Word :=
  match wordOfName c.opcodeMap i.opcode with
  | none => []
  | some w =>
    match i.mode with
    | none => w :: i.operandWords
    | some m =>
      match wordOfName c.modeMap m with
      | none => []
      | some v => w :: v :: i.operandWords

/-- How many words an instruction takes (the "Words" column of 30_encoding.md R85; 4 or 2 for a `jmp`, R81). -/
def Instr.length (i : Instr) : Nat := 1 + (if i.mode.isSome then 1 else 0) + i.operandWords.length

/-- The spec's test configuration (00_scope.md R5, last column; 95_test_vectors.md section 0), with the entry point where that
section puts the instruction under test. DESIGN CHOICE, log 1 and log 5. -/
def testConfig : Config where
  ramSize := 0x001000
  gramSize := 0
  vramSize := 0x001000
  romSize := 0x001000
  entryPc := 0x002100
  vecTimer := 0x002F00
  vecVblank := 0x002F10
  vecKeyboard := 0x002F20
  vecMouse := 0x002F30
  opcodeMap := defaultOpcodeMap
  modeMap := defaultModeMap

/-- Word `n` of `w`, counted from its least significant 12 bits. -/
def wordAt (w n : Nat) : Word := BitVec.ofNat 12 (w / 2 ^ (12 * n))

/-- The four words that a row's bits `w` stand for (log 14). A row of one word has it in bits 11..0, a later word counts on
from there. The table's rows of two fixed words (the `jmp` rows) are numbered `word0 * 4096 + word1`
(30_encoding.md's preamble), so there the first word is bits 23..12; it is told by the `jmp` opcode in its place with a
mode word under it. -/
def tableWords (nbits w : Nat) : List Word :=
  if 16 < nbits ∧ nameOfWord defaultOpcodeMap (wordAt w 1) = some .jmp ∧ (nameOfWord defaultModeMap (wordAt w 0)).isSome then
    [wordAt w 1, wordAt w 0, wordAt w 2, wordAt w 3]
  else [wordAt w 0, wordAt w 1, wordAt w 2, wordAt w 3]

/-- The instruction the decoder reads from a row's bits under the default maps; none where it refuses. -/
def decodeTableWord (nbits w : Nat) : Option Instr :=
  match decode testConfig (tableWords nbits w) with
  | .ok i => some i
  | .error _ => none

end Sys2Proof
end

