-- ==== Sys2Proof/Machine/State.lean ====
section
/-! DEFINITION. The state of the machine (spec/10_state.md), the reasons it stops, and the state after reset (R32). -/

namespace Sys2Proof.Machine

/-- The reasons of a fatal fault (60_exceptions.md R271). An instruction, a fetch or a delivery that raises one ends in a next
state whose `run` is `faulted` with the reason (log 6); `step` answers the reason as its fault at every state so stopped.
Each is safe: the machine stops where the spec stops it. -/
inductive Fault where
  /-- the word fetched at PC is not in `OPCODE_MAP`; raised by fetch and decode -/
  | unknownOpcode
  /-- word 1 of a `jmp` is not in `MODE_MAP`; raised by fetch and decode -/
  | unknownMode
  /-- a write to an address from `ROM_BASE` up; raised by `memWrite` -/
  | romWrite
  /-- a read or write below 0 or at or above `MEM_SIZE`; raised by `memRead`, `memWrite` and the fetch -/
  | addrRange
  /-- a new value of PC, SP or FP, or `FPloc`, outside 0 to 2^24 - 1; raised by `setPc`, `setSp`, `setFp`, `fpLoc` -/
  | regRange
  /-- divisor zero; raised by `div`, `mod`, `div_l`, `mod_l` -/
  | divideByZero
deriving DecidableEq, Repr

/-- Why a step gives no meaning. -/
inductive Refusal where
  /-- An instruction without a meaning yet. Raised by no arm of `exec`; safe. -/
  | notModelled (mnemonic : String)
  /-- The schedule holds a request of more than 0xFFF argument words, which 60_exceptions.md R251 does not admit. Raised by
  `step` on such an input; safe. -/
  | requestTooLong
deriving DecidableEq, Repr

/-- Why a run ended without a fault (10_state.md R30). -/
inductive EndReason where
  | haltDisabled
  | stop
deriving DecidableEq, Repr

/-- The run state (10_state.md R30). -/
inductive RunState where
  | running
  | terminated (reason : EndReason)
  | faulted (reason : Fault)
deriving DecidableEq, Repr

/-- Where the core stands in its loop (10_state.md R33). -/
inductive Phase where
  | check
  | exec
deriving DecidableEq, Repr

/-- What happens next in a schedule of the agents (00_scope.md R16, 60_exceptions.md R258): a requester's atomic step, or a
turn of the core. The model's own (log 9). -/
inductive Event where
  | core
  | request (q : Request)
deriving DecidableEq, Repr

/-- Memory: pairs (word address, word), the addresses strictly rising, no entry holding what an unlisted address reads as. The
unit is the word, not the byte (20_memory.md R50, R58; log 3). -/
abbrev Memory := List (Nat × Word)

/-- The state: the tuple of 10_state.md's preamble and, last, the model's own three fields. -/
structure State where
  /-- program counter (R21) -/
  pc : Long
  /-- stack pointer, the highest occupied stack slot (R23) -/
  sp : Long
  /-- frame pointer, the first word of the active header (R23) -/
  fp : Long
  /-- the carry flag (R25) -/
  carry : Bool
  /-- `interruptsEnabled` (R27) -/
  ie : Bool
  /-- waiting in `hlt` (R28) -/
  halted : Bool
  /-- the pending slot (R29) -/
  pending : Option Request
  /-- the count of dropped requests (R29) -/
  missed : Nat
  /-- the run state (R30) -/
  run : RunState
  /-- the position in the loop (R33) -/
  phase : Phase
  /-- the memory (20_memory.md R50) -/
  mem : Memory
  /-- MODEL'S OWN: the parameters of the run (00_scope.md R5); no step writes it (log 1) -/
  cfg : Config
  /-- MODEL'S OWN: what the agents do next; empty means that the core goes on alone (log 9) -/
  schedule : List Event
  /-- MODEL'S OWN: how many free values were drawn (log 13) -/
  draws : Nat
deriving DecidableEq, Repr

/-- The state right after reset under a configuration and a memory (10_state.md R32; `boot` builds the memory). -/
def State.resetWith (c : Config) (mem : Memory) : State where
  pc := c.entryPc
  sp := 4
  fp := 0
  carry := false
  ie := false
  halted := false
  pending := none
  missed := 0
  run := .running
  phase := .check
  mem := mem
  cfg := c
  schedule := []
  draws := 0

/-- The machine right after reset under the test configuration, with an empty image and `INIT_MEM` all zero (log 1, 4, 5). The
start-up header at addresses 0 to 4 is all zero (10_state.md R32), so nothing is listed. -/
def State.reset : State := State.resetWith testConfig []

end Sys2Proof.Machine
end

