-- ==== Sys2Proof/Machine/Flags.lean ====
section
/-! DEFINITION. The ALU: each operation gives a result and, where the spec says so, the new carry, by the raw mathematical
result (spec/10_state.md R26, spec/41_alu_word.md, spec/42_alu_long.md). Every operation is over a width `n`: 12 for the word
rules, 24 for the long rules, which are "the word rule with 12 replaced by 24" (42_alu_long.md's preamble). -/

namespace Sys2Proof.Machine

/-- `mask12` and `mask24`: the value modulo 2^n (00_scope.md R8). -/
def mask (n : Nat) (raw : Int) : BitVec n := BitVec.ofInt n raw

/-- `raw > 0xFFF`, `raw > 0xFFFFFF`. -/
def overflows (n : Nat) (raw : Int) : Bool := decide (raw > 2 ^ n - 1)

/-- `raw < 0`. -/
def underflows (raw : Int) : Bool := decide (raw < 0)

/-- `sext_12`, `sext_24`: the two's-complement reading (00_scope.md R9). -/
def sext {n : Nat} (v : BitVec n) : Int := if v.msb then (v.toNat : Int) - 2 ^ n else v.toNat

/-- `add` (R132), `add_l` (R162). -/
def aluAdd {n : Nat} (a b : BitVec n) : BitVec n × Bool :=
  let raw : Int := a.toNat + b.toNat
  (mask n raw, overflows n raw)

/-- `sub` (R133), `sub_l` (R163): the raw difference is a mathematical integer. -/
def aluSub {n : Nat} (a b : BitVec n) : BitVec n × Bool :=
  let raw : Int := (a.toNat : Int) - b.toNat
  (mask n raw, overflows n raw)

/-- `mul` (R134), `mul_l` (R164): unsigned. -/
def aluMul {n : Nat} (a b : BitVec n) : BitVec n × Bool :=
  let raw : Int := (a.toNat : Int) * b.toNat
  (mask n raw, overflows n raw)

/-- `mul2` (R135): the 24-bit product of two words. -/
def aluMul2 (a b : Word) : Long × Bool :=
  let raw : Int := (a.toNat : Int) * b.toNat
  (mask 24 raw, overflows 24 raw)

/-- `div` (R136), `div_l` (R165), for a divisor that is not zero: the unsigned quotient. -/
def aluDiv {n : Nat} (a b : BitVec n) : BitVec n × Bool :=
  let q : Int := ((a.toNat / b.toNat : Nat) : Int)
  (mask n q, overflows n q)

/-- `mod` (R137), `mod_l` (R166), for a divisor that is not zero: "`a - b * floor(a / b)`". -/
def aluMod {n : Nat} (a b : BitVec n) : BitVec n × Bool :=
  let r : Int := (a.toNat : Int) - b.toNat * ((a.toNat / b.toNat : Nat) : Int)
  (mask n r, overflows n r)

/-- `neg` (R138), `neg_l` (R167). -/
def aluNeg {n : Nat} (a : BitVec n) : BitVec n × Bool :=
  let raw : Int := -(a.toNat : Int)
  (mask n raw, underflows raw)

/-- `not` (R139), `not_l` (R168): carry is written false. -/
def aluNot {n : Nat} (a : BitVec n) : BitVec n × Bool := (mask n (2 ^ n - 1 - (a.toNat : Int)), false)

/-- `inc` (R140), `inc_l` (R169). -/
def aluInc {n : Nat} (a : BitVec n) : BitVec n × Bool :=
  let raw : Int := (a.toNat : Int) + 1
  (mask n raw, overflows n raw)

/-- `dec` (R141), `dec_l` (R170). -/
def aluDec {n : Nat} (a : BitVec n) : BitVec n × Bool :=
  let raw : Int := (a.toNat : Int) - 1
  (mask n raw, underflows raw)

/-- `or` (R142), `or_l` (R171): bit by bit; carry is no part of it. -/
def aluOr {n : Nat} (a b : BitVec n) : BitVec n := a ||| b

/-- `xor` (R143), `xor_l` (R172). -/
def aluXor {n : Nat} (a b : BitVec n) : BitVec n := a ^^^ b

/-- `and` (R144), `and_l` (R173). -/
def aluAnd {n : Nat} (a b : BitVec n) : BitVec n := a &&& b

/-- `rot_l_c` (R145): the old carry enters bit 0, bit 11 leaves into carry. -/
def aluRotL (a : Word) (c : Bool) : Word × Bool :=
  (mask 12 ((mask 12 ((a.toNat : Int) * 2)).toNat + c.toNat), a.getLsbD 11)

/-- `rot_r_c` (R146): the old carry enters bit 11, bit 0 leaves into carry. -/
def aluRotR (a : Word) (c : Bool) : Word × Bool :=
  (mask 12 (((a.toNat / 2 : Nat) : Int) + c.toNat * 0x800), a.getLsbD 0)

end Sys2Proof.Machine
end

