-- ==== Sys2Proof/Machine/Ops.lean ====
section
/-! DEFINITION. The named operations over memory, registers and the stack (spec/00_scope.md R11 to R13), the frame header
(spec/43_call_return.md R192, R195), taking a fatal fault (spec/60_exceptions.md R270) and ending a run. -/

namespace Sys2Proof.Machine

/-! ### Memory as data -/

/-- What an address that is not listed reads as: zero (log 4). -/
def Memory.unlisted : Word := 0

/-- The word at an address (`mem[a]` of 00_scope.md R10, without an access check). -/
def Memory.read : Memory → Nat → Word
  | [], _ => Memory.unlisted
  | (b, v) :: m, a => if b = a then v else Memory.read m a

/-- Put an entry first, unless it says what an unlisted address reads as. -/
def Memory.cons (a : Nat) (w : Word) (m : Memory) : Memory := if w = Memory.unlisted then m else (a, w) :: m

/-- `mem[a] <- w`, keeping the canonical form. -/
def Memory.write : Memory → Nat → Word → Memory
  | [], a, w => Memory.cons a w []
  | (b, v) :: m, a, w =>
    if a < b then Memory.cons a w ((b, v) :: m)
    else if a = b then Memory.cons a w m
    else (b, v) :: Memory.write m a w

/-- The canonical form above an address: rising addresses, no entry that an unlisted address reads as. -/
def Memory.wfFrom : Nat → Memory → Bool
  | _, [] => true
  | lo, (a, w) :: m => decide (lo ≤ a) && decide (w ≠ Memory.unlisted) && Memory.wfFrom (a + 1) m

/-- The memory is in its one canonical form. -/
def Memory.wf (m : Memory) : Bool := Memory.wfFrom 0 m

/-- Every listed address is below a bound. -/
def Memory.below (m : Memory) (n : Nat) : Bool := m.all fun e => decide (e.1 < n)

/-! ### Operations that can fault -/

/-- An operation of an instruction's pseudocode: it goes on with a value and a state, or raises a fatal fault and leaves the
state as the part before the fault made it (20_memory.md R57, 92_eei_decisions.md D26). -/
abbrev Op (α : Type) := EStateM Fault State α

/-- `raise Fatal(reason)` (00_scope.md R13). -/
def raiseFatal {α : Type} (r : Fault) : Op α := fun s => .error r s

/-- Taking a fatal fault: "`run <- Faulted(reason)`", nothing else (60_exceptions.md R270). -/
def State.takeFault (s : State) (r : Fault) : State := { s with run := .faulted r }

/-- `terminate(reason)` (00_scope.md R13, 70_reset_and_hazards.md R300). -/
def State.terminate (s : State) (r : EndReason) : State := { s with run := .terminated r }

/-- Run an instruction's pseudocode: its end state, or the state of the fault it raised. -/
def runOp (m : Op Unit) (s : State) : Host.Outcome State Fault Refusal :=
  match m s with
  | .ok _ t => .next t
  | .error r t => .next (t.takeFault r)

/-- `MemRead(a, 1)` (20_memory.md R55). -/
def memRead (a : Int) : Op Word := fun s =>
  if a < 0 ∨ s.cfg.memSize ≤ a.toNat then .error .addrRange s else .ok (s.mem.read a.toNat) s

/-- `MemWrite(a, 1, w)`: range before region (20_memory.md R56). -/
def memWrite (a : Int) (w : Word) : Op Unit := fun s =>
  if a < 0 ∨ s.cfg.memSize ≤ a.toNat then .error .addrRange s
  else if s.cfg.romBase ≤ a.toNat then .error .romWrite s
  else .ok () { s with mem := s.mem.write a.toNat w }

/-- `MemRead(a, 2)`: high word at the lower address, read first (00_scope.md R11). -/
def memReadLong (a : Int) : Op Long := do
  let h ← memRead a
  let l ← memRead (a + 1)
  return longOf h l

/-- `MemWrite(a, 2, v)`: high word at the lower address, written first (00_scope.md R11). A primitive of the spec's notation that
no instruction rule uses. -/
def memWriteLong (a : Int) (v : Long) : Op Unit := do
  memWrite a (hiWord v)
  memWrite (a + 1) (loWord v)

/-- The register range of 10_state.md R24. -/
abbrev inRegRange (v : Int) : Prop := 0 ≤ v ∧ v.toNat < addressLimit

/-- `PC <- v`, checked (10_state.md R24). -/
def setPc (v : Int) : Op Unit := fun s =>
  if inRegRange v then .ok () { s with pc := BitVec.ofInt 24 v } else .error .regRange s

/-- `SP <- v`, checked (10_state.md R24). -/
def setSp (v : Int) : Op Unit := fun s =>
  if inRegRange v then .ok () { s with sp := BitVec.ofInt 24 v } else .error .regRange s

/-- `FP <- v`, checked (10_state.md R24). -/
def setFp (v : Int) : Op Unit := fun s =>
  if inRegRange v then .ok () { s with fp := BitVec.ofInt 24 v } else .error .regRange s

/-- The value of PC. -/
def getPc : Op Nat := fun s => .ok s.pc.toNat s

/-- The value of SP. -/
def getSp : Op Nat := fun s => .ok s.sp.toNat s

/-- The value of FP. -/
def getFp : Op Nat := fun s => .ok s.fp.toNat s

/-- The carry flag. -/
def getCarry : Op Bool := fun s => .ok s.carry s

/-- `carry <- c`. -/
def setCarry (c : Bool) : Op Unit := fun s => .ok () { s with carry := c }

/-- `IE <- b` (10_state.md R27). -/
def setIe (b : Bool) : Op Unit := fun s => .ok () { s with ie := b }

/-- `pending <- none` (60_exceptions.md R260). -/
def clearPending : Op Unit := fun s => .ok () { s with pending := none }

/-- `PC <- PC + n`, checked (10_state.md R21, R24). -/
def advance (n : Nat) : Op Unit := do
  let pc ← getPc
  setPc ((pc : Int) + n)

/-! ### The stack (00_scope.md R12) -/

/-- `push(w)`: "SP <- SP + 1 ; MemWrite(SP, 1, w)". -/
def push (w : Word) : Op Unit := do
  let sp ← getSp
  setSp ((sp : Int) + 1)
  memWrite ((sp : Int) + 1) w

/-- `pop()`: "w <- MemRead(SP, 1) ; SP <- SP - 1". -/
def pop : Op Word := do
  let sp ← getSp
  let w ← memRead sp
  setSp ((sp : Int) - 1)
  return w

/-- `push_l(v)`: high word below, low word on top. -/
def pushL (v : Long) : Op Unit := do
  push (hiWord v)
  push (loWord v)

/-- `pop_l()`: the low word is popped first. -/
def popL : Op Long := do
  let l ← pop
  let h ← pop
  return longOf h l

/-- Push words in order, the first one deepest (60_exceptions.md R260). -/
def pushAll : List Word → Op Unit
  | [] => pure ()
  | w :: ws => do
    push w
    pushAll ws

/-- `copy(src, dst, length)`: the forward, ascending word copy (20_memory.md R69). -/
def copyWords (src dst : Nat) : Nat → Op Unit
  | 0 => pure ()
  | n + 1 => do
    let w ← memRead src
    memWrite dst w
    copyWords (src + 1) (dst + 1) n

/-! ### The frame header -/

/-- `build_frame(ra, n)` (43_call_return.md R192), shared by `call` and by the delivery of an interrupt. -/
def buildFrame (ra : Long) (n : Word) : Op Unit := do
  let old ← getFp
  push (hiWord ra)
  let sp ← getSp
  setFp sp
  push (loWord ra)
  push (hiWord (BitVec.ofNat 24 old))
  push (loWord (BitVec.ofNat 24 old))
  push n

/-- The seven lines of `ret` (43_call_return.md R195): the return from a routine and from an interrupt handler. -/
def tearDown : Op Unit := do
  let f ← getFp
  let n ← memRead ((f : Int) + 4)
  let ra ← memReadLong f
  let pf ← memReadLong ((f : Int) + 2)
  setSp ((f : Int) - 1 - n.toNat)
  setPc ra.toNat
  setFp pf.toNat

/-- The return address of a `call`, "the address of the word after the three-word `call`" (43_call_return.md R193); where that
is no 24-bit value, a free value (log 12). -/
def returnAddress : Op Long := fun s =>
  if s.pc.toNat + 3 < addressLimit then .ok (s.pc + 3) s
  else .ok (freeReturnAddress s.draws) { s with draws := s.draws + 1 }

end Sys2Proof.Machine
end

