-- ==== Sys2Proof/Machine/Operands.lean ====
section
/-! DEFINITION. The operand forms: the locals' base (spec/40_stack_memory.md R111), the common shapes of the word and long ALU
instructions (spec/41_alu_word.md R130, R131, spec/42_alu_long.md R160, R161) and of the jumps
(spec/44_control_transfer.md R211). -/

namespace Sys2Proof.Machine

/-- `FPloc = FP - MemRead(FP + 4, 1)`; below 0 it "raises `Fatal(RegRange)`" (40_stack_memory.md R111). -/
def fpLoc : Op Nat := do
  let fp ← getFp
  let n ← memRead ((fp : Int) + 4)
  if fp < n.toNat then raiseFatal .regRange else return fp - n.toNat

/-- The binary word shape (41_alu_word.md R130). -/
def binaryWord (op : Word → Word → Word × Bool) : Op Unit := do
  let b ← pop
  let a ← pop
  push (op a b).1
  setCarry (op a b).2
  advance 1

/-- The binary word shape of `or`, `xor`, `and`, which leave carry (R130, R142). -/
def binaryWordKeep (op : Word → Word → Word) : Op Unit := do
  let b ← pop
  let a ← pop
  push (op a b)
  advance 1

/-- The binary word shape of `div` and `mod`: the zero divisor is met after both pops and before the push (R136, R137). -/
def binaryWordDiv (op : Word → Word → Word × Bool) : Op Unit := do
  let b ← pop
  let a ← pop
  if b = 0 then raiseFatal .divideByZero
  else do
    push (op a b).1
    setCarry (op a b).2
    advance 1

/-- The shape of `mul2`: two words in, a long out (R135). -/
def binaryWordToLong (op : Word → Word → Long × Bool) : Op Unit := do
  let b ← pop
  let a ← pop
  pushL (op a b).1
  setCarry (op a b).2
  advance 1

/-- The unary word shape (R131). -/
def unaryWord (op : Word → Word × Bool) : Op Unit := do
  let a ← pop
  push (op a).1
  setCarry (op a).2
  advance 1

/-- The unary word shape that reads the old carry (R131, R145, R146). -/
def unaryWordCarry (op : Word → Bool → Word × Bool) : Op Unit := do
  let a ← pop
  let c ← getCarry
  push (op a c).1
  setCarry (op a c).2
  advance 1

/-- The binary long shape (42_alu_long.md R160). -/
def binaryLong (op : Long → Long → Long × Bool) : Op Unit := do
  let b ← popL
  let a ← popL
  pushL (op a b).1
  setCarry (op a b).2
  advance 1

/-- The binary long shape of `or_l`, `xor_l`, `and_l`, which leave carry (R160, R171). -/
def binaryLongKeep (op : Long → Long → Long) : Op Unit := do
  let b ← popL
  let a ← popL
  pushL (op a b)
  advance 1

/-- The binary long shape of `div_l` and `mod_l`: the zero divisor is met after both longs are popped (R165, R166). -/
def binaryLongDiv (op : Long → Long → Long × Bool) : Op Unit := do
  let b ← popL
  let a ← popL
  if b = 0 then raiseFatal .divideByZero
  else do
    pushL (op a b).1
    setCarry (op a b).2
    advance 1

/-- The unary long shape (R161). -/
def unaryLong (op : Long → Long × Bool) : Op Unit := do
  let a ← popL
  pushL (op a).1
  setCarry (op a).2
  advance 1

/-- The end of every `jmp` but RO: "if cond: PC <- target else: PC <- PC + 4" (44_control_transfer.md R211). -/
def branch (target : Long) (cond : Bool) : Op Unit := if cond then setPc target.toNat else advance 4

/-- A jump on one popped word (R211: popped "always, taken or not"). -/
def jumpOnWord (target : Long) (cond : Word → Bool) : Op Unit := do
  let v ← pop
  branch target (cond v)

/-- A jump on two popped words, `b` on top (R221). -/
def jumpOnWords (target : Long) (cond : Word → Word → Bool) : Op Unit := do
  let b ← pop
  let a ← pop
  branch target (cond a b)

/-- A jump on one popped long (R224). -/
def jumpOnLong (target : Long) (cond : Long → Bool) : Op Unit := do
  let v ← popL
  branch target (cond v)

/-- A jump on the carry flag, which is read and not changed (R215, R216). -/
def jumpOnCarry (target : Long) (cond : Bool → Bool) : Op Unit := do
  let c ← getCarry
  branch target (cond c)

end Sys2Proof.Machine
end

