-- ==== Sys2Proof/Machine/AluLong.lean ====
section
/-! DEFINITION. The long (24-bit) ALU instructions (spec/42_alu_long.md): one line each over a common shape and an ALU operation. -/

namespace Sys2Proof.Machine

/-- `add_l` (R162). -/
def execAddL (s : State) : Host.Outcome State Fault Refusal := runOp (binaryLong aluAdd) s

/-- `sub_l` (R163). -/
def execSubL (s : State) : Host.Outcome State Fault Refusal := runOp (binaryLong aluSub) s

/-- `mul_l` (R164). -/
def execMulL (s : State) : Host.Outcome State Fault Refusal := runOp (binaryLong aluMul) s

/-- `div_l` (R165). -/
def execDivL (s : State) : Host.Outcome State Fault Refusal := runOp (binaryLongDiv aluDiv) s

/-- `mod_l` (R166). -/
def execModL (s : State) : Host.Outcome State Fault Refusal := runOp (binaryLongDiv aluMod) s

/-- `neg_l` (R167). -/
def execNegL (s : State) : Host.Outcome State Fault Refusal := runOp (unaryLong aluNeg) s

/-- `not_l` (R168). -/
def execNotL (s : State) : Host.Outcome State Fault Refusal := runOp (unaryLong aluNot) s

/-- `inc_l` (R169). -/
def execIncL (s : State) : Host.Outcome State Fault Refusal := runOp (unaryLong aluInc) s

/-- `dec_l` (R170). -/
def execDecL (s : State) : Host.Outcome State Fault Refusal := runOp (unaryLong aluDec) s

/-- `or_l` (R171). -/
def execOrL (s : State) : Host.Outcome State Fault Refusal := runOp (binaryLongKeep aluOr) s

/-- `xor_l` (R172). -/
def execXorL (s : State) : Host.Outcome State Fault Refusal := runOp (binaryLongKeep aluXor) s

/-- `and_l` (R173). -/
def execAndL (s : State) : Host.Outcome State Fault Refusal := runOp (binaryLongKeep aluAnd) s

end Sys2Proof.Machine
end

