-- ==== Sys2Proof/Machine/AluWord.lean ====
section
/-! DEFINITION. The word ALU instructions (spec/41_alu_word.md): one line each over a common shape and an ALU operation. -/

namespace Sys2Proof.Machine

/-- `add` (R132). -/
def execAdd (s : State) : Host.Outcome State Fault Refusal := runOp (binaryWord aluAdd) s

/-- `sub` (R133). -/
def execSub (s : State) : Host.Outcome State Fault Refusal := runOp (binaryWord aluSub) s

/-- `mul` (R134). -/
def execMul (s : State) : Host.Outcome State Fault Refusal := runOp (binaryWord aluMul) s

/-- `mul2` (R135). -/
def execMul2 (s : State) : Host.Outcome State Fault Refusal := runOp (binaryWordToLong aluMul2) s

/-- `div` (R136). -/
def execDiv (s : State) : Host.Outcome State Fault Refusal := runOp (binaryWordDiv aluDiv) s

/-- `mod` (R137). -/
def execMod (s : State) : Host.Outcome State Fault Refusal := runOp (binaryWordDiv aluMod) s

/-- `neg` (R138). -/
def execNeg (s : State) : Host.Outcome State Fault Refusal := runOp (unaryWord aluNeg) s

/-- `not` (R139). -/
def execNot (s : State) : Host.Outcome State Fault Refusal := runOp (unaryWord aluNot) s

/-- `inc` (R140). -/
def execInc (s : State) : Host.Outcome State Fault Refusal := runOp (unaryWord aluInc) s

/-- `dec` (R141). -/
def execDec (s : State) : Host.Outcome State Fault Refusal := runOp (unaryWord aluDec) s

/-- `or` (R142). -/
def execOr (s : State) : Host.Outcome State Fault Refusal := runOp (binaryWordKeep aluOr) s

/-- `xor` (R143). -/
def execXor (s : State) : Host.Outcome State Fault Refusal := runOp (binaryWordKeep aluXor) s

/-- `and` (R144). -/
def execAnd (s : State) : Host.Outcome State Fault Refusal := runOp (binaryWordKeep aluAnd) s

/-- `rot_l_c` (R145). -/
def execRotLC (s : State) : Host.Outcome State Fault Refusal := runOp (unaryWordCarry aluRotL) s

/-- `rot_r_c` (R146). -/
def execRotRC (s : State) : Host.Outcome State Fault Refusal := runOp (unaryWordCarry aluRotR) s

end Sys2Proof.Machine
end

