-- ==== Sys2Proof/Machine/CallReturn.lean ====
section
/-! DEFINITION. Stack frames, call and return (spec/43_call_return.md). -/

namespace Sys2Proof.Machine

/-- `call target` (R193): the header at `target` is read, the other locals are reserved and not written, the frame is built.
`locals < params` is the same arithmetic (R194). -/
def execCall (target : Long) (s : State) : Host.Outcome State Fault Refusal :=
  runOp (do
    let params ← memRead target.toNat
    let locals ← memRead ((target.toNat : Int) + 1)
    let sp ← getSp
    setSp ((sp : Int) + locals.toNat - params.toNat)
    let ra ← returnAddress
    buildFrame ra locals
    setPc ((target.toNat : Int) + 2)) s

/-- `ret` (R195). -/
def execRet (s : State) : Host.Outcome State Fault Refusal := runOp tearDown s

/-- `ret1` (R196): the top word is saved before and pushed after. -/
def execRet1 (s : State) : Host.Outcome State Fault Refusal :=
  runOp (do
    let sp ← getSp
    let v ← memRead sp
    tearDown
    push v) s

/-- `ret2` (R197): the two top words keep their order. -/
def execRet2 (s : State) : Host.Outcome State Fault Refusal :=
  runOp (do
    let sp ← getSp
    let v1 ← memRead sp
    let v0 ← memRead ((sp : Int) - 1)
    tearDown
    push v0
    push v1) s

end Sys2Proof.Machine
end

