-- ==== Sys2Proof/Machine/Jump.lean ====
section
/-! DEFINITION. The `jmp` instruction, one meaning per mode (spec/44_control_transfer.md). The mode word and the target words
are read by the decoder, before anything is popped (R211, R228). -/

namespace Sys2Proof.Machine

/-- `jmp`, mode JMP (R212): always taken. -/
def execJmp (target : Long) (s : State) : Host.Outcome State Fault Refusal :=
  runOp (branch target true) s

/-- `jz`, mode Z (R213): value = 0. -/
def execJz (target : Long) (s : State) : Host.Outcome State Fault Refusal :=
  runOp (jumpOnWord target fun v => decide (v = 0)) s

/-- `jnz`, mode NZ (R214): value ≠ 0. -/
def execJnz (target : Long) (s : State) : Host.Outcome State Fault Refusal :=
  runOp (jumpOnWord target fun v => decide (v ≠ 0)) s

/-- `jc`, mode C (R215): carry = true. -/
def execJc (target : Long) (s : State) : Host.Outcome State Fault Refusal :=
  runOp (jumpOnCarry target fun c => c) s

/-- `jcz`, mode CZ (R216): carry = false. -/
def execJcz (target : Long) (s : State) : Host.Outcome State Fault Refusal :=
  runOp (jumpOnCarry target fun c => !c) s

/-- `jgz`, mode GZ (R217): signed value > 0. -/
def execJgz (target : Long) (s : State) : Host.Outcome State Fault Refusal :=
  runOp (jumpOnWord target fun v => decide (sext v > 0)) s

/-- `jlz`, mode LZ (R218): signed value < 0. -/
def execJlz (target : Long) (s : State) : Host.Outcome State Fault Refusal :=
  runOp (jumpOnWord target fun v => decide (sext v < 0)) s

/-- `jge`, mode GE (R219): signed value ≥ 0. -/
def execJge (target : Long) (s : State) : Host.Outcome State Fault Refusal :=
  runOp (jumpOnWord target fun v => decide (sext v ≥ 0)) s

/-- `jle`, mode LE (R220): signed value ≤ 0. -/
def execJle (target : Long) (s : State) : Host.Outcome State Fault Refusal :=
  runOp (jumpOnWord target fun v => decide (sext v ≤ 0)) s

/-- `jeq`, mode EQ (R221): the two words are equal. -/
def execJeq (target : Long) (s : State) : Host.Outcome State Fault Refusal :=
  runOp (jumpOnWords target fun a b => decide (a = b)) s

/-- `jneq`, mode NEQ (R222): the two words differ. -/
def execJneq (target : Long) (s : State) : Host.Outcome State Fault Refusal :=
  runOp (jumpOnWords target fun a b => decide (a ≠ b)) s

/-- `jro`, mode RO (R223): the base is the word after the two-word instruction. -/
def execJro (s : State) : Host.Outcome State Fault Refusal :=
  runOp (do
    let off ← pop
    let pc ← getPc
    setPc ((pc : Int) + 2 + sext off)) s

/-- `jz_l`, mode Z_L (R224): long = 0. -/
def execJzL (target : Long) (s : State) : Host.Outcome State Fault Refusal :=
  runOp (jumpOnLong target fun v => decide (v = 0)) s

/-- `jnz_l`, mode NZ_L (R225): long ≠ 0. -/
def execJnzL (target : Long) (s : State) : Host.Outcome State Fault Refusal :=
  runOp (jumpOnLong target fun v => decide (v ≠ 0)) s

/-- `jgz_l`, mode GZ_L (R226): signed long > 0. -/
def execJgzL (target : Long) (s : State) : Host.Outcome State Fault Refusal :=
  runOp (jumpOnLong target fun v => decide (sext v > 0)) s

/-- `jlz_l`, mode LZ_L (R227): signed long < 0. -/
def execJlzL (target : Long) (s : State) : Host.Outcome State Fault Refusal :=
  runOp (jumpOnLong target fun v => decide (sext v < 0)) s

end Sys2Proof.Machine
end

