-- ==== Sys2Proof/Machine/StackMemory.lean ====
section
/-! DEFINITION. The stack, local-variable and block-copy instructions (spec/40_stack_memory.md). -/

namespace Sys2Proof.Machine

/-- `load_lit k` (R110). -/
def execLoadLit (k : Word) (s : State) : Host.Outcome State Fault Refusal :=
  runOp (do
    push k
    advance 2) s

/-- `load_local k` (R112): `k` is not checked against `locals`. -/
def execLoadLocal (k : Word) (s : State) : Host.Outcome State Fault Refusal :=
  runOp (do
    let base ← fpLoc
    let v ← memRead ((base : Int) + k.toNat)
    push v
    advance 2) s

/-- `store_local k` (R113): the base is computed before the pop. -/
def execStoreLocal (k : Word) (s : State) : Host.Outcome State Fault Refusal :=
  runOp (do
    let base ← fpLoc
    let v ← pop
    memWrite ((base : Int) + k.toNat) v
    advance 2) s

/-- `memc` (R114): length on top, then destination, then source. -/
def execMemc (s : State) : Host.Outcome State Fault Refusal :=
  runOp (do
    let len ← popL
    let dst ← popL
    let src ← popL
    copyWords src.toNat dst.toNat len.toNat
    advance 1) s

end Sys2Proof.Machine
end

