-- ==== Sys2Proof/Machine/System.lean ====
section
/-! DEFINITION. The system instructions (spec/45_system.md). -/

namespace Sys2Proof.Machine

/-- `eni` (R240). -/
def execEni (s : State) : Host.Outcome State Fault Refusal :=
  runOp (do
    setIe true
    advance 1) s

/-- `dsi` (R241). -/
def execDsi (s : State) : Host.Outcome State Fault Refusal :=
  runOp (do
    setIe false
    advance 1) s

/-- PC after a `hlt` that ends the run: "either the address of the `hlt` or the address after it"
(70_reset_and_hazards.md R300), a free choice (log 11); at the top of the range there is no address after it. -/
def haltPc (draw : Nat) (pc : Long) : Long :=
  if freeHaltAdvancesPc draw ∧ pc.toNat + 1 < addressLimit then pc + 1 else pc

/-- `terminate(HaltDisabled)` (R242). -/
def State.haltDisabled (s : State) : State :=
  State.terminate { s with pc := haltPc s.draws s.pc, draws := s.draws + 1 } .haltDisabled

/-- "if pending = none: halted <- true" (R242). -/
def waitForRequest : Op Unit := fun s => .ok () (if s.pending = none then { s with halted := true } else s)

/-- `hlt` (R242): it ends the run with interrupts disabled; else it advances PC and waits unless a request is pending. -/
def execHlt (s : State) : Host.Outcome State Fault Refusal :=
  if s.ie then
    runOp (do
      advance 1
      waitForRequest) s
  else .next s.haltDisabled

end Sys2Proof.Machine
end

