-- ==== Sys2Proof/Machine/Dispatch.lean ====
section
/-! DEFINITION. The dispatch: one arm per constructor of `Instr`, each one direct call of its meaning. -/

namespace Sys2Proof.Machine

/-- The meaning of an instruction. -/
def exec (i : Instr) (s : State) : Host.Outcome State Fault Refusal :=
  match i with
  | .loadLit k => Sys2Proof.Machine.execLoadLit k s
  | .loadLocal k => Sys2Proof.Machine.execLoadLocal k s
  | .storeLocal k => Sys2Proof.Machine.execStoreLocal k s
  | .memc => Sys2Proof.Machine.execMemc s
  | .add => Sys2Proof.Machine.execAdd s
  | .sub => Sys2Proof.Machine.execSub s
  | .mul => Sys2Proof.Machine.execMul s
  | .mul2 => Sys2Proof.Machine.execMul2 s
  | .div => Sys2Proof.Machine.execDiv s
  | .mod => Sys2Proof.Machine.execMod s
  | .neg => Sys2Proof.Machine.execNeg s
  | .not => Sys2Proof.Machine.execNot s
  | .inc => Sys2Proof.Machine.execInc s
  | .dec => Sys2Proof.Machine.execDec s
  | .or => Sys2Proof.Machine.execOr s
  | .xor => Sys2Proof.Machine.execXor s
  | .and => Sys2Proof.Machine.execAnd s
  | .rotLC => Sys2Proof.Machine.execRotLC s
  | .rotRC => Sys2Proof.Machine.execRotRC s
  | .addL => Sys2Proof.Machine.execAddL s
  | .subL => Sys2Proof.Machine.execSubL s
  | .mulL => Sys2Proof.Machine.execMulL s
  | .divL => Sys2Proof.Machine.execDivL s
  | .modL => Sys2Proof.Machine.execModL s
  | .negL => Sys2Proof.Machine.execNegL s
  | .notL => Sys2Proof.Machine.execNotL s
  | .incL => Sys2Proof.Machine.execIncL s
  | .decL => Sys2Proof.Machine.execDecL s
  | .orL => Sys2Proof.Machine.execOrL s
  | .xorL => Sys2Proof.Machine.execXorL s
  | .andL => Sys2Proof.Machine.execAndL s
  | .jmp target => Sys2Proof.Machine.execJmp target s
  | .jz target => Sys2Proof.Machine.execJz target s
  | .jnz target => Sys2Proof.Machine.execJnz target s
  | .jc target => Sys2Proof.Machine.execJc target s
  | .jcz target => Sys2Proof.Machine.execJcz target s
  | .jgz target => Sys2Proof.Machine.execJgz target s
  | .jlz target => Sys2Proof.Machine.execJlz target s
  | .jge target => Sys2Proof.Machine.execJge target s
  | .jle target => Sys2Proof.Machine.execJle target s
  | .jeq target => Sys2Proof.Machine.execJeq target s
  | .jneq target => Sys2Proof.Machine.execJneq target s
  | .jro => Sys2Proof.Machine.execJro s
  | .jzL target => Sys2Proof.Machine.execJzL target s
  | .jnzL target => Sys2Proof.Machine.execJnzL target s
  | .jgzL target => Sys2Proof.Machine.execJgzL target s
  | .jlzL target => Sys2Proof.Machine.execJlzL target s
  | .call target => Sys2Proof.Machine.execCall target s
  | .ret => Sys2Proof.Machine.execRet s
  | .ret1 => Sys2Proof.Machine.execRet1 s
  | .ret2 => Sys2Proof.Machine.execRet2 s
  | .eni => Sys2Proof.Machine.execEni s
  | .dsi => Sys2Proof.Machine.execDsi s
  | .hlt => Sys2Proof.Machine.execHlt s

end Sys2Proof.Machine
end

