-- ==== Sys2Proof/Machine/Interrupts.lean ====
section
/-! DEFINITION. The interrupt controller: the request of an external agent (spec/60_exceptions.md R252), the check and the
delivery (R259 to R261). -/

namespace Sys2Proof.Machine

/-- What a requester is told (R252). -/
inductive Answer where
  | accepted
  | missed
deriving DecidableEq, Repr

/-- `request(type, args)`, one atomic step: the test and the update are one action (R252). -/
def request (q : Request) (s : State) : Answer × State :=
  if s.ie = true ∧ s.pending = none then (.accepted, { s with pending := some q, halted := false })
  else (.missed, { s with missed := s.missed + 1 })

/-- A request of one of the five sources, at the source's vector (R250, R251). -/
def requestFrom (src : IrqSource) (args : List Word) (s : State) : Answer × State := request ⟨s.cfg.irqType src, args⟩ s

/-- Delivery of an ordinary interrupt `(vec, args)`: taking the exception (R260). -/
def deliver (vec : Long) (args : List Word) : Op Unit := do
  pushAll args
  let pc ← getPc
  buildFrame (BitVec.ofNat 24 pc) (BitVec.ofNat 12 args.length)
  setPc vec.toNat
  clearPending

/-- Delivery of `Stop`: no frame, the run ends (R261). -/
def State.deliverStop (s : State) : State := State.terminate { s with pending := none } .stop

/-- "phase <- Exec -- unless the run ended" (R259). -/
def State.afterCheck (s : State) : State := if s.run = .running then { s with phase := .exec } else s

/-- "phase <- Check -- unless the run ended" (R259). -/
def State.afterExec (s : State) : State := if s.run = .running then { s with phase := .check } else s

/-- The check step: at most one delivery (R259, 70_reset_and_hazards.md R295). -/
def checkStep (s : State) : Host.Outcome State Fault Refusal :=
  match s.pending with
  | none => .next s.afterCheck
  | some ⟨.stop, _⟩ => .next s.deliverStop
  | some ⟨.vector vec, args⟩ =>
    match deliver vec args s with
    | .ok _ t => .next t.afterCheck
    | .error r t => .next (t.takeFault r)

end Sys2Proof.Machine
end

