-- ==== Sys2Proof/Machine/Loop.lean ====
section
/-! DEFINITION. The execution loop (spec/70_reset_and_hazards.md R295, spec/60_exceptions.md R258, R259): fetch, the execute
step, a step of the core, and the scheduled step of a requester. -/

namespace Sys2Proof.Machine

/-- The words that can be read from an address upward, at most `n`. -/
def readableWords (s : State) (a : Nat) : Nat → List Word
  | 0 => []
  | n + 1 => if a < s.cfg.memSize then s.mem.read a :: readableWords s (a + 1) n else []

/-- What the fetch raises where the words do not decode: words beyond `MEM_SIZE` are `AddrRange` (30_encoding.md R82, R87). -/
def faultOfDecode : DecodeError → Fault
  | .unknownOpcode => .unknownOpcode
  | .unknownMode => .unknownMode
  | .truncated => .addrRange

/-- The instruction at PC (30_encoding.md R89): the longest instruction has four words (R80). -/
def fetch (s : State) : Except Fault Instr :=
  match decode s.cfg (readableWords s s.pc.toNat 4) with
  | .ok i => .ok i
  | .error e => .error (faultOfDecode e)

/-- What the loop adds around an instruction's own effect: the phase (60_exceptions.md R259). -/
def afterInstruction : Host.Outcome State Fault Refusal → Host.Outcome State Fault Refusal
  | .next t => .next t.afterExec
  | .fault r => .fault r
  | .refused r => .refused r

/-- The execute step: "fetch, decode and execute one instruction at PC" (60_exceptions.md R259). -/
def executeStep (s : State) : Host.Outcome State Fault Refusal :=
  match fetch s with
  | .ok i => afterInstruction (exec i s)
  | .error r => .next (s.takeFault r)

/-- One step of the core while the run lasts (70_reset_and_hazards.md R295). A waiting core takes no step: the state stays as it
is (log 8). -/
def coreStep (s : State) : Host.Outcome State Fault Refusal :=
  if s.halted then .next s
  else
    match s.phase with
    | .check => checkStep s
    | .exec => executeStep s

/-- A requester's step taken from the schedule (60_exceptions.md R258); a request with more arguments than R251 admits is
refused (log 10). -/
def requestStep (q : Request) (s : State) : Host.Outcome State Fault Refusal :=
  if q.wf then .next (request q s).2 else .refused .requestTooLong

/-- One step of the machine while the run lasts: what the schedule says next, or else the core (log 9). -/
def runningStep (s : State) : Host.Outcome State Fault Refusal :=
  match s.schedule with
  | [] => coreStep s
  | .core :: rest => coreStep { s with schedule := rest }
  | .request q :: rest => requestStep q { s with schedule := rest }

/-- One step of the machine. "Once it is not `Running` the core takes no further step and no later event changes it"
(10_state.md R30): a terminated state stays as it is (log 7), a faulted one answers its fault (log 6). -/
def machineStep (s : State) : Host.Outcome State Fault Refusal :=
  match s.run with
  | .running => runningStep s
  | .terminated _ => .next s
  | .faulted r => .fault r

/-- Put words into memory from an address upward, as the image load does (no write check), where there is memory. -/
def placeWords (c : Config) (m : Memory) (a : Nat) : List Word → Memory
  | [] => m
  | w :: ws => placeWords c (if a < c.memSize then m.write a w else m) (a + 1) ws

/-- The state with the given words at PC, standing before the execute step that fetches them (log 14). -/
def State.placeAtPc (s : State) (ws : List Word) : State :=
  { s with
    mem := placeWords s.cfg s.mem s.pc.toNat ws
    run := .running
    halted := false
    phase := .exec
    schedule := [] }

end Sys2Proof.Machine
end

