-- ==== Sys2Proof/Machine/Step.lean ====
section
/-! DEFINITION. The step of the machine, and the state in which its next step runs a given instruction. -/

namespace Sys2Proof.Machine

/-- One step of the machine (spec/70_reset_and_hazards.md R295). -/
def step : State → Host.Outcome State Fault Refusal := machineStep

/-- The state whose next step fetches and runs the instruction of the bits `w` (log 14). -/
def State.withFetchWord (s : State) (nbits w : Nat) : State := s.placeAtPc (tableWords nbits w)

end Sys2Proof.Machine
end

