-- ==== Sys2Proof/Machine/Image.lean ====
section
/-! DEFINITION. The program image and its load into ROM (spec/20_memory.md R64, R65). -/

namespace Sys2Proof.Machine

/-- Why an image is refused (20_memory.md R65; which reason is named when several hold is the model's, log 19). -/
inductive ImageError where
  /-- "the byte sequence ends inside a block header or inside a block's data" -/
  | truncated
  /-- `o < 0` -/
  | negativeOffset
  /-- `c < 0` -/
  | negativeCount
  /-- `o + c > ROM_SIZE` -/
  | beyondRom
  /-- a 2-byte value exceeds 0xFFF -/
  | notAWord
deriving DecidableEq, Repr

/-- A 4-byte little-endian signed number (R64). -/
def int32 (b0 b1 b2 b3 : Byte) : Int := (b3 ++ b2 ++ b1 ++ b0 : BitVec 32).toInt

/-- Two little-endian bytes (R64). -/
def int16 (b0 b1 : Byte) : Nat := (b1 ++ b0 : BitVec 16).toNat

/-- Store `c` words of a block's data from address `a` upward (R64), through the host: no ROM write check. -/
def loadBlock (a : Nat) : Nat → List Byte → Memory → Except ImageError (List Byte × Memory)
  | 0, bs, m => .ok (bs, m)
  | c + 1, b0 :: b1 :: bs, m =>
    if int16 b0 b1 ≤ 0xFFF then loadBlock (a + 1) c bs (m.write a (BitVec.ofNat 12 (int16 b0 b1)))
    else .error .notAWord
  | _ + 1, [_], _ => .error .truncated
  | _ + 1, [], _ => .error .truncated

/-- Load blocks in file order, "the later one wins" (R64). `fuel` bounds the number of blocks: each takes 8 bytes or more. -/
def loadBlocks (c : Config) : Nat → List Byte → Memory → Except ImageError Memory
  | _, [], m => .ok m
  | fuel + 1, o0 :: o1 :: o2 :: o3 :: c0 :: c1 :: c2 :: c3 :: bs, m =>
    let o := int32 o0 o1 o2 o3
    let n := int32 c0 c1 c2 c3
    if o < 0 then .error .negativeOffset
    else if n < 0 then .error .negativeCount
    else if (c.romSize : Int) < o + n then .error .beyondRom
    else
      match loadBlock (c.romBase + o.toNat) n.toNat bs m with
      | .error e => .error e
      | .ok (rest, m') => loadBlocks c fuel rest m'
  | _, _ :: _, _ => .error .truncated

/-- Load an image into a memory (R64, R65). -/
def loadImage (c : Config) (image : List Byte) (m : Memory) : Except ImageError Memory :=
  loadBlocks c image.length image m

end Sys2Proof.Machine
end

