-- ==== Sys2Proof/Machine/Boot.lean ====
section
/-! DEFINITION. The reset sequence (spec/70_reset_and_hazards.md R290): the image load, then the reset values. -/

namespace Sys2Proof.Machine

/-- The start-up header: "`mem[0]`..`mem[4]`" are 0 (10_state.md R32). -/
def clearHeader (m : Memory) : Memory :=
  ((((m.write 0 0).write 1 0).write 2 0).write 3 0).write 4 0

/-- The reset sequence of R290: (1) the host loads the image into ROM over `INIT_MEM`; "if the load fails no run starts"; (2) the
state takes the reset values of 10_state.md R32. `init` is `INIT_MEM` as a memory: every content of the address space is one. -/
def boot (c : Config) (init : Memory) (image : List Byte) : Except ImageError State :=
  match loadImage c image init with
  | .error e => .error e
  | .ok m => .ok (State.resetWith c (clearHeader m))

end Sys2Proof.Machine
end

