-- ==== Sys2Proof/Machine/Ports.lean ====
section
/-! DEFINITION. The abstract ports that only read (spec/00_scope.md R15 b, c): the status and the observation of a state. -/

namespace Sys2Proof.Machine

/-- The status port: `halted`, "and the end of run with its reason" (R15 b). -/
structure Status where
  halted : Bool
  run : RunState
deriving DecidableEq, Repr

/-- The status of a state (R15 b). -/
def State.status (s : State) : Status := ⟨s.halted, s.run⟩

/-- The observation port: "read-only access to PC/SP/FP/carry/halted" (R15 c). -/
structure Observation where
  pc : Long
  sp : Long
  fp : Long
  carry : Bool
  halted : Bool
deriving DecidableEq, Repr

/-- The registers an observer sees between two steps (R15 c). -/
def State.observe (s : State) : Observation := ⟨s.pc, s.sp, s.fp, s.carry, s.halted⟩

/-- The word an observer reads at an address of "the full memory array" (R15 c); none outside it. -/
def State.observeMem (s : State) (a : Nat) : Option Word := if a < s.cfg.memSize then some (s.mem.read a) else none

end Sys2Proof.Machine
end

