-- ==== Sys2Proof/Safety.lean ====
section
/-! DEFINITION. What the claims speak in: the invariant of the machine and a safe run, the addresses an instruction may use, the
stack as an instruction finds it, the states that the rules give, the frames, and images as blocks. -/

namespace Sys2Proof.Machine

/-! ### The invariant and safe runs -/

/-- The invariant of every run: the configuration is one the spec admits (00_scope.md R6); memory is in its canonical form and
lists no address outside the address space; a pending request has at most 0xFFF words (10_state.md R29); the core waits only
with interrupts enabled, nothing pending, the run going on and the next step a check (45_system.md R242, R243); a run ended by
`hlt` left interrupts disabled, one ended by `Stop` left the slot empty (70_reset_and_hazards.md R300, 60_exceptions.md
R261). -/
abbrev State.Inv (s : State) : Prop :=
  s.cfg.wf ∧ s.mem.wf = true ∧ s.mem.below s.cfg.memSize = true ∧
  (∀ q ∈ s.pending, q.wf) ∧
  (s.halted = true → s.ie = true ∧ s.pending = none ∧ s.run = .running ∧ s.phase = .check) ∧
  (s.run = .terminated .haltDisabled → s.ie = false) ∧
  (s.run = .terminated .stop → s.pending = none)

/-- The run has not met a fatal fault: "a claim about a program takes "no fault" as something to prove" (60_exceptions.md
R270). -/
abbrev State.Safe (s : State) : Prop := ∀ r, s.run ≠ .faulted r

/-! ### Addresses an instruction may use -/

/-- The address exists (20_memory.md R55). -/
abbrev State.readable (s : State) (a : Nat) : Prop := a < s.cfg.memSize

/-- The address exists and is not in ROM (20_memory.md R56). -/
abbrev State.writable (s : State) (a : Nat) : Prop := a < s.cfg.romBase

/-- PC can move on by `n` words (10_state.md R24). -/
abbrev State.canAdvance (s : State) (n : Nat) : Prop := s.pc.toNat + n < addressLimit

/-- `n` words can be pushed (20_memory.md R56, 10_state.md R24). -/
abbrev State.canPush (s : State) (n : Nat) : Prop := s.writable (s.sp.toNat + n) ∧ s.sp.toNat + n < addressLimit

/-- The core is about to execute an instruction, with no request in between (60_exceptions.md R259). -/
abbrev State.executes (s : State) : Prop := s.run = .running ∧ s.halted = false ∧ s.phase = .exec ∧ s.schedule = []

/-- The core is about to look at the pending slot, with no request in between (60_exceptions.md R259). -/
abbrev State.checks (s : State) : Prop := s.run = .running ∧ s.halted = false ∧ s.phase = .check ∧ s.schedule = []

/-- A binary word instruction has its operands and the place of its result (41_alu_word.md R130). -/
abbrev State.binaryWordReady (s : State) : Prop :=
  2 ≤ s.sp.toNat ∧ s.readable s.sp.toNat ∧ s.writable (s.sp.toNat - 1) ∧ s.canAdvance 1

/-- A unary word instruction has its operand and the place of its result (R131). -/
abbrev State.unaryWordReady (s : State) : Prop := 1 ≤ s.sp.toNat ∧ s.writable s.sp.toNat ∧ s.canAdvance 1

/-- A binary long instruction has its operands and the place of its result (42_alu_long.md R160). -/
abbrev State.binaryLongReady (s : State) : Prop :=
  4 ≤ s.sp.toNat ∧ s.readable s.sp.toNat ∧ s.writable (s.sp.toNat - 2) ∧ s.canAdvance 1

/-- A unary long instruction, or `mul2`, has its operand words and the place of its result (R161, R135). -/
abbrev State.unaryLongReady (s : State) : Prop := 2 ≤ s.sp.toNat ∧ s.writable s.sp.toNat ∧ s.canAdvance 1

/-! ### The stack as an instruction finds it -/

/-- The word `n` below the top of the stack (00_scope.md R12). -/
abbrev State.stackWord (s : State) (n : Nat) : Word := s.mem.read (s.sp.toNat - n)

/-- The long on top of the stack: high word deeper (00_scope.md R12). -/
abbrev State.topLong (s : State) : Long := longOf (s.stackWord 1) (s.stackWord 0)

/-- The long under the top long. -/
abbrev State.underLong (s : State) : Long := longOf (s.stackWord 3) (s.stackWord 2)

/-- The `locals` word of the active frame (43_call_return.md R191). -/
abbrev State.localsWord (s : State) : Nat := (s.mem.read (s.fp.toNat + 4)).toNat

/-! ### The states that the rules give -/

/-- After a binary word instruction: the result where the deeper operand was, SP one lower (41_alu_word.md R130). -/
def State.afterBinaryWord (s : State) (r : Word) (c : Bool) : State :=
  { s with mem := s.mem.write (s.sp.toNat - 1) r, sp := s.sp - 1, carry := c, pc := s.pc + 1 }

/-- After a unary word instruction: the result where the operand was (R131). -/
def State.afterUnaryWord (s : State) (r : Word) (c : Bool) : State :=
  { s with mem := s.mem.write s.sp.toNat r, carry := c, pc := s.pc + 1 }

/-- After a binary long instruction: the result where the deeper long was, SP two lower (42_alu_long.md R160). -/
def State.afterBinaryLong (s : State) (r : Long) (c : Bool) : State :=
  { s with
    mem := (s.mem.write (s.sp.toNat - 3) (hiWord r)).write (s.sp.toNat - 2) (loWord r)
    sp := s.sp - 2
    carry := c
    pc := s.pc + 1 }

/-- After a unary long instruction or `mul2`: the result in the two top words (R161, R135). -/
def State.afterUnaryLong (s : State) (r : Long) (c : Bool) : State :=
  { s with
    mem := (s.mem.write (s.sp.toNat - 1) (hiWord r)).write s.sp.toNat (loWord r)
    carry := c
    pc := s.pc + 1 }

/-- After a `jmp` of a mode other than RO that pops `n` words (44_control_transfer.md R211). -/
def State.afterJump (s : State) (n : Nat) (target : Long) (taken : Bool) : State :=
  { s with sp := s.sp - BitVec.ofNat 24 n, pc := if taken then target else s.pc + 4 }

/-! ### Frames -/

/-- Nothing of the control state changes: `IE`, `halted`, `pending`, `missed`, `phase`, and the model's own fields. -/
abbrev State.sameControl (s t : State) : Prop :=
  t.ie = s.ie ∧ t.halted = s.halted ∧ t.pending = s.pending ∧ t.missed = s.missed ∧ t.phase = s.phase ∧
  t.cfg = s.cfg ∧ t.schedule = s.schedule ∧ t.draws = s.draws

/-- The run goes on as it was, or a fatal fault was taken. -/
abbrev State.sameRunOrFault (s t : State) : Prop := t.run = s.run ∨ ∃ r, t.run = .faulted r

/-- The word at an address reads as before. -/
abbrev State.sameAt (s t : State) (a : Nat) : Prop := t.mem.read a = s.mem.read a

/-! ### Images as blocks -/

/-- A block of a program image (20_memory.md R64). -/
structure Block where
  offset : Nat
  words : List Word
deriving DecidableEq, Repr

/-- A number in four little-endian bytes. -/
def bytes32 (n : Nat) : List Byte :=
  [BitVec.ofNat 8 n, BitVec.ofNat 8 (n / 256), BitVec.ofNat 8 (n / 65536), BitVec.ofNat 8 (n / 16777216)]

/-- A word in two little-endian bytes. -/
def bytes16 (w : Word) : List Byte := [BitVec.ofNat 8 w.toNat, BitVec.ofNat 8 (w.toNat / 256)]

/-- The bytes of a block: offset, word count, words (20_memory.md R64). -/
def Block.bytes (b : Block) : List Byte := bytes32 b.offset ++ bytes32 b.words.length ++ b.words.flatMap bytes16

/-- The block lies in ROM, and its two numbers are positive signed ones (20_memory.md R65). -/
abbrev Block.fits (c : Config) (b : Block) : Prop :=
  b.offset + b.words.length ≤ c.romSize ∧ b.offset < 2147483648 ∧ b.words.length < 2147483648

/-- Words stored from an address upward. -/
def storeWords (m : Memory) (a : Nat) : List Word → Memory
  | [] => m
  | w :: ws => storeWords (m.write a w) (a + 1) ws

/-- "word `j` (`0 <= j < c`) is stored at address `ROM_BASE + o + j`" (20_memory.md R64). -/
def Block.store (c : Config) (m : Memory) (b : Block) : Memory := storeWords m (c.romBase + b.offset) b.words

end Sys2Proof.Machine
end

