-- ==== Sys2Proof/Certificates/Slice0/Obligations.lean ====
section
/-! DEFINITION. The statements for the provers. Each docstring names the rule of spec/ it formalises. "The default map" is the
one of spec/30_encoding.md R85 and R86 (log 2). -/

open Sys2Proof Sys2Proof.Machine

/-! ### Encoding -/

/-- 30_encoding.md R80 to R83, R89: under maps that give no number two meanings, decoding the words of an instruction, whatever
words follow, gives the instruction back, with every operand at every value.
It rests on the spec's own decision D15 (log 16). -/
def Obligations.DecodeOfEncodeIsTheInstruction : Prop :=
  ∀ (c : Config) (i : Instr) (rest : List Word), c.mapsWf → i.wf c → decode c (encode c i ++ rest) = .ok i

/-- 30_encoding.md R80 to R83: words that decode are exactly the words of the instruction they decode to, followed by the words
not read: no bit of an encoding is dropped and no two encodings share an instruction. -/
def Obligations.EncodeOfDecodeIsTheWords : Prop :=
  ∀ (c : Config) (i : Instr) (ws : List Word), c.mapsWf → decode c ws = .ok i →
    i.wf c ∧ encode c i ++ ws.drop i.length = ws

/-- 30_encoding.md R81, R85, R86: words of each format, written out from the tables, decode to their instructions.
It rests on the spec's own decisions D1, D2, D15 (log 2, log 16). -/
def Obligations.WrittenOutWordsDecode : Prop :=
  decode testConfig [0b000000010000, 0xABC] = .ok (.loadLit 0xABC) ∧
  decode testConfig [0b000000010011] = .ok .memc ∧
  decode testConfig [0b000000100001] = .ok .sub ∧
  decode testConfig [0b000001000101] = .ok .modL ∧
  decode testConfig [0b000001100000, 0b000000000001, 0x002, 0x03C] = .ok (.jz 0x00203C) ∧
  decode testConfig [0b000001100000, 0b000000001011] = .ok .jro ∧
  decode testConfig [0b000001100000, 0b000000010110, 0xFED, 0xCBA] = .ok (.jlzL 0xFEDCBA) ∧
  decode testConfig [0b000001100001, 0x002, 0x020] = .ok (.call 0x002020) ∧
  decode testConfig [0b000001110010] = .ok .hlt

/-- 30_encoding.md R87: under the default maps the opcode words of no row, and the `jmp` mode words of no row, are exactly those
the rule lists, and each is rejected by its name whatever follows.
It rests on the spec's own decisions D1, D2 (log 2, log 16). -/
def Obligations.IllegalWordsAreRejectedByName : Prop :=
  (∀ (w : Word) (ws : List Word), decode testConfig (w :: ws) = .error .unknownOpcode ↔
    (w.toNat ≤ 0x00F ∨ (0x014 ≤ w.toNat ∧ w.toNat ≤ 0x01F) ∨ (0x02F ≤ w.toNat ∧ w.toNat ≤ 0x03F) ∨ w.toNat = 0x043 ∨
     (0x04D ≤ w.toNat ∧ w.toNat ≤ 0x05F) ∨ (0x065 ≤ w.toNat ∧ w.toNat ≤ 0x06F) ∨ 0x073 ≤ w.toNat)) ∧
  (∀ (m : Word) (ws : List Word), decode testConfig (0x060 :: m :: ws) = .error .unknownMode ↔
    ((0x00C ≤ m.toNat ∧ m.toNat ≤ 0x010) ∨ m.toNat = 0x013 ∨ m.toNat = 0x014 ∨ 0x017 ≤ m.toNat))

/-! ### The loop -/

/-- 70_reset_and_hazards.md R295: where the words from PC upward that exist decode to an instruction, the step is the
instruction's meaning; the phase goes back to Check unless the run ended.
It rests on the spec's own decision D36 (log 16). -/
def Obligations.StepRunsTheDecodedInstruction : Prop :=
  ∀ (s : State) (i : Instr), s.executes → decode s.cfg (readableWords s s.pc.toNat 4) = .ok i →
    step s = afterInstruction (exec i s) ∧
    (∀ t, exec i s = .next t → t.run = .running → step s = .next { t with phase := .check }) ∧
    (∀ t, exec i s = .next t → t.run ≠ .running → step s = .next t)

/-- 30_encoding.md R89, 70_reset_and_hazards.md R295: where memory holds the words of an instruction from PC upward, the step
runs it, in any region and under any maps.
It rests on the spec's own decisions D31, D36 (log 16). -/
def Obligations.StepRunsTheWordsInMemory : Prop :=
  ∀ (s : State) (i : Instr), s.executes → s.cfg.mapsWf → i.wf s.cfg →
    (∀ n (h : n < (encode s.cfg i).length), s.readable (s.pc.toNat + n) ∧ s.mem.read (s.pc.toNat + n) = (encode s.cfg i)[n]) →
    step s = afterInstruction (exec i s)

/-- 30_encoding.md R82, R87, 44_control_transfer.md R228, 20_memory.md R55: what a fetch faults on, each before the instruction
changes any state: no word at PC, an unknown opcode, a `jmp` whose mode word is not there or is unknown, an operand word
that is not there.
It rests on the spec's own decisions D17, D18 (log 16). -/
def Obligations.FetchFaultsChangeNothingElse : Prop :=
  ∀ s : State, s.executes →
    (¬ s.readable s.pc.toNat → step s = .next (s.takeFault .addrRange)) ∧
    (s.readable s.pc.toNat → nameOfWord s.cfg.opcodeMap (s.mem.read s.pc.toNat) = none →
      step s = .next (s.takeFault .unknownOpcode)) ∧
    (s.readable s.pc.toNat → nameOfWord s.cfg.opcodeMap (s.mem.read s.pc.toNat) = some .jmp →
      (¬ s.readable (s.pc.toNat + 1) → step s = .next (s.takeFault .addrRange)) ∧
      (s.readable (s.pc.toNat + 1) → nameOfWord s.cfg.modeMap (s.mem.read (s.pc.toNat + 1)) = none →
        step s = .next (s.takeFault .unknownMode)) ∧
      (∀ m, m ≠ .ro → s.readable (s.pc.toNat + 1) → nameOfWord s.cfg.modeMap (s.mem.read (s.pc.toNat + 1)) = some m →
        ¬ s.readable (s.pc.toNat + 3) → step s = .next (s.takeFault .addrRange))) ∧
    (∀ op ∈ [Opcode.loadLit, Opcode.loadLocal, Opcode.storeLocal], s.readable s.pc.toNat →
      nameOfWord s.cfg.opcodeMap (s.mem.read s.pc.toNat) = some op → ¬ s.readable (s.pc.toNat + 1) →
      step s = .next (s.takeFault .addrRange)) ∧
    (s.readable s.pc.toNat → nameOfWord s.cfg.opcodeMap (s.mem.read s.pc.toNat) = some .call →
      ¬ s.readable (s.pc.toNat + 2) → step s = .next (s.takeFault .addrRange))

/-- 70_reset_and_hazards.md R295: the other steps of the loop. A check with an empty slot goes on to the execute phase; a waiting
core stays as it is. That a terminated state stays as it is and a faulted one answers its fault is the model's choice of how
a stopped machine shows (log 6, log 7, log 8). -/
def Obligations.IdleWaitingAndStoppedSteps : Prop :=
  (∀ s : State, s.checks → s.pending = none → step s = .next { s with phase := .exec }) ∧
  (∀ s : State, s.run = .running → s.halted = true → s.schedule = [] → step s = .next s) ∧
  (∀ (s : State) (r : EndReason), s.run = .terminated r → step s = .next s) ∧
  (∀ (s : State) (r : Fault), s.run = .faulted r → step s = .fault r)

/-! ### Interrupts -/

/-- 60_exceptions.md R252: a request is accepted exactly when `IE` is true and the slot is empty, whatever its type, `Stop`
included; else it is only counted. The last clause is how the model schedules it (log 9).
It rests on the spec's own decisions D23, D28 (log 16). -/
def Obligations.RequestIsTestAndSet : Prop :=
  (∀ (q : Request) (s : State), s.ie = true → s.pending = none →
    request q s = (.accepted, { s with pending := some q, halted := false })) ∧
  (∀ (q : Request) (s : State), ¬ (s.ie = true ∧ s.pending = none) →
    request q s = (.missed, { s with missed := s.missed + 1 })) ∧
  (∀ (q : Request) (rest : List Event) (s : State), s.run = .running → s.schedule = .request q :: rest → q.wf →
    step s = .next (request q { s with schedule := rest }).2)

/-- 60_exceptions.md R253: two requests with nothing between them, with `IE` true and the slot empty before the first, leave
the first one pending and count one as missed.
It rests on the spec's own decisions D23, D28 (log 16). -/
def Obligations.TwoRapidRequestsKeepTheFirst : Prop :=
  ∀ (q q' : Request) (rest : List Event) (s : State), s.run = .running → s.ie = true → s.pending = none → q.wf → q'.wf →
    s.schedule = .request q :: .request q' :: rest →
    ∃ u, step s = .next u ∧
      step u = .next { s with pending := some q, halted := false, missed := s.missed + 1, schedule := rest }

/-- 60_exceptions.md R260: delivery of an ordinary interrupt pushes the arguments, builds the header with the current PC and FP
and the argument count, enters the vector directly and clears the slot; `IE`, `carry`, everything else and every other word
of memory stay.
It rests on the spec's own decisions D23, D37 (log 16). -/
def Obligations.DeliveryBuildsTheFrame : Prop :=
  ∀ (s : State) (vec : Long) (args : List Word), s.checks → s.pending = some ⟨.vector vec, args⟩ → args.length ≤ 0xFFF →
    s.mem.wf = true → s.canPush (args.length + 5) →
    ∃ m, step s = .next { s with
        pc := vec
        fp := s.sp + BitVec.ofNat 24 (args.length + 1)
        sp := s.sp + BitVec.ofNat 24 (args.length + 5)
        pending := none
        phase := .exec
        mem := m } ∧
      (∀ i (h : i < args.length), m.read (s.sp.toNat + 1 + i) = args[i]) ∧
      m.read (s.sp.toNat + args.length + 1) = hiWord s.pc ∧ m.read (s.sp.toNat + args.length + 2) = loWord s.pc ∧
      m.read (s.sp.toNat + args.length + 3) = hiWord s.fp ∧ m.read (s.sp.toNat + args.length + 4) = loWord s.fp ∧
      m.read (s.sp.toNat + args.length + 5) = BitVec.ofNat 12 args.length ∧
      (∀ a, a ≤ s.sp.toNat ∨ s.sp.toNat + args.length + 5 < a → m.read a = s.mem.read a)

/-- 60_exceptions.md R261: delivery of `Stop` clears the slot and ends the run; its arguments are ignored, no frame is built, and
no memory word and no register changes.
It rests on the spec's own decision D35 (log 16). -/
def Obligations.DeliveryOfStopEndsTheRun : Prop :=
  ∀ (s : State) (args : List Word), s.checks → s.pending = some ⟨.stop, args⟩ →
    step s = .next { s with pending := none, run := .terminated .stop }

/-! ### Invariants and rules of the whole machine -/

/-- The invariant `State.Inv` (10_state.md R29, 45_system.md R242, R243, 00_scope.md R6) holds at reset. -/
def Obligations.ResetSatisfiesTheInvariant : Prop := State.reset.Inv

/-- Every step, of the core or of a requester, keeps the invariant, from every state that has it. -/
def Obligations.StepKeepsTheInvariant : Prop :=
  ∀ s t : State, s.Inv → step s = .next t → t.Inv

/-- 20_memory.md R52, R56: ROM "is immutable thereafter": no step, from any state, changes a word at or above `ROM_BASE`, or the
parameters that say where that is. -/
def Obligations.StepNeverChangesRom : Prop :=
  ∀ s t : State, step s = .next t → t.cfg = s.cfg ∧ ∀ a, s.cfg.romBase ≤ a → s.sameAt t a

/-- 10_state.md R27: only `eni` and `dsi` change `IE`: a step that changes it fetched one of the two, whose value it now has; a
delivery or a return does not.
It rests on the spec's own decisions D3, D23 (log 16). -/
def Obligations.OnlyEniAndDsiChangeInterruptEnable : Prop :=
  ∀ s t : State, step s = .next t → t.ie ≠ s.ie →
    s.phase = .exec ∧ ((fetch s = .ok .eni ∧ t.ie = true) ∨ (fetch s = .ok .dsi ∧ t.ie = false))

/-- 10_state.md R25, R26: no instruction but those the table lists changes `carry`, and neither a delivery nor a request does.
It rests on the spec's own decisions D9, D37 (log 16). -/
def Obligations.OnlyAluInstructionsChangeCarry : Prop :=
  (∀ (i : Instr) (s t : State), exec i s = .next t → t.carry ≠ s.carry →
    i ∈ [Instr.add, .sub, .mul, .mul2, .div, .mod, .neg, .not, .inc, .dec, .rotLC, .rotRC,
         .addL, .subL, .mulL, .divL, .modL, .negL, .notL, .incL, .decL]) ∧
  (∀ s t : State, checkStep s = .next t → t.carry = s.carry) ∧
  (∀ (q : Request) (s : State), (request q s).2.carry = s.carry)

/-- 10_state.md R20, R23: of the instructions only `call` and the returns change FP. A delivery, which is no instruction, changes
it too: `DeliveryBuildsTheFrame` says how. -/
def Obligations.OfInstructionsOnlyCallAndReturnsChangeFp : Prop :=
  ∀ (i : Instr) (s t : State), exec i s = .next t → t.fp ≠ s.fp →
    (∃ target, i = .call target) ∨ i = .ret ∨ i = .ret1 ∨ i = .ret2

/-! ### Memory access and faults -/

/-- 20_memory.md R55, R56: the read check and the write check of one word, in the rule's order, and what each gives when it
passes; a write that fails leaves the state, and so every cell, as it was. Fetch is checked too: no word at or above
`MEM_SIZE` is fetched.
It rests on the spec's own decision D17 (log 16). -/
def Obligations.AccessChecks : Prop :=
  (∀ (a : Int) (s : State), memRead a s =
    if a < 0 ∨ a ≥ s.cfg.memSize then .error .addrRange s else .ok (s.mem.read a.toNat) s) ∧
  (∀ (a : Int) (w : Word) (s : State), memWrite a w s =
    if a < 0 ∨ a ≥ s.cfg.memSize then .error .addrRange s
    else if a ≥ s.cfg.romBase then .error .romWrite s
    else .ok () { s with mem := s.mem.write a.toNat w }) ∧
  (∀ s : State, s.cfg.memSize ≤ s.pc.toNat → fetch s = .error .addrRange)

/-- 41_alu_word.md R130: the faults of a binary word instruction, by where SP stands.
It rests on the spec's own decisions D5, D16, D17 (log 16). -/
def Obligations.BinaryWordFaults : Prop :=
  ∀ i ∈ [Instr.add, .sub, .mul, .div, .mod, .or, .xor, .and], ∀ s : State,
    (¬ s.readable s.sp.toNat → exec i s = .next (s.takeFault .addrRange)) ∧
    (s.readable s.sp.toNat → s.sp.toNat = 0 → exec i s = .next (s.takeFault .regRange)) ∧
    (s.readable s.sp.toNat → s.sp.toNat = 1 → exec i s = .next (State.takeFault { s with sp := 0 } .regRange)) ∧
    (s.readable s.sp.toNat → 2 ≤ s.sp.toNat → ¬ s.writable (s.sp.toNat - 1) →
      (i = .div ∨ i = .mod → s.stackWord 0 ≠ 0) → exec i s = .next (State.takeFault { s with sp := s.sp - 1 } .romWrite))

/-- 41_alu_word.md R136, R137, 42_alu_long.md R165, R166: a zero divisor is fatal, after the operands are popped and before
anything is written.
It rests on the spec's own decision D11 (log 15). -/
def Obligations.DivisionByZeroIsFatal : Prop :=
  (∀ i ∈ [Instr.div, .mod], ∀ s : State, 2 ≤ s.sp.toNat → s.readable s.sp.toNat → s.stackWord 0 = 0 →
    exec i s = .next (State.takeFault { s with sp := s.sp - 2 } .divideByZero)) ∧
  (∀ i ∈ [Instr.divL, .modL], ∀ s : State, 4 ≤ s.sp.toNat → s.readable s.sp.toNat → s.topLong = 0 →
    exec i s = .next (State.takeFault { s with sp := s.sp - 4 } .divideByZero))

/-- 10_state.md R36: in a frame at `FP = 0` with zero locals, as after reset, `load_local k` reads `mem[k]` and a return is the
fault `RegRange`.
It rests on the spec's own decision D16 (log 16). -/
def Obligations.StartUpFrame : Prop :=
  ∀ s : State, s.fp = 0 → s.readable 4 → s.mem.read 4 = 0 →
    (∀ k : Word, s.readable k.toNat → s.canPush 1 → s.canAdvance 2 →
      exec (.loadLocal k) s =
        .next { s with mem := s.mem.write (s.sp.toNat + 1) (s.mem.read k.toNat), sp := s.sp + 1, pc := s.pc + 2 }) ∧
    exec .ret s = .next (s.takeFault .regRange) ∧
    (s.readable s.sp.toNat → exec .ret1 s = .next (s.takeFault .regRange)) ∧
    (s.readable s.sp.toNat → 1 ≤ s.sp.toNat → exec .ret2 s = .next (s.takeFault .regRange))

/-! ### Word ALU -/

/-- 41_alu_word.md R132: `add`. -/
def Obligations.AddResult : Prop :=
  encode testConfig .add = [0x020] ∧
  ∀ s : State, s.binaryWordReady →
    exec .add s = .next (s.afterBinaryWord (s.stackWord 1 + s.stackWord 0)
      (decide ((s.stackWord 1).toNat + (s.stackWord 0).toNat > 0xFFF)))

/-- 41_alu_word.md R133: `sub` is the deeper word minus the top, and always leaves carry false.
It rests on the spec's own decisions D5, D7 (log 16). -/
def Obligations.SubResult : Prop :=
  encode testConfig .sub = [0x021] ∧
  ∀ s : State, s.binaryWordReady → exec .sub s = .next (s.afterBinaryWord (s.stackWord 1 - s.stackWord 0) false)

/-- 41_alu_word.md R134: `mul` keeps the low word of the unsigned product. -/
def Obligations.MulResult : Prop :=
  encode testConfig .mul = [0x022] ∧
  ∀ s : State, s.binaryWordReady →
    exec .mul s = .next (s.afterBinaryWord (s.stackWord 1 * s.stackWord 0)
      (decide ((s.stackWord 1).toNat * (s.stackWord 0).toNat > 0xFFF)))

/-- 41_alu_word.md R135: `mul2` gives the whole product, high word where the deeper operand was, and always leaves carry false.
It rests on the spec's own decision D13 (log 16). -/
def Obligations.Mul2Result : Prop :=
  encode testConfig .mul2 = [0x023] ∧
  ∀ s : State, s.unaryLongReady →
    exec .mul2 s = .next (s.afterUnaryLong (BitVec.ofNat 24 ((s.stackWord 1).toNat * (s.stackWord 0).toNat)) false)

/-- 41_alu_word.md R136, R137: the unsigned quotient and remainder of the deeper word by the top, carry false.
It rests on the spec's own decisions D5, D10 (log 16). -/
def Obligations.DivModResults : Prop :=
  encode testConfig .div = [0x024] ∧ encode testConfig .mod = [0x025] ∧
  ∀ s : State, s.binaryWordReady → s.stackWord 0 ≠ 0 →
    exec .div s = .next (s.afterBinaryWord (s.stackWord 1 / s.stackWord 0) false) ∧
    exec .mod s = .next (s.afterBinaryWord (s.stackWord 1 % s.stackWord 0) false)

/-- 41_alu_word.md R138 to R141: `neg`, `not`, `inc`, `dec`.
It rests on the spec's own decisions D8, D9 (log 16). -/
def Obligations.UnaryWordResults : Prop :=
  encode testConfig .neg = [0x026] ∧ encode testConfig .not = [0x027] ∧
  encode testConfig .inc = [0x028] ∧ encode testConfig .dec = [0x029] ∧
  ∀ s : State, s.unaryWordReady →
    exec .neg s = .next (s.afterUnaryWord (-(s.stackWord 0)) (decide (s.stackWord 0 ≠ 0))) ∧
    exec .not s = .next (s.afterUnaryWord (~~~(s.stackWord 0)) false) ∧
    exec .inc s = .next (s.afterUnaryWord (s.stackWord 0 + 1) (decide (s.stackWord 0 = 0xFFF))) ∧
    exec .dec s = .next (s.afterUnaryWord (s.stackWord 0 - 1) (decide (s.stackWord 0 = 0)))

/-- 41_alu_word.md R142 to R144: `or`, `xor`, `and`; carry is as it was. -/
def Obligations.BitwiseWordResults : Prop :=
  encode testConfig .or = [0x02A] ∧ encode testConfig .xor = [0x02B] ∧ encode testConfig .and = [0x02C] ∧
  ∀ s : State, s.binaryWordReady →
    exec .or s = .next (s.afterBinaryWord (s.stackWord 1 ||| s.stackWord 0) s.carry) ∧
    exec .xor s = .next (s.afterBinaryWord (s.stackWord 1 ^^^ s.stackWord 0) s.carry) ∧
    exec .and s = .next (s.afterBinaryWord (s.stackWord 1 &&& s.stackWord 0) s.carry)

/-- 41_alu_word.md R145, R146: each rotate is the rotation by one place of the 13 bits made of carry and the word.
It rests on the spec's own decision D12 (log 16). -/
def Obligations.RotateResults : Prop :=
  encode testConfig .rotLC = [0x02D] ∧ encode testConfig .rotRC = [0x02E] ∧
  ∀ s : State, s.unaryWordReady →
    (∃ (r : Word) (c : Bool), exec .rotLC s = .next (s.afterUnaryWord r c) ∧
      (BitVec.ofBool c ++ r : BitVec 13) = (BitVec.ofBool s.carry ++ s.stackWord 0 : BitVec 13).rotateLeft 1) ∧
    (∃ (r : Word) (c : Bool), exec .rotRC s = .next (s.afterUnaryWord r c) ∧
      (r ++ BitVec.ofBool c : BitVec 13) = (s.stackWord 0 ++ BitVec.ofBool s.carry : BitVec 13).rotateRight 1)

/-! ### Long ALU -/

/-- 42_alu_long.md R162 to R164: `add_l`, `sub_l`, `mul_l` on the composed 24-bit values.
It rests on the spec's own decisions D4, D5, D6, D7 (log 16). -/
def Obligations.LongArithmeticResults : Prop :=
  encode testConfig .addL = [0x040] ∧ encode testConfig .subL = [0x041] ∧ encode testConfig .mulL = [0x042] ∧
  ∀ s : State, s.binaryLongReady →
    exec .addL s = .next (s.afterBinaryLong (s.underLong + s.topLong)
      (decide (s.underLong.toNat + s.topLong.toNat > 0xFFFFFF))) ∧
    exec .subL s = .next (s.afterBinaryLong (s.underLong - s.topLong) false) ∧
    exec .mulL s = .next (s.afterBinaryLong (s.underLong * s.topLong)
      (decide (s.underLong.toNat * s.topLong.toNat > 0xFFFFFF)))

/-- 42_alu_long.md R165, R166: `div_l`, `mod_l`.
It rests on the spec's own decisions D4, D5, D6, D10 (log 16). -/
def Obligations.LongDivModResults : Prop :=
  encode testConfig .divL = [0x044] ∧ encode testConfig .modL = [0x045] ∧
  ∀ s : State, s.binaryLongReady → s.topLong ≠ 0 →
    exec .divL s = .next (s.afterBinaryLong (s.underLong / s.topLong) false) ∧
    exec .modL s = .next (s.afterBinaryLong (s.underLong % s.topLong) false)

/-- 42_alu_long.md R167 to R170: `neg_l`, `not_l`, `inc_l`, `dec_l`.
It rests on the spec's own decisions D4, D6, D8, D9 (log 16). -/
def Obligations.UnaryLongResults : Prop :=
  encode testConfig .negL = [0x046] ∧ encode testConfig .notL = [0x047] ∧
  encode testConfig .incL = [0x048] ∧ encode testConfig .decL = [0x049] ∧
  ∀ s : State, s.unaryLongReady →
    exec .negL s = .next (s.afterUnaryLong (-s.topLong) (decide (s.topLong ≠ 0))) ∧
    exec .notL s = .next (s.afterUnaryLong (~~~s.topLong) false) ∧
    exec .incL s = .next (s.afterUnaryLong (s.topLong + 1) (decide (s.topLong = 0xFFFFFF))) ∧
    exec .decL s = .next (s.afterUnaryLong (s.topLong - 1) (decide (s.topLong = 0)))

/-- 42_alu_long.md R171 to R173: `or_l`, `xor_l`, `and_l` are the word operations on the high and on the low halves; carry is as
it was.
It rests on the spec's own decisions D4, D6 (log 16). -/
def Obligations.BitwiseLongResults : Prop :=
  encode testConfig .orL = [0x04A] ∧ encode testConfig .xorL = [0x04B] ∧ encode testConfig .andL = [0x04C] ∧
  ∀ s : State, s.binaryLongReady →
    exec .orL s = .next (s.afterBinaryLong
      (longOf (s.stackWord 3 ||| s.stackWord 1) (s.stackWord 2 ||| s.stackWord 0)) s.carry) ∧
    exec .xorL s = .next (s.afterBinaryLong
      (longOf (s.stackWord 3 ^^^ s.stackWord 1) (s.stackWord 2 ^^^ s.stackWord 0)) s.carry) ∧
    exec .andL s = .next (s.afterBinaryLong
      (longOf (s.stackWord 3 &&& s.stackWord 1) (s.stackWord 2 &&& s.stackWord 0)) s.carry)

/-! ### Jumps -/

/-- 44_control_transfer.md R212, R215, R216: the modes JMP, C, CZ pop nothing; C and CZ read carry and leave it. -/
def Obligations.JumpsThatPopNothing : Prop :=
  ∀ (s : State) (target : Long),
    (∀ p ∈ [(Instr.jmp target, (0x000 : Word)), (.jc target, 0x003), (.jcz target, 0x004)],
      encode testConfig p.1 = [0x060, p.2, hiWord target, loWord target]) ∧
    ∀ p ∈ [(Instr.jmp target, true), (.jc target, s.carry), (.jcz target, !s.carry)],
      (p.2 = false → s.canAdvance 4) → exec p.1 s = .next (s.afterJump 0 target p.2)

/-- 44_control_transfer.md R213, R214, R217 to R220: the modes Z, NZ, GZ, LZ, GE, LE pop one word, taken or not, and test it,
signed where the rule says so. -/
def Obligations.JumpsOnOneWord : Prop :=
  ∀ (s : State) (target : Long),
    (∀ p ∈ [(Instr.jz target, (0x001 : Word)), (.jnz target, 0x002), (.jgz target, 0x005), (.jlz target, 0x006),
            (.jge target, 0x007), (.jle target, 0x008)],
      encode testConfig p.1 = [0x060, p.2, hiWord target, loWord target]) ∧
    (1 ≤ s.sp.toNat → s.readable s.sp.toNat →
    ∀ p ∈ [(Instr.jz target, decide (s.stackWord 0 = 0)), (.jnz target, decide (s.stackWord 0 ≠ 0)),
           (.jgz target, decide (0 < (s.stackWord 0).toInt)), (.jlz target, decide ((s.stackWord 0).toInt < 0)),
           (.jge target, decide (0 ≤ (s.stackWord 0).toInt)), (.jle target, decide ((s.stackWord 0).toInt ≤ 0))],
      (p.2 = false → s.canAdvance 4) → exec p.1 s = .next (s.afterJump 1 target p.2))

/-- 44_control_transfer.md R221, R222: the modes EQ and NEQ pop two words, taken or not. -/
def Obligations.JumpsOnTwoWords : Prop :=
  ∀ (s : State) (target : Long),
    (∀ p ∈ [(Instr.jeq target, (0x009 : Word)), (.jneq target, 0x00A)],
      encode testConfig p.1 = [0x060, p.2, hiWord target, loWord target]) ∧
    (2 ≤ s.sp.toNat → s.readable s.sp.toNat →
    ∀ p ∈ [(Instr.jeq target, decide (s.stackWord 1 = s.stackWord 0)),
           (.jneq target, decide (s.stackWord 1 ≠ s.stackWord 0))],
      (p.2 = false → s.canAdvance 4) → exec p.1 s = .next (s.afterJump 2 target p.2))

/-- 44_control_transfer.md R224 to R227: the long modes pop two words, high word deeper, and test the long.
It rests on the spec's own decisions D4, D6 (log 16). -/
def Obligations.JumpsOnOneLong : Prop :=
  ∀ (s : State) (target : Long),
    (∀ p ∈ [(Instr.jzL target, (0x011 : Word)), (.jnzL target, 0x012), (.jgzL target, 0x015), (.jlzL target, 0x016)],
      encode testConfig p.1 = [0x060, p.2, hiWord target, loWord target]) ∧
    (2 ≤ s.sp.toNat → s.readable s.sp.toNat →
    ∀ p ∈ [(Instr.jzL target, decide (s.topLong = 0)), (.jnzL target, decide (s.topLong ≠ 0)),
           (.jgzL target, decide (0 < s.topLong.toInt)), (.jlzL target, decide (s.topLong.toInt < 0))],
      (p.2 = false → s.canAdvance 4) → exec p.1 s = .next (s.afterJump 2 target p.2))

/-- 44_control_transfer.md R223: mode RO pops a signed word and adds it to the address after the two-word instruction; a sum
outside the register range is the fault `RegRange`.
It rests on the spec's own decisions D16, D18 (log 16). -/
def Obligations.RelativeJumpResult : Prop :=
  encode testConfig .jro = [0x060, 0x00B] ∧
  ∀ s : State, 1 ≤ s.sp.toNat → s.readable s.sp.toNat →
    (0 ≤ (s.pc.toNat : Int) + 2 + (s.stackWord 0).toInt ∧ (s.pc.toNat : Int) + 2 + (s.stackWord 0).toInt ≤ 0xFFFFFF →
      exec .jro s = .next { s with sp := s.sp - 1, pc := s.pc + 2 + (s.stackWord 0).signExtend 24 }) ∧
    (¬ (0 ≤ (s.pc.toNat : Int) + 2 + (s.stackWord 0).toInt ∧ (s.pc.toNat : Int) + 2 + (s.stackWord 0).toInt ≤ 0xFFFFFF) →
      exec .jro s = .next (State.takeFault { s with sp := s.sp - 1 } .regRange))

/-! ### Stack, locals, block copy -/

/-- 40_stack_memory.md R110: `load_lit k` pushes `k` as it is; its faults by where SP stands.
It rests on the spec's own decisions D3, D15, D16 (log 16). -/
def Obligations.LoadLiteralResult : Prop :=
  ∀ (s : State) (k : Word),
    encode testConfig (.loadLit k) = [0x010, k] ∧
    (s.canPush 1 → s.canAdvance 2 →
      exec (.loadLit k) s = .next { s with mem := s.mem.write (s.sp.toNat + 1) k, sp := s.sp + 1, pc := s.pc + 2 }) ∧
    (addressLimit ≤ s.sp.toNat + 1 → exec (.loadLit k) s = .next (s.takeFault .regRange)) ∧
    (s.sp.toNat + 1 < addressLimit → ¬ s.readable (s.sp.toNat + 1) →
      exec (.loadLit k) s = .next (State.takeFault { s with sp := s.sp + 1 } .addrRange)) ∧
    (s.sp.toNat + 1 < addressLimit → s.readable (s.sp.toNat + 1) → ¬ s.writable (s.sp.toNat + 1) →
      exec (.loadLit k) s = .next (State.takeFault { s with sp := s.sp + 1 } .romWrite))

/-- 40_stack_memory.md R111, R112: `load_local k` pushes the word at `FP - mem[FP + 4] + k`; `k` is not checked against the locals.
A base below 0 is the fault `RegRange`.
It rests on the spec's own decisions D15, D16 (log 16). -/
def Obligations.LoadLocalResult : Prop :=
  ∀ (s : State) (k : Word), s.readable (s.fp.toNat + 4) →
    (s.localsWord ≤ s.fp.toNat → s.readable (s.fp.toNat - s.localsWord + k.toNat) → s.canPush 1 → s.canAdvance 2 →
      exec (.loadLocal k) s = .next { s with
        mem := s.mem.write (s.sp.toNat + 1) (s.mem.read (s.fp.toNat - s.localsWord + k.toNat))
        sp := s.sp + 1
        pc := s.pc + 2 }) ∧
    (s.fp.toNat < s.localsWord → exec (.loadLocal k) s = .next (s.takeFault .regRange))

/-- 40_stack_memory.md R111, R113: `store_local k` pops the top word into `FP - mem[FP + 4] + k`, the base computed before the pop;
nothing guards the frame header.
It rests on the spec's own decisions D15, D16 (log 16). -/
def Obligations.StoreLocalResult : Prop :=
  ∀ (s : State) (k : Word), s.readable (s.fp.toNat + 4) →
    (s.localsWord ≤ s.fp.toNat → 1 ≤ s.sp.toNat → s.readable s.sp.toNat →
      s.writable (s.fp.toNat - s.localsWord + k.toNat) → s.canAdvance 2 →
      exec (.storeLocal k) s = .next { s with
        mem := s.mem.write (s.fp.toNat - s.localsWord + k.toNat) (s.stackWord 0)
        sp := s.sp - 1
        pc := s.pc + 2 }) ∧
    (s.fp.toNat < s.localsWord → exec (.storeLocal k) s = .next (s.takeFault .regRange))

/-- 40_stack_memory.md R114, 20_memory.md R69: `memc` copies `len` words upward, one at a time; with the destination above the
source inside the block "the first `dst - src` words repeat through the destination"; every other word stays.
It rests on the spec's own decisions D6, D14 (log 16). -/
def Obligations.BlockCopyResult : Prop :=
  ∀ (s : State) (src dst len : Nat), s.mem.wf = true → 6 ≤ s.sp.toNat → s.readable s.sp.toNat → s.canAdvance 1 →
    len = s.topLong.toNat → dst = s.underLong.toNat → src = (longOf (s.stackWord 5) (s.stackWord 4)).toNat →
    (len = 0 ∨ (src + len ≤ s.cfg.memSize ∧ dst + len ≤ s.cfg.romBase)) →
    ∃ m, exec .memc s = .next { s with mem := m, sp := s.sp - 6, pc := s.pc + 1 } ∧
      (∀ i < len, m.read (dst + i) = s.mem.read (src + (if src < dst then i % (dst - src) else i))) ∧
      (∀ a, a < dst ∨ dst + len ≤ a → m.read a = s.mem.read a)

/-! ### Call and return -/

/-- 43_call_return.md R192 to R194: `call` reads the routine header, reserves the other locals without writing them (fewer locals
than parameters is the same arithmetic), builds the five header words and jumps past the routine header. Where PC + 3 is no
24-bit value the return address is free (log 12).
It rests on the spec's own decisions D29, D30 (log 16). -/
def Obligations.CallResult : Prop :=
  ∀ (s : State) (target : Long) (params locals base : Nat), s.mem.wf = true → s.readable (target.toNat + 1) →
    params = (s.mem.read target.toNat).toNat → locals = (s.mem.read (target.toNat + 1)).toNat →
    s.sp.toNat + locals = base + params → s.writable (base + 5) → base + 5 < addressLimit →
    target.toNat + 2 < addressLimit →
    ∃ (m : Memory) (ra : Long) (d : Nat),
      exec (.call target) s = .next { s with
        pc := target + 2
        fp := BitVec.ofNat 24 (base + 1)
        sp := BitVec.ofNat 24 (base + 5)
        mem := m
        draws := d } ∧
      (s.canAdvance 3 → ra = s.pc + 3 ∧ d = s.draws) ∧
      m.read (base + 1) = hiWord ra ∧ m.read (base + 2) = loWord ra ∧
      m.read (base + 3) = hiWord s.fp ∧ m.read (base + 4) = loWord s.fp ∧
      m.read (base + 5) = BitVec.ofNat 12 locals ∧
      (∀ a, a ≤ base ∨ base + 5 < a → m.read a = s.mem.read a)

/-- 43_call_return.md R195: `ret`, with its two faults; it reads the header at the old FP and writes no word of memory. -/
def Obligations.ReturnResult : Prop :=
  encode testConfig .ret = [0x062] ∧
  ∀ s : State,
    (s.readable (s.fp.toNat + 4) → s.localsWord + 1 ≤ s.fp.toNat →
      exec .ret s = .next { s with
        sp := BitVec.ofNat 24 (s.fp.toNat - 1 - s.localsWord)
        pc := longOf (s.mem.read s.fp.toNat) (s.mem.read (s.fp.toNat + 1))
        fp := longOf (s.mem.read (s.fp.toNat + 2)) (s.mem.read (s.fp.toNat + 3)) }) ∧
    (¬ s.readable (s.fp.toNat + 4) → exec .ret s = .next (s.takeFault .addrRange)) ∧
    (s.readable (s.fp.toNat + 4) → s.fp.toNat < s.localsWord + 1 → exec .ret s = .next (s.takeFault .regRange))

/-- 43_call_return.md R196, R197: `ret1` and `ret2` are `ret` with the top one or two words saved before and pushed after, in the same
order.
It rests on the spec's own decision D19 (log 16). -/
def Obligations.ReturnWithResultWords : Prop :=
  encode testConfig .ret1 = [0x063] ∧ encode testConfig .ret2 = [0x064] ∧
  ∀ s : State, s.readable (s.fp.toNat + 4) → s.localsWord + 1 ≤ s.fp.toNat → s.readable s.sp.toNat →
    (s.writable (s.fp.toNat - s.localsWord) →
      exec .ret1 s = .next { s with
        mem := s.mem.write (s.fp.toNat - s.localsWord) (s.stackWord 0)
        sp := BitVec.ofNat 24 (s.fp.toNat - s.localsWord)
        pc := longOf (s.mem.read s.fp.toNat) (s.mem.read (s.fp.toNat + 1))
        fp := longOf (s.mem.read (s.fp.toNat + 2)) (s.mem.read (s.fp.toNat + 3)) }) ∧
    (1 ≤ s.sp.toNat → s.writable (s.fp.toNat - s.localsWord + 1) → s.fp.toNat - s.localsWord + 1 < addressLimit →
      exec .ret2 s = .next { s with
        mem := (s.mem.write (s.fp.toNat - s.localsWord) (s.stackWord 1)).write (s.fp.toNat - s.localsWord + 1) (s.stackWord 0)
        sp := BitVec.ofNat 24 (s.fp.toNat - s.localsWord + 1)
        pc := longOf (s.mem.read s.fp.toNat) (s.mem.read (s.fp.toNat + 1))
        fp := longOf (s.mem.read (s.fp.toNat + 2)) (s.mem.read (s.fp.toNat + 3)) })

/-- 43_call_return.md R198: the round trip. A `call` of a routine with at least as many locals as parameters, then at once `ret`:
FP is as before, PC is the word after the call, SP is lower by the parameters, no word at or below that SP changed. -/
def Obligations.CallThenReturnRoundTrip : Prop :=
  ∀ (s t : State) (target : Long), s.mem.wf = true → s.canAdvance 3 →
    (s.mem.read target.toNat).toNat ≤ (s.mem.read (target.toNat + 1)).toNat →
    (s.mem.read target.toNat).toNat ≤ s.sp.toNat →
    exec (.call target) s = .next t → t.run = .running →
    ∃ u, exec .ret t = .next u ∧ u.run = .running ∧ u.fp = s.fp ∧ u.pc = s.pc + 3 ∧
      u.sp.toNat + (s.mem.read target.toNat).toNat = s.sp.toNat ∧ u.carry = s.carry ∧
      ∀ a, a ≤ u.sp.toNat → s.sameAt u a

/-! ### System -/

/-- 45_system.md R240, R241: `eni` and `dsi` write `IE` and advance PC, and that is all; at the top of the register range the
advance is the fault `RegRange` (10_state.md R24; log 20).
It rests on the spec's own decisions D3, D16, D34 (log 16). -/
def Obligations.EnableAndDisable : Prop :=
  encode testConfig .eni = [0x070] ∧ encode testConfig .dsi = [0x071] ∧
  ∀ s : State,
    (s.canAdvance 1 → exec .eni s = .next { s with ie := true, pc := s.pc + 1 } ∧
      exec .dsi s = .next { s with ie := false, pc := s.pc + 1 }) ∧
    (¬ s.canAdvance 1 → exec .eni s = .next (State.takeFault { s with ie := true } .regRange) ∧
      exec .dsi s = .next (State.takeFault { s with ie := false } .regRange))

/-- 45_system.md R242: `hlt` with interrupts enabled advances PC and waits, unless the pending slot is occupied.
It rests on the spec's own decision D24 (log 16). -/
def Obligations.HaltWaitsWhenEnabled : Prop :=
  encode testConfig .hlt = [0x072] ∧
  ∀ s : State, s.ie = true → s.canAdvance 1 →
    (s.pending = none → exec .hlt s = .next { s with pc := s.pc + 1, halted := true }) ∧
    (s.pending ≠ none → exec .hlt s = .next { s with pc := s.pc + 1 })

/-- 45_system.md R242, 70_reset_and_hazards.md R300: `hlt` with interrupts disabled ends the run; all is as the last completed
instruction left it but PC, which is the address of the `hlt` or the one after it, and which of the two is free (log 11).
It rests on the spec's own decision D25 (log 16). -/
def Obligations.HaltEndsTheRunWhenDisabled : Prop :=
  ∀ s : State, s.ie = false →
    ∃ (pc : Long) (d : Nat), exec .hlt s = .next { s with run := .terminated .haltDisabled, pc := pc, draws := d } ∧
      (pc = s.pc ∨ (s.canAdvance 1 ∧ pc = s.pc + 1))

/-! ### Frames -/

/-- The frame of the word ALU (41_alu_word.md R130, R131, R135, 10_state.md R25): whatever the outcome, FP and the control state
stay, `or`, `xor`, `and` leave carry, and every word of memory stays but the result's: the one at `SP - 1` for a binary
instruction, at `SP` for a unary one, at `SP - 1` and `SP` for `mul2`. -/
def Obligations.WordAluFrame : Prop :=
  (∀ i ∈ [Instr.add, .sub, .mul, .div, .mod, .or, .xor, .and], ∀ s t : State, exec i s = .next t →
    t.fp = s.fp ∧ s.sameControl t ∧ s.sameRunOrFault t ∧ ∀ a, a + 1 ≠ s.sp.toNat → s.sameAt t a) ∧
  (∀ i ∈ [Instr.or, .xor, .and], ∀ s t : State, exec i s = .next t → t.carry = s.carry) ∧
  (∀ i ∈ [Instr.neg, .not, .inc, .dec, .rotLC, .rotRC], ∀ s t : State, exec i s = .next t →
    t.fp = s.fp ∧ s.sameControl t ∧ s.sameRunOrFault t ∧ ∀ a, a ≠ s.sp.toNat → s.sameAt t a) ∧
  (∀ s t : State, exec .mul2 s = .next t →
    t.fp = s.fp ∧ s.sameControl t ∧ s.sameRunOrFault t ∧ ∀ a, a ≠ s.sp.toNat → a + 1 ≠ s.sp.toNat → s.sameAt t a)

/-- The frame of the long ALU (42_alu_long.md R160, R161): the stored words are at `SP - 3` and `SP - 2` for a binary instruction, at
`SP - 1` and `SP` for a unary one. -/
def Obligations.LongAluFrame : Prop :=
  (∀ i ∈ [Instr.addL, .subL, .mulL, .divL, .modL, .orL, .xorL, .andL], ∀ s t : State, exec i s = .next t →
    t.fp = s.fp ∧ s.sameControl t ∧ s.sameRunOrFault t ∧ ∀ a, a + 3 ≠ s.sp.toNat → a + 2 ≠ s.sp.toNat → s.sameAt t a) ∧
  (∀ i ∈ [Instr.orL, .xorL, .andL], ∀ s t : State, exec i s = .next t → t.carry = s.carry) ∧
  (∀ i ∈ [Instr.negL, .notL, .incL, .decL], ∀ s t : State, exec i s = .next t →
    t.fp = s.fp ∧ s.sameControl t ∧ s.sameRunOrFault t ∧ ∀ a, a + 1 ≠ s.sp.toNat → a ≠ s.sp.toNat → s.sameAt t a)

/-- The frame of the jumps (44_control_transfer.md R211, R223): no word of memory, no flag, no control state; only SP and PC. -/
def Obligations.JumpFrame : Prop :=
  ∀ (target : Long), ∀ i ∈ [Instr.jmp target, .jz target, .jnz target, .jc target, .jcz target, .jgz target, .jlz target,
      .jge target, .jle target, .jeq target, .jneq target, .jro, .jzL target, .jnzL target, .jgzL target, .jlzL target],
    ∀ s t : State, exec i s = .next t →
      t.fp = s.fp ∧ t.carry = s.carry ∧ s.sameControl t ∧ s.sameRunOrFault t ∧ ∀ a, s.sameAt t a

/-- The frame of the stack and local-variable instructions (40_stack_memory.md R110, R112, R113): the loads store at `SP + 1`;
`store_local` stores at the base that `fpLoc` gives plus `k`, and nowhere where `fpLoc` faults. -/
def Obligations.LoadStoreFrame : Prop :=
  (∀ k : Word, ∀ i ∈ [Instr.loadLit k, .loadLocal k], ∀ s t : State, exec i s = .next t →
    t.fp = s.fp ∧ t.carry = s.carry ∧ s.sameControl t ∧ s.sameRunOrFault t ∧
    ∀ a, a ≠ s.sp.toNat + 1 → s.sameAt t a) ∧
  (∀ (k : Word) (s t : State), exec (.storeLocal k) s = .next t →
    t.fp = s.fp ∧ t.carry = s.carry ∧ s.sameControl t ∧ s.sameRunOrFault t ∧
    (∀ base u, fpLoc s = .ok base u → ∀ a, a ≠ base + k.toNat → s.sameAt t a) ∧
    (∀ r u, fpLoc s = .error r u → ∀ a, s.sameAt t a))

/-- The frame of `memc` (40_stack_memory.md R114): every word outside the destination block stays, also where the copy faults
halfway. -/
def Obligations.BlockCopyFrame : Prop :=
  ∀ s t : State, exec .memc s = .next t →
    t.fp = s.fp ∧ t.carry = s.carry ∧ s.sameControl t ∧ s.sameRunOrFault t ∧
    ∀ a, a < s.underLong.toNat ∨ s.underLong.toNat + s.topLong.toNat ≤ a → s.sameAt t a

/-- The frame of `call` and of the returns (43_call_return.md R193, R195 to R197): the stored words are the five of the header, at
the new FP upward; none for `ret`; those at `FP - locals` upward for `ret1` and `ret2`. -/
def Obligations.CallReturnFrame : Prop :=
  (∀ (target : Long) (s t : State), exec (.call target) s = .next t →
    t.carry = s.carry ∧ t.ie = s.ie ∧ t.halted = s.halted ∧ t.pending = s.pending ∧ t.missed = s.missed ∧
    t.phase = s.phase ∧ t.cfg = s.cfg ∧ t.schedule = s.schedule ∧ (s.canAdvance 3 → t.draws = s.draws) ∧
    s.sameRunOrFault t ∧
    ∀ a base : Nat, s.sp.toNat + (s.mem.read (target.toNat + 1)).toNat = base + (s.mem.read target.toNat).toNat →
      a ≤ base ∨ base + 5 < a → s.sameAt t a) ∧
  (∀ (target : Long) (s t : State), exec (.call target) s = .next t →
    s.sp.toNat + (s.mem.read (target.toNat + 1)).toNat < (s.mem.read target.toNat).toNat → ∀ a, s.sameAt t a) ∧
  (∀ s t : State, exec .ret s = .next t →
    t.carry = s.carry ∧ s.sameControl t ∧ s.sameRunOrFault t ∧ ∀ a, s.sameAt t a) ∧
  (∀ s t : State, exec .ret1 s = .next t →
    t.carry = s.carry ∧ s.sameControl t ∧ s.sameRunOrFault t ∧ ∀ a, a + s.localsWord ≠ s.fp.toNat → s.sameAt t a) ∧
  (∀ s t : State, exec .ret2 s = .next t →
    t.carry = s.carry ∧ s.sameControl t ∧ s.sameRunOrFault t ∧
    ∀ a, a + s.localsWord ≠ s.fp.toNat → a + s.localsWord ≠ s.fp.toNat + 1 → s.sameAt t a)

/-- The frame of `eni`, `dsi`, `hlt` (45_system.md R240 to R242): no word of memory, not SP, FP, carry, the pending slot or the missed
count; `IE` only by `eni` and `dsi`, `halted` only by `hlt`. -/
def Obligations.SystemFrame : Prop :=
  ∀ i ∈ [Instr.eni, .dsi, .hlt], ∀ s t : State, exec i s = .next t →
    t.mem = s.mem ∧ t.sp = s.sp ∧ t.fp = s.fp ∧ t.carry = s.carry ∧ t.pending = s.pending ∧ t.missed = s.missed ∧
    t.phase = s.phase ∧ t.cfg = s.cfg ∧ t.schedule = s.schedule ∧
    (i = .hlt → t.ie = s.ie) ∧ (i ≠ .hlt → t.halted = s.halted ∧ t.draws = s.draws)

/-! ### Reset and the program image -/

/-- 10_state.md R32, 70_reset_and_hazards.md R290: what a reset that starts a run leaves, for every configuration, initial memory and
image.
It rests on the spec's own decision D20 (log 16). -/
def Obligations.ResetLeavesTheStatedValues : Prop :=
  ∀ (c : Config) (init : Memory) (image : List Byte) (s : State), c.sizesWf → init.wf = true →
    boot c init image = .ok s →
    s.fp = 0 ∧ s.sp = 4 ∧ s.pc = c.entryPc ∧ s.carry = false ∧ s.ie = false ∧ s.halted = false ∧ s.pending = none ∧
    s.missed = 0 ∧ s.run = .running ∧ s.phase = .check ∧
    (∀ a, a ≤ 4 → s.mem.read a = 0) ∧
    (∀ a, 5 ≤ a → a < c.romBase → s.mem.read a = init.read a) ∧
    (∃ m, loadImage c image init = .ok m ∧ ∀ a, 5 ≤ a → s.mem.read a = m.read a)

/-- 20_memory.md R64: an image that is a sequence of blocks lying in ROM loads, each word at `ROM_BASE + o + j`, the blocks in file
order, so that a later block wins.
It rests on the spec's own decision D27 (log 16). -/
def Obligations.ImageBlocksLoadInOrder : Prop :=
  ∀ (c : Config) (m : Memory) (blocks : List Block), (∀ b ∈ blocks, b.fits c) →
    loadImage c (blocks.flatMap Block.bytes) m = .ok (blocks.foldl (Block.store c) m)

/-- 20_memory.md R65: after any blocks, an image is refused where it ends inside a block header or a block's data, where an offset or
a count is negative, where a block reaches beyond ROM, and where a 2-byte value exceeds 0xFFF.
It rests on the spec's own decision D27 (log 16). -/
def Obligations.MalformedImagesAreRefused : Prop :=
  ∀ (c : Config) (m : Memory) (blocks : List Block) (tail : List Byte), (∀ b ∈ blocks, b.fits c) →
    (∀ (b : Block) (data : List Byte), b.fits c → tail = bytes32 b.offset ++ bytes32 b.words.length ++ data →
      (data.length < 2 * b.words.length ∨
        ∃ (j : Nat) (h : 2 * j + 1 < data.length), j < b.words.length ∧ 16 ≤ data[2 * j + 1].toNat) →
      ∃ e, loadImage c (blocks.flatMap Block.bytes ++ tail) m = .error e) ∧
    (0 < tail.length → tail.length < 8 → ∃ e, loadImage c (blocks.flatMap Block.bytes ++ tail) m = .error e) ∧
    (∀ (o n : BitVec 32) (data : List Byte), tail = bytes32 o.toNat ++ bytes32 n.toNat ++ data →
      o.toInt < 0 ∨ n.toInt < 0 ∨ (c.romSize : Int) < o.toInt + n.toInt →
      ∃ e, loadImage c (blocks.flatMap Block.bytes ++ tail) m = .error e)
end

