-- ==== Sys2Proof/Laws/Memory.lean ====
section
/-! SUPPORT. The laws of memory: what a read sees after a write, and that every memory operation keeps the canonical form. -/

namespace Sys2Proof.Machine

theorem Memory.read_cons (b : Nat) (v : Word) (m : Memory) (a : Nat) :
    Memory.read ((b, v) :: m) a = if b = a then v else Memory.read m a := rfl

/-- Below the addresses of a canonical list nothing is listed. -/
theorem Memory.read_below {m : Memory} {lo a : Nat} (h : Memory.wfFrom lo m = true) (ha : a < lo) :
    Memory.read m a = Memory.unlisted := by
  induction m generalizing lo with
  | nil => rfl
  | cons e m ih =>
    obtain ⟨b, v⟩ := e
    simp only [Memory.wfFrom, Bool.and_eq_true, decide_eq_true_eq] at h
    rw [Memory.read_cons, if_neg (by omega)]
    exact ih h.2 (by omega)

theorem Memory.wfFrom_mono {m : Memory} {lo lo' : Nat} (h : Memory.wfFrom lo m = true) (hl : lo' ≤ lo) :
    Memory.wfFrom lo' m = true := by
  cases m with
  | nil => rfl
  | cons e m =>
    simp only [Memory.wfFrom, Bool.and_eq_true, decide_eq_true_eq] at h ⊢
    exact ⟨⟨by omega, h.1.2⟩, h.2⟩

theorem Memory.read_consEntry {m : Memory} {a b : Nat} {w : Word} (h : Memory.wfFrom (a + 1) m = true) :
    Memory.read (Memory.cons a w m) b = if b = a then w else Memory.read m b := by
  unfold Memory.cons
  split
  case isTrue hw =>
    split
    case isTrue hb => rw [hb, hw]; exact Memory.read_below h (by omega)
    case isFalse => rfl
  case isFalse =>
    rw [Memory.read_cons]
    by_cases hb : a = b
    · simp [hb]
    · rw [if_neg hb, if_neg (fun e => hb e.symm)]

/-- A read after a write gives the word written at that address and is unchanged at every other, on a canonical memory. -/
theorem Memory.read_write_from {m : Memory} {lo : Nat} (h : Memory.wfFrom lo m = true) (a b : Nat) (w : Word) :
    Memory.read (Memory.write m a w) b = if b = a then w else Memory.read m b := by
  induction m generalizing lo with
  | nil => exact Memory.read_consEntry rfl
  | cons e m ih =>
    obtain ⟨c, v⟩ := e
    have hc := h
    simp only [Memory.wfFrom, Bool.and_eq_true, decide_eq_true_eq] at h
    unfold Memory.write
    split
    case isTrue hlt => exact Memory.read_consEntry (by simp [Memory.wfFrom, h.1.2, h.2]; omega)
    case isFalse hge =>
      split
      case isTrue heq =>
        subst heq
        rw [Memory.read_consEntry h.2, Memory.read_cons]
        by_cases hb : b = a
        · simp [hb]
        · simp [hb, Ne.symm hb]
      case isFalse hne =>
        rw [Memory.read_cons, Memory.read_cons, ih h.2]
        by_cases hb : c = b
        · simp only [hb, if_true]; rw [if_neg (by omega)]
        · simp [hb]

/-- A read after a write, on a canonical memory. -/
theorem Memory.read_write {m : Memory} (h : m.wf = true) (a b : Nat) (w : Word) :
    (m.write a w).read b = if b = a then w else m.read b := Memory.read_write_from h a b w

/-- A write leaves every other address alone, whatever the memory. -/
theorem Memory.read_write_ne (m : Memory) {a b : Nat} (w : Word) (hb : b ≠ a) : (m.write a w).read b = m.read b := by
  have hcons : ∀ m' : Memory, Memory.read (Memory.cons a w m') b = Memory.read m' b := by
    intro m'
    unfold Memory.cons
    split
    · rfl
    · rw [Memory.read_cons, if_neg (fun e => hb e.symm)]
  induction m with
  | nil => exact hcons []
  | cons e m ih =>
    obtain ⟨c, v⟩ := e
    unfold Memory.write
    split
    · exact hcons _
    · split
      case isTrue heq => rw [hcons, Memory.read_cons, if_neg (by omega)]
      case isFalse => rw [Memory.read_cons, Memory.read_cons, ih]

theorem Memory.consEntry_wf {m : Memory} {lo a : Nat} {w : Word} (h : Memory.wfFrom (a + 1) m = true) (hl : lo ≤ a) :
    Memory.wfFrom lo (Memory.cons a w m) = true := by
  unfold Memory.cons
  split
  · exact Memory.wfFrom_mono h (by omega)
  case isFalse hw => simp [Memory.wfFrom, hl, hw, h]

theorem Memory.write_wfFrom {m : Memory} {lo : Nat} (h : Memory.wfFrom lo m = true) {a : Nat} (ha : lo ≤ a) (w : Word) :
    Memory.wfFrom lo (Memory.write m a w) = true := by
  induction m generalizing lo with
  | nil => exact Memory.consEntry_wf rfl ha
  | cons e m ih =>
    obtain ⟨c, v⟩ := e
    simp only [Memory.wfFrom, Bool.and_eq_true, decide_eq_true_eq] at h
    unfold Memory.write
    split
    · exact Memory.consEntry_wf (by simp [Memory.wfFrom, h.1.2, h.2]; omega) ha
    · split
      case isTrue heq => subst heq; exact Memory.consEntry_wf h.2 ha
      case isFalse =>
        simp only [Memory.wfFrom, Bool.and_eq_true, decide_eq_true_eq]
        exact ⟨h.1, ih h.2 (by omega)⟩

/-- A write keeps the canonical form. -/
theorem Memory.write_wf {m : Memory} (h : m.wf = true) (a : Nat) (w : Word) : (m.write a w).wf = true :=
  Memory.write_wfFrom h (Nat.zero_le a) w

/-- A write below a bound keeps every listed address below it. -/
theorem Memory.write_below {m : Memory} {n : Nat} (h : m.below n = true) {a : Nat} (ha : a < n) (w : Word) :
    (m.write a w).below n = true := by
  have hcons : ∀ m' : Memory, m'.below n = true → (Memory.cons a w m').below n = true := by
    intro m' hm
    unfold Memory.cons
    split
    · exact hm
    · simpa [Memory.below, ha] using hm
  induction m with
  | nil => exact hcons [] rfl
  | cons e m ih =>
    obtain ⟨c, v⟩ := e
    have h' : c < n ∧ Memory.below m n = true := by simpa [Memory.below] using h
    unfold Memory.write
    split
    · exact hcons _ h
    · split
      · exact hcons _ h'.2
      · simpa [Memory.below, h'.1] using ih h'.2

/-- Equal memories are equal data: canonical memories that read the same are the same list. -/
theorem Memory.ext_read_from {m m' : Memory} {lo lo' : Nat} (h : Memory.wfFrom lo m = true) (h' : Memory.wfFrom lo' m' = true)
    (hr : ∀ a, Memory.read m a = Memory.read m' a) : m = m' := by
  induction m generalizing lo lo' m' with
  | nil =>
    cases m' with
    | nil => rfl
    | cons e m' =>
      obtain ⟨b, v⟩ := e
      simp only [Memory.wfFrom, Bool.and_eq_true, decide_eq_true_eq] at h'
      have := hr b
      rw [Memory.read_cons, if_pos rfl] at this
      exact absurd this.symm h'.1.2
  | cons e m ih =>
    obtain ⟨b, v⟩ := e
    have hm := h
    simp only [Memory.wfFrom, Bool.and_eq_true, decide_eq_true_eq] at h
    cases m' with
    | nil =>
      have := hr b
      rw [Memory.read_cons, if_pos rfl] at this
      exact absurd this h.1.2
    | cons e' m' =>
      obtain ⟨c, u⟩ := e'
      have hm' := h'
      simp only [Memory.wfFrom, Bool.and_eq_true, decide_eq_true_eq] at h'
      have hb := hr b
      have hc := hr c
      rw [Memory.read_cons, Memory.read_cons, if_pos rfl] at hb hc
      have hbc : b = c := by
        rcases Nat.lt_trichotomy b c with hlt | heq | hgt
        · rw [if_neg (by omega), Memory.read_below h'.2 (by omega)] at hb
          exact absurd hb h.1.2
        · exact heq
        · rw [if_neg (by omega), Memory.read_below h.2 (by omega)] at hc
          exact absurd hc.symm h'.1.2
      subst hbc
      rw [if_pos rfl] at hb
      subst hb
      have htail : ∀ a, Memory.read m a = Memory.read m' a := by
        intro a
        by_cases ha : b = a
        · subst ha
          rw [Memory.read_below h.2 (by omega), Memory.read_below h'.2 (by omega)]
        · have := hr a
          rwa [Memory.read_cons, Memory.read_cons, if_neg ha, if_neg ha] at this
      rw [ih h.2 h'.2 htail]

/-- Canonical memories that read the same are equal. -/
theorem Memory.ext_read {m m' : Memory} (h : m.wf = true) (h' : m'.wf = true) (hr : ∀ a, m.read a = m'.read a) : m = m' :=
  Memory.ext_read_from h h' hr

/-- Placing words keeps the canonical form. -/
theorem placeWords_wf (c : Config) (ws : List Word) {m : Memory} (h : m.wf = true) (a : Nat) :
    (placeWords c m a ws).wf = true := by
  induction ws generalizing m a with
  | nil => exact h
  | cons w ws ih =>
    unfold placeWords
    split
    · exact ih (Memory.write_wf h _ _) _
    · exact ih h _

/-- Loading a block keeps the canonical form. -/
theorem loadBlock_wf {a n : Nat} {bs rest : List Byte} {m m' : Memory} (h : m.wf = true)
    (hl : loadBlock a n bs m = .ok (rest, m')) : m'.wf = true := by
  induction n generalizing a bs m with
  | zero => simp only [loadBlock, Except.ok.injEq, Prod.mk.injEq] at hl; exact hl.2 ▸ h
  | succ n ih =>
    match bs, hl with
    | b0 :: b1 :: bs, hl =>
      simp only [loadBlock] at hl
      split at hl
      · exact ih (Memory.write_wf h _ _) hl
      · cases hl
    | [_], hl => simp [loadBlock] at hl
    | [], hl => simp [loadBlock] at hl

/-- Loading an image keeps the canonical form. -/
theorem loadBlocks_wf {c : Config} {fuel : Nat} {bs : List Byte} {m m' : Memory} (h : m.wf = true)
    (hl : loadBlocks c fuel bs m = .ok m') : m'.wf = true := by
  induction fuel generalizing bs m with
  | zero =>
    cases bs with
    | nil => simp only [loadBlocks, Except.ok.injEq] at hl; exact hl ▸ h
    | cons => simp [loadBlocks] at hl
  | succ fuel ih =>
    match bs, hl with
    | [], hl => simp only [loadBlocks, Except.ok.injEq] at hl; exact hl ▸ h
    | o0 :: o1 :: o2 :: o3 :: c0 :: c1 :: c2 :: c3 :: bs, hl =>
      unfold loadBlocks at hl
      dsimp only at hl
      split at hl
      · cases hl
      · split at hl
        · cases hl
        · split at hl
          · cases hl
          · split at hl
            · cases hl
            case h_2 hb => exact ih (loadBlock_wf h hb) hl
    | [_], hl | [_, _], hl | [_, _, _], hl | [_, _, _, _], hl | [_, _, _, _, _], hl | [_, _, _, _, _, _], hl
    | [_, _, _, _, _, _, _], hl => simp [loadBlocks] at hl

/-- Clearing the start-up header keeps the canonical form. -/
theorem clearHeader_wf {m : Memory} (h : m.wf = true) : (clearHeader m).wf = true := by
  unfold clearHeader
  exact Memory.write_wf (Memory.write_wf (Memory.write_wf (Memory.write_wf (Memory.write_wf h _ _) _ _) _ _) _ _) _ _

/-- The memory after reset is canonical. -/
theorem reset_mem_wf : State.reset.mem.wf = true := rfl

end Sys2Proof.Machine
end

