-- ==== Sys2Proof/Laws/Ops.lean ====
section
/-! SUPPORT. What each shared operation can do, once: a closed form with every outcome (`_eq`), and the case in which it goes on
(`_ok`). -/

namespace Sys2Proof.Machine

variable {α β : Type} {s t : State}

/-! ### Sequencing -/

theorem Op.bind_ok {x : Op α} {f : α → Op β} {a : α} (h : x s = .ok a t) : (x >>= f) s = f a t := by
  show EStateM.bind x f s = _
  simp only [EStateM.bind, h]

theorem Op.bind_error {x : Op α} {f : α → Op β} {r : Fault} (h : x s = .error r t) : (x >>= f) s = .error r t := by
  show EStateM.bind x f s = _
  simp only [EStateM.bind, h]

theorem Op.pure_apply (a : α) : (pure a : Op α) s = .ok a s := rfl

theorem runOp_ok {m : Op Unit} (h : m s = .ok () t) : runOp m s = .next t := by simp only [runOp, h]

theorem runOp_error {m : Op Unit} {r : Fault} (h : m s = .error r t) : runOp m s = .next (t.takeFault r) := by
  simp only [runOp, h]

/-- What an instruction's outcome can be: it went on to its end, or it took the fault it raised. -/
theorem runOp_cases {m : Op Unit} (h : runOp m s = .next t) :
    m s = .ok () t ∨ ∃ r u, m s = .error r u ∧ t = u.takeFault r := by
  unfold runOp at h
  split at h
  case h_1 hm => cases h; exact .inl hm
  case h_2 hm => cases h; exact .inr ⟨_, _, hm, rfl⟩

/-! ### Values as registers hold them -/

theorem long_toNat_lt (v : Long) : v.toNat < addressLimit := v.isLt

theorem ofInt24_nat (n : Nat) : BitVec.ofInt 24 (n : Int) = BitVec.ofNat 24 n := by simp

theorem ofNat24_toNat (v : Long) : BitVec.ofNat 24 v.toNat = v := by simp

theorem ofInt24_add (v : Long) (n : Nat) : BitVec.ofInt 24 ((v.toNat : Int) + n) = v + BitVec.ofNat 24 n := by
  apply BitVec.eq_of_toNat_eq
  simp [BitVec.toNat_ofInt, BitVec.toNat_add]
  omega

theorem ofInt24_sub (v : Long) (n : Nat) :
    BitVec.ofInt 24 ((v.toNat : Int) - n) = v - BitVec.ofNat 24 n := by
  have hv := long_toNat_lt v
  simp only [addressLimit] at hv
  apply BitVec.eq_of_toNat_eq
  rw [BitVec.toNat_ofInt, BitVec.toNat_sub, BitVec.toNat_ofNat]
  omega

theorem toNat_add_of_lt (v : Long) (n : Nat) (h : v.toNat + n < addressLimit) :
    (v + BitVec.ofNat 24 n).toNat = v.toNat + n := by
  simp only [addressLimit] at h
  rw [BitVec.toNat_add, BitVec.toNat_ofNat]
  omega

theorem toNat_sub_of_le (v : Long) (n : Nat) (h : n ≤ v.toNat) : (v - BitVec.ofNat 24 n).toNat = v.toNat - n := by
  have hv := long_toNat_lt v
  simp only [addressLimit] at hv
  rw [BitVec.toNat_sub, BitVec.toNat_ofNat]
  omega

theorem toNat_succ_of_lt (v : Long) (h : v.toNat + 1 < addressLimit) : (v + 1).toNat = v.toNat + 1 :=
  toNat_add_of_lt v 1 h

theorem toNat_pred_of_pos (v : Long) (h : 1 ≤ v.toNat) : (v - 1).toNat = v.toNat - 1 := toNat_sub_of_le v 1 h

theorem toNat_ofNat24 (n : Nat) (h : n < addressLimit) : (BitVec.ofNat 24 n).toNat = n := by
  simp only [addressLimit] at h
  rw [BitVec.toNat_ofNat]
  omega

theorem longOf_toNat (h l : Word) : (longOf h l).toNat = h.toNat * 4096 + l.toNat := by
  have := l.isLt
  show ((h ++ l : BitVec (12 + 12))).toNat = _
  rw [BitVec.toNat_append, ← Nat.shiftLeft_add_eq_or_of_lt (by omega), Nat.shiftLeft_eq]

theorem hiWord_toNat (v : Long) : (hiWord v).toNat = v.toNat / 4096 := by
  have := v.isLt
  rw [hiWord, BitVec.extractLsb'_toNat, Nat.shiftRight_eq_div_pow]
  omega

theorem loWord_toNat (v : Long) : (loWord v).toNat = v.toNat % 4096 := by
  rw [loWord, BitVec.extractLsb'_toNat, Nat.shiftRight_zero]

theorem longOf_hi_lo (v : Long) : longOf (hiWord v) (loWord v) = v := by
  apply BitVec.eq_of_toNat_eq
  rw [longOf_toNat, hiWord_toNat, loWord_toNat]
  omega

theorem hiWord_longOf (h l : Word) : hiWord (longOf h l) = h := by
  have := l.isLt
  apply BitVec.eq_of_toNat_eq
  rw [hiWord_toNat, longOf_toNat]
  omega

theorem loWord_longOf (h l : Word) : loWord (longOf h l) = l := by
  have := l.isLt
  apply BitVec.eq_of_toNat_eq
  rw [loWord_toNat, longOf_toNat]
  omega

/-! ### Memory access -/

theorem memRead_eq (a : Int) : memRead a s =
    if a < 0 ∨ (s.cfg.memSize : Int) ≤ a then .error .addrRange s else .ok (s.mem.read a.toNat) s := by
  unfold memRead
  by_cases h : a < 0 ∨ (s.cfg.memSize : Int) ≤ a
  · rw [if_pos h, if_pos (by omega)]
  · rw [if_neg h, if_neg (by omega)]

theorem memRead_nat (a : Nat) : memRead a s =
    if s.cfg.memSize ≤ a then .error .addrRange s else .ok (s.mem.read a) s := by
  rw [memRead_eq]
  by_cases h : s.cfg.memSize ≤ a
  · rw [if_pos h, if_pos (by omega)]
  · rw [if_neg h, if_neg (by omega)]; rfl

theorem memRead_ok {a : Nat} (h : a < s.cfg.memSize) : memRead a s = .ok (s.mem.read a) s := by
  rw [memRead_nat, if_neg (by omega)]

theorem memWrite_eq (a : Int) (w : Word) : memWrite a w s =
    if a < 0 ∨ (s.cfg.memSize : Int) ≤ a then .error .addrRange s
    else if (s.cfg.romBase : Int) ≤ a then .error .romWrite s
    else .ok () { s with mem := s.mem.write a.toNat w } := by
  unfold memWrite
  by_cases h : a < 0 ∨ (s.cfg.memSize : Int) ≤ a
  · rw [if_pos h, if_pos (by omega)]
  · rw [if_neg h, if_neg (by omega)]
    by_cases h' : (s.cfg.romBase : Int) ≤ a
    · rw [if_pos h', if_pos (by omega)]
    · rw [if_neg h', if_neg (by omega)]

theorem memWrite_nat (a : Nat) (w : Word) : memWrite a w s =
    if s.cfg.memSize ≤ a then .error .addrRange s
    else if s.cfg.romBase ≤ a then .error .romWrite s
    else .ok () { s with mem := s.mem.write a w } := by
  rw [memWrite_eq]
  by_cases h : s.cfg.memSize ≤ a
  · rw [if_pos h, if_pos (by omega)]
  · rw [if_neg h, if_neg (by omega)]
    by_cases h' : s.cfg.romBase ≤ a
    · rw [if_pos h', if_pos (by omega)]
    · rw [if_neg h', if_neg (by omega)]; rfl

theorem memWrite_ok {a : Nat} {w : Word} (h : a < s.cfg.romBase) :
    memWrite a w s = .ok () { s with mem := s.mem.write a w } := by
  have hm : s.cfg.romBase ≤ s.cfg.memSize := Nat.le_add_right _ _
  rw [memWrite_nat, if_neg (by omega), if_neg (by omega)]

theorem memReadLong_ok {a : Nat} (h : a + 1 < s.cfg.memSize) :
    memReadLong a s = .ok (longOf (s.mem.read a) (s.mem.read (a + 1))) s := by
  unfold memReadLong
  rw [Op.bind_ok (memRead_ok (by omega))]
  rw [show ((a : Int) + 1) = ((a + 1 : Nat) : Int) by omega, Op.bind_ok (memRead_ok h)]
  rfl

/-! ### Registers -/

theorem getPc_ok : getPc s = .ok s.pc.toNat s := rfl

theorem getSp_ok : getSp s = .ok s.sp.toNat s := rfl

theorem getFp_ok : getFp s = .ok s.fp.toNat s := rfl

theorem getCarry_ok : getCarry s = .ok s.carry s := rfl

theorem setCarry_ok (c : Bool) : setCarry c s = .ok () { s with carry := c } := rfl

theorem setIe_ok (b : Bool) : setIe b s = .ok () { s with ie := b } := rfl

theorem clearPending_ok : clearPending s = .ok () { s with pending := none } := rfl

theorem setPc_ok {v : Nat} (h : v < addressLimit) : setPc v s = .ok () { s with pc := BitVec.ofNat 24 v } := by
  unfold setPc
  rw [if_pos ⟨by omega, by omega⟩, ofInt24_nat]

theorem setSp_ok {v : Nat} (h : v < addressLimit) : setSp v s = .ok () { s with sp := BitVec.ofNat 24 v } := by
  unfold setSp
  rw [if_pos ⟨by omega, by omega⟩, ofInt24_nat]

theorem setFp_ok {v : Nat} (h : v < addressLimit) : setFp v s = .ok () { s with fp := BitVec.ofNat 24 v } := by
  unfold setFp
  rw [if_pos ⟨by omega, by omega⟩, ofInt24_nat]

theorem setPc_error {v : Int} (h : ¬ inRegRange v) : setPc v s = .error .regRange s := by
  unfold setPc; rw [if_neg h]

theorem setSp_error {v : Int} (h : ¬ inRegRange v) : setSp v s = .error .regRange s := by
  unfold setSp; rw [if_neg h]

theorem advance_eq (n : Nat) : advance n s =
    if s.pc.toNat + n < addressLimit then .ok () { s with pc := s.pc + BitVec.ofNat 24 n } else .error .regRange s := by
  show (getPc >>= fun pc => setPc ((pc : Int) + n)) s = _
  rw [Op.bind_ok (show getPc s = .ok s.pc.toNat s from rfl)]
  unfold setPc
  by_cases h : s.pc.toNat + n < addressLimit
  · rw [if_pos h, if_pos ⟨by omega, by omega⟩, ofInt24_add]
  · rw [if_neg h, if_neg (by simp only [inRegRange]; omega)]

theorem advance_ok {n : Nat} (h : s.pc.toNat + n < addressLimit) :
    advance n s = .ok () { s with pc := s.pc + BitVec.ofNat 24 n } := by rw [advance_eq, if_pos h]

/-! ### The stack -/

/-- Everything `pop` can do. -/
theorem pop_eq : pop s =
    if s.cfg.memSize ≤ s.sp.toNat then .error .addrRange s
    else if s.sp.toNat = 0 then .error .regRange s
    else .ok (s.mem.read s.sp.toNat) { s with sp := s.sp - 1 } := by
  unfold pop
  rw [Op.bind_ok (show getSp s = .ok s.sp.toNat s from rfl)]
  by_cases h : s.cfg.memSize ≤ s.sp.toNat
  · rw [if_pos h, Op.bind_error (by rw [memRead_nat, if_pos h])]
  · rw [if_neg h, Op.bind_ok (memRead_ok (by omega))]
    by_cases h0 : s.sp.toNat = 0
    · rw [if_pos h0, Op.bind_error (setSp_error (by simp only [inRegRange]; omega))]
    · have hlt := long_toNat_lt s.sp
      rw [if_neg h0, show ((s.sp.toNat : Int) - 1) = ((s.sp.toNat - 1 : Nat) : Int) by omega,
        Op.bind_ok (setSp_ok (by omega))]
      show EStateM.Result.ok _ _ = _
      have hsp : BitVec.ofNat 24 (s.sp.toNat - 1) = s.sp - 1 := by
        rw [← ofInt24_nat, show ((s.sp.toNat - 1 : Nat) : Int) = (s.sp.toNat : Int) - (1 : Nat) by omega,
          ofInt24_sub]
        rfl
      rw [hsp]

theorem pop_ok (h : s.sp.toNat < s.cfg.memSize) (h0 : 1 ≤ s.sp.toNat) :
    pop s = .ok (s.mem.read s.sp.toNat) { s with sp := s.sp - 1 } := by
  rw [pop_eq, if_neg (by omega), if_neg (by omega)]

/-- Everything `push` can do. -/
theorem push_eq (w : Word) : push w s =
    if addressLimit ≤ s.sp.toNat + 1 then .error .regRange s
    else if s.cfg.memSize ≤ s.sp.toNat + 1 then .error .addrRange { s with sp := s.sp + 1 }
    else if s.cfg.romBase ≤ s.sp.toNat + 1 then .error .romWrite { s with sp := s.sp + 1 }
    else .ok () { s with sp := s.sp + 1, mem := s.mem.write (s.sp.toNat + 1) w } := by
  unfold push
  rw [Op.bind_ok (show getSp s = .ok s.sp.toNat s from rfl)]
  by_cases h : addressLimit ≤ s.sp.toNat + 1
  · rw [if_pos h, Op.bind_error (setSp_error (by simp only [inRegRange]; omega))]
  · have hs : setSp ((s.sp.toNat : Int) + 1) s = .ok () { s with sp := s.sp + 1 } := by
      rw [show ((s.sp.toNat : Int) + 1) = ((s.sp.toNat + 1 : Nat) : Int) by omega, setSp_ok (by omega), ← ofInt24_nat,
        show ((s.sp.toNat + 1 : Nat) : Int) = (s.sp.toNat : Int) + (1 : Nat) by omega, ofInt24_add]
      rfl
    rw [if_neg h, Op.bind_ok hs]
    exact memWrite_nat (s := { s with sp := s.sp + 1 }) (s.sp.toNat + 1) w

theorem push_ok {w : Word} (h : s.sp.toNat + 1 < s.cfg.romBase) (hl : s.sp.toNat + 1 < addressLimit) :
    push w s = .ok () { s with sp := s.sp + 1, mem := s.mem.write (s.sp.toNat + 1) w } := by
  have hm : s.cfg.romBase ≤ s.cfg.memSize := Nat.le_add_right _ _
  rw [push_eq, if_neg (by omega), if_neg (by omega), if_neg (by omega)]

theorem popL_ok (h : s.sp.toNat < s.cfg.memSize) (h0 : 2 ≤ s.sp.toNat) :
    popL s = .ok (longOf (s.mem.read (s.sp.toNat - 1)) (s.mem.read s.sp.toNat)) { s with sp := s.sp - 2 } := by
  have hp := toNat_pred_of_pos s.sp (by omega)
  unfold popL
  rw [Op.bind_ok (pop_ok h (by omega)), Op.bind_ok (pop_ok (by simp only [hp]; omega) (by simp only [hp]; omega))]
  show EStateM.Result.ok _ _ = _
  simp only [hp, show s.sp - 1 - 1 = s.sp - 2 by bv_omega]

theorem pushL_ok {v : Long} (h : s.sp.toNat + 2 < s.cfg.romBase) (hl : s.sp.toNat + 2 < addressLimit) :
    pushL v s = .ok () { s with
      sp := s.sp + 2
      mem := (s.mem.write (s.sp.toNat + 1) (hiWord v)).write (s.sp.toNat + 2) (loWord v) } := by
  have hp := toNat_succ_of_lt s.sp (by omega)
  unfold pushL
  rw [Op.bind_ok (push_ok (by omega) (by omega)), push_ok (by simp only [hp]; omega) (by simp only [hp]; omega)]
  simp only [hp, show s.sp + 1 + 1 = s.sp + 2 by bv_omega]

/-- The memory after words are pushed from an address upward. -/
def storeUp (m : Memory) (a : Nat) : List Word → Memory
  | [] => m
  | w :: ws => storeUp (m.write a w) (a + 1) ws

theorem pushAll_ok {ws : List Word} (h : s.sp.toNat + ws.length < s.cfg.romBase)
    (hl : s.sp.toNat + ws.length < addressLimit) :
    pushAll ws s = .ok () { s with
      sp := s.sp + BitVec.ofNat 24 ws.length
      mem := storeUp s.mem (s.sp.toNat + 1) ws } := by
  induction ws generalizing s with
  | nil => simp [pushAll, storeUp, Op.pure_apply]
  | cons w ws ih =>
    simp only [List.length_cons] at h hl
    have hp := toNat_succ_of_lt s.sp (by omega)
    unfold pushAll
    rw [Op.bind_ok (push_ok (by omega) (by omega)), ih (by simp only [hp]; omega) (by simp only [hp]; omega)]
    simp only [hp, storeUp, List.length_cons]
    congr 2
    bv_omega

theorem storeUp_read_lt (m : Memory) {a b : Nat} (ws : List Word) (h : b < a) : (storeUp m a ws).read b = m.read b := by
  induction ws generalizing m a with
  | nil => rfl
  | cons w ws ih => rw [storeUp, ih _ (by omega), Memory.read_write_ne _ _ (by omega)]

theorem storeUp_read_ge (m : Memory) {a b : Nat} (ws : List Word) (h : a + ws.length ≤ b) :
    (storeUp m a ws).read b = m.read b := by
  induction ws generalizing m a with
  | nil => rfl
  | cons w ws ih =>
    simp only [List.length_cons] at h
    rw [storeUp, ih _ (by omega), Memory.read_write_ne _ _ (by omega)]

theorem storeUp_wf {m : Memory} (h : m.wf = true) (a : Nat) (ws : List Word) : (storeUp m a ws).wf = true := by
  induction ws generalizing m a with
  | nil => exact h
  | cons w ws ih => exact ih (Memory.write_wf h _ _) _

theorem storeUp_read {m : Memory} (hm : m.wf = true) (a : Nat) (ws : List Word) (i : Nat) (h : i < ws.length) :
    (storeUp m a ws).read (a + i) = ws[i] := by
  induction ws generalizing m a i with
  | nil => simp at h
  | cons w ws ih =>
    cases i with
    | zero => rw [storeUp, storeUp_read_lt _ _ (by omega), Memory.read_write hm, if_pos (by omega)]; rfl
    | succ i =>
      rw [storeUp, show a + (i + 1) = a + 1 + i by omega, ih (Memory.write_wf hm _ _) _ _ (by simpa using h)]
      simp

/-! ### The locals' base and the frame header -/

/-- Everything `fpLoc` can do. -/
theorem fpLoc_eq : fpLoc s =
    if s.cfg.memSize ≤ s.fp.toNat + 4 then .error .addrRange s
    else if s.fp.toNat < (s.mem.read (s.fp.toNat + 4)).toNat then .error .regRange s
    else .ok (s.fp.toNat - (s.mem.read (s.fp.toNat + 4)).toNat) s := by
  unfold fpLoc
  rw [Op.bind_ok (show getFp s = .ok s.fp.toNat s from rfl),
    show ((s.fp.toNat : Int) + 4) = ((s.fp.toNat + 4 : Nat) : Int) by omega]
  by_cases h : s.cfg.memSize ≤ s.fp.toNat + 4
  · rw [if_pos h, Op.bind_error (by rw [memRead_nat, if_pos h])]
  · rw [if_neg h, Op.bind_ok (memRead_ok (by omega))]
    split <;> rfl

/-- The header in memory: five words from the new FP upward (43_call_return.md R191). -/
def headerWords (ra fp : Long) (n : Word) : List Word := [hiWord ra, loWord ra, hiWord fp, loWord fp, n]

theorem buildFrame_ok {ra : Long} {n : Word} (h : s.sp.toNat + 5 < s.cfg.romBase)
    (hl : s.sp.toNat + 5 < addressLimit) :
    buildFrame ra n s = .ok () { s with
      fp := s.sp + 1
      sp := s.sp + 5
      mem := storeUp s.mem (s.sp.toNat + 1) (headerWords ra s.fp n) } := by
  have h1 := toNat_succ_of_lt s.sp (by omega)
  have h2 : (s.sp + 1 + 1).toNat = s.sp.toNat + 2 := by rw [toNat_succ_of_lt _ (by omega)]; omega
  have h3 : (s.sp + 1 + 1 + 1).toNat = s.sp.toNat + 3 := by rw [toNat_succ_of_lt _ (by omega)]; omega
  have h4 : (s.sp + 1 + 1 + 1 + 1).toNat = s.sp.toNat + 4 := by rw [toNat_succ_of_lt _ (by omega)]; omega
  unfold buildFrame
  rw [Op.bind_ok (show getFp s = .ok s.fp.toNat s from rfl), Op.bind_ok (push_ok (by omega) (by omega)),
    Op.bind_ok (show getSp _ = .ok (s.sp + 1).toNat _ from rfl), Op.bind_ok (setFp_ok (long_toNat_lt _)),
    Op.bind_ok (push_ok (by simp only [h1]; omega) (by simp only [h1]; omega)),
    Op.bind_ok (push_ok (by simp only [h2]; omega) (by simp only [h2]; omega)),
    Op.bind_ok (push_ok (by simp only [h3]; omega) (by simp only [h3]; omega)),
    push_ok (by simp only [h4]; omega) (by simp only [h4]; omega)]
  have h5 : BitVec.ofNat 24 (s.sp.toNat + 1) = s.sp + 1 := by rw [← h1, ofNat24_toNat]
  simp only [ofNat24_toNat, h1, h2, h3, h4, h5, headerWords, storeUp, Nat.add_assoc, Nat.reduceAdd,
    show s.sp + 1 + 1 + 1 + 1 + 1 = s.sp + 5 by bv_omega]

/-- Everything `tearDown` can do, the header being readable or not. -/
theorem tearDown_eq : tearDown s =
    if s.cfg.memSize ≤ s.fp.toNat + 4 then .error .addrRange s
    else if s.fp.toNat < (s.mem.read (s.fp.toNat + 4)).toNat + 1 then .error .regRange s
    else .ok () { s with
      sp := BitVec.ofNat 24 (s.fp.toNat - 1 - (s.mem.read (s.fp.toNat + 4)).toNat)
      pc := longOf (s.mem.read s.fp.toNat) (s.mem.read (s.fp.toNat + 1))
      fp := longOf (s.mem.read (s.fp.toNat + 2)) (s.mem.read (s.fp.toNat + 3)) } := by
  unfold tearDown
  rw [Op.bind_ok (show getFp s = .ok s.fp.toNat s from rfl),
    show ((s.fp.toNat : Int) + 4) = ((s.fp.toNat + 4 : Nat) : Int) by omega,
    show ((s.fp.toNat : Int) + 2) = ((s.fp.toNat + 2 : Nat) : Int) by omega]
  have hf := long_toNat_lt s.fp
  by_cases h : s.cfg.memSize ≤ s.fp.toNat + 4
  · rw [if_pos h, Op.bind_error (by rw [memRead_nat, if_pos h])]
  · rw [if_neg h, Op.bind_ok (memRead_ok (by omega)), Op.bind_ok (memReadLong_ok (by omega)),
      Op.bind_ok (memReadLong_ok (by omega))]
    by_cases h1 : s.fp.toNat < (s.mem.read (s.fp.toNat + 4)).toNat + 1
    · rw [if_pos h1, Op.bind_error (setSp_error (by simp only [inRegRange]; omega))]
    · rw [if_neg h1, show ((s.fp.toNat : Int) - 1 - (s.mem.read (s.fp.toNat + 4)).toNat) =
          ((s.fp.toNat - 1 - (s.mem.read (s.fp.toNat + 4)).toNat : Nat) : Int) by omega,
        Op.bind_ok (setSp_ok (by omega)), Op.bind_ok (setPc_ok (long_toNat_lt _)), setFp_ok (long_toNat_lt _)]
      simp only [ofNat24_toNat]

/-- The return address of a `call` where the address after it is a 24-bit value. -/
theorem returnAddress_ok (h : s.pc.toNat + 3 < addressLimit) : returnAddress s = .ok (s.pc + 3) s := by
  unfold returnAddress; rw [if_pos h]

/-- The return address of a `call` where the address after it is no 24-bit value: a free value. -/
theorem returnAddress_free (h : ¬ s.pc.toNat + 3 < addressLimit) :
    returnAddress s = .ok (freeReturnAddress s.draws) { s with draws := s.draws + 1 } := by
  unfold returnAddress; rw [if_neg h]

/-! ### The block copy -/

/-- The memory after the forward word copy of 20_memory.md R69. -/
def copyMem (m : Memory) (src dst : Nat) : Nat → Memory
  | 0 => m
  | n + 1 => copyMem (m.write dst (m.read src)) (src + 1) (dst + 1) n

theorem copyWords_ok {src dst n : Nat} (hr : src + n ≤ s.cfg.memSize) (hw : dst + n ≤ s.cfg.romBase) :
    copyWords src dst n s = .ok () { s with mem := copyMem s.mem src dst n } := by
  induction n generalizing s src dst with
  | zero => rfl
  | succ n ih =>
    unfold copyWords
    rw [Op.bind_ok (memRead_ok (by omega)), Op.bind_ok (memWrite_ok (by omega)), ih (by simpa using by omega) (by simpa using by omega)]
    rfl

end Sys2Proof.Machine
end

