-- ==== Sys2Proof/Laws/Flags.lean ====
section
/-! SUPPORT. What each ALU operation gives, as bit vector arithmetic and a comparison of naturals. -/

namespace Sys2Proof.Machine

variable {n : Nat}

theorem mask_nat (v : Nat) : mask n (v : Int) = BitVec.ofNat n v := by simp [mask]

theorem overflows_nat (v : Nat) : overflows n (v : Int) = decide (2 ^ n ≤ v) := by
  unfold overflows
  rw [decide_eq_decide]
  have h : ((2 : Int) ^ n) = ((2 ^ n : Nat) : Int) := by push_cast; rfl
  rw [h]
  omega

theorem overflows_of_lt {v : Int} (h : v < 2 ^ n) : overflows n v = false := by
  unfold overflows
  rw [decide_eq_false_iff_not]
  omega

theorem underflows_nat (v : Nat) : underflows (v : Int) = false := by
  unfold underflows
  rw [decide_eq_false_iff_not]
  omega

theorem ofInt_sub (a b : Int) : BitVec.ofInt n (a - b) = BitVec.ofInt n a - BitVec.ofInt n b := by
  rw [Int.sub_eq_add_neg, BitVec.ofInt_add, BitVec.ofInt_neg, BitVec.sub_eq_add_neg]

theorem ofInt_toNat (a : BitVec n) : BitVec.ofInt n (a.toNat : Int) = a := by simp

theorem aluAdd_eq (a b : BitVec n) : aluAdd a b = (a + b, decide (2 ^ n ≤ a.toNat + b.toNat)) := by
  have h : aluAdd a b = (mask n ((a.toNat + b.toNat : Nat) : Int), overflows n ((a.toNat + b.toNat : Nat) : Int)) := by
    simp only [aluAdd, Nat.cast_add]
  rw [h, mask_nat, overflows_nat]
  exact congrArg (·, _) (BitVec.eq_of_toNat_eq (by rw [BitVec.toNat_ofNat, BitVec.toNat_add]))

theorem aluMul_eq (a b : BitVec n) : aluMul a b = (a * b, decide (2 ^ n ≤ a.toNat * b.toNat)) := by
  have h : aluMul a b = (mask n ((a.toNat * b.toNat : Nat) : Int), overflows n ((a.toNat * b.toNat : Nat) : Int)) := by
    simp only [aluMul, Nat.cast_mul]
  rw [h, mask_nat, overflows_nat]
  exact congrArg (·, _) (BitVec.eq_of_toNat_eq (by rw [BitVec.toNat_ofNat, BitVec.toNat_mul]))

theorem aluSub_eq (a b : BitVec n) : aluSub a b = (a - b, false) := by
  have ha : (a.toNat : Int) < 2 ^ n := by exact_mod_cast a.isLt
  unfold aluSub
  ext1
  · show BitVec.ofInt n (_ - _) = _
    rw [ofInt_sub, ofInt_toNat, ofInt_toNat]
  · exact overflows_of_lt (by omega)

theorem aluMul2_eq (a b : Word) : aluMul2 a b = (BitVec.ofNat 24 (a.toNat * b.toNat), false) := by
  have ha := a.isLt
  have hb := b.isLt
  have hle : a.toNat * b.toNat ≤ 4095 * 4095 := Nat.mul_le_mul (by omega) (by omega)
  have h : aluMul2 a b = (mask 24 ((a.toNat * b.toNat : Nat) : Int), overflows 24 ((a.toNat * b.toNat : Nat) : Int)) := by
    simp only [aluMul2, Nat.cast_mul]
  rw [h, mask_nat, overflows_nat]
  congr 1
  rw [decide_eq_false_iff_not]
  omega

theorem aluDiv_eq (a b : BitVec n) : aluDiv a b = (a / b, false) := by
  have ha := a.isLt
  have hle : a.toNat / b.toNat ≤ a.toNat := Nat.div_le_self _ _
  simp only [aluDiv, mask_nat, overflows_nat]
  congr 1
  · apply BitVec.eq_of_toNat_eq
    rw [BitVec.toNat_ofNat, BitVec.toNat_udiv, Nat.mod_eq_of_lt (by omega)]
  · rw [decide_eq_false_iff_not]
    omega

theorem aluMod_eq (a b : BitVec n) : aluMod a b = (a % b, false) := by
  have ha := a.isLt
  have hle : a.toNat % b.toNat ≤ a.toNat := Nat.mod_le _ _
  have h : (a.toNat : Int) - b.toNat * ((a.toNat / b.toNat : Nat) : Int) = ((a.toNat % b.toNat : Nat) : Int) := by
    have := congrArg (Nat.cast (R := Int)) (Nat.div_add_mod a.toNat b.toNat)
    rw [Nat.cast_add, Nat.cast_mul] at this
    omega
  simp only [aluMod, h, mask_nat, overflows_nat]
  congr 1
  · apply BitVec.eq_of_toNat_eq
    rw [BitVec.toNat_ofNat, BitVec.toNat_umod, Nat.mod_eq_of_lt (by omega)]
  · rw [decide_eq_false_iff_not]
    omega

theorem aluNeg_eq (a : BitVec n) : aluNeg a = (-a, decide (a.toNat ≠ 0)) := by
  unfold aluNeg underflows
  ext1
  · show BitVec.ofInt n (-_) = _
    rw [BitVec.ofInt_neg, ofInt_toNat]
  · show decide _ = decide _
    rw [decide_eq_decide]
    omega

theorem aluNot_eq (a : BitVec n) : aluNot a = (~~~a, false) := by
  have ha := a.isLt
  unfold aluNot
  congr 1
  rw [show (2 ^ n - 1 - (a.toNat : Int)) = ((2 ^ n - 1 - a.toNat : Nat) : Int) by
    rw [Nat.cast_sub (by omega), Nat.cast_sub (by omega)]; push_cast; rfl, mask_nat]
  apply BitVec.eq_of_toNat_eq
  rw [BitVec.toNat_ofNat, BitVec.toNat_not, Nat.mod_eq_of_lt (by omega)]

theorem aluInc_eq (a : BitVec n) : aluInc a = (a + 1, decide (2 ^ n ≤ a.toNat + 1)) := by
  have h : aluInc a = (mask n ((a.toNat + 1 : Nat) : Int), overflows n ((a.toNat + 1 : Nat) : Int)) := by
    simp only [aluInc, Nat.cast_add, Nat.cast_one]
  rw [h, mask_nat, overflows_nat]
  congr 1
  apply BitVec.eq_of_toNat_eq
  rw [BitVec.toNat_ofNat, BitVec.toNat_add, show (1 : BitVec n) = BitVec.ofNat n 1 from rfl, BitVec.toNat_ofNat]
  exact (Nat.add_mod_mod _ _ _).symm

theorem aluDec_eq (a : BitVec n) : aluDec a = (a - 1, decide (a.toNat = 0)) := by
  unfold aluDec underflows
  ext1
  · show BitVec.ofInt n (_ - _) = _
    rw [ofInt_sub, ofInt_toNat]
    rfl
  · show decide _ = decide _
    rw [decide_eq_decide]
    omega

theorem sext_eq (a : BitVec n) : sext a = a.toInt := by
  unfold sext
  rw [BitVec.toInt_eq_msb_cond]
  rfl

end Sys2Proof.Machine
end

