-- ==== Sys2Proof/Laws/Frame.lean ====
section
/-! SUPPORT. Frames of operations: a relation between states that holds of every elementary write holds from the start of an
operation to its end, whether it goes on or faults. -/

namespace Sys2Proof.Machine

variable {α β : Type} {R : State → State → Prop}

/-- The relation holds between the state before an operation and the state after it, in both outcomes. -/
def Op.Keeps (R : State → State → Prop) (m : Op α) : Prop :=
  ∀ s, (∀ a t, m s = .ok a t → R s t) ∧ (∀ r t, m s = .error r t → R s t)

/-- A relation that holds of no change, composes, and holds of the writes that every instruction may make: PC, SP, FP, a word
below ROM, a draw. -/
structure Tolerant (R : State → State → Prop) : Prop where
  refl : ∀ s, R s s
  trans : ∀ s t u, R s t → R t u → R s u
  pc : ∀ s v, R s { s with pc := v }
  sp : ∀ s v, R s { s with sp := v }
  fp : ∀ s v, R s { s with fp := v }
  mem : ∀ s (a : Nat) w, a < s.cfg.romBase → R s { s with mem := s.mem.write a w }
  draws : ∀ s v, R s { s with draws := v }

theorem keeps_at_ok {a : α} {s t : State} (h : R s t) :
    (∀ b u, (EStateM.Result.ok a t : EStateM.Result Fault State α) = .ok b u → R s u) ∧
    (∀ r u, (EStateM.Result.ok a t : EStateM.Result Fault State α) = .error r u → R s u) :=
  ⟨fun _ _ e => (EStateM.Result.ok.inj e).2 ▸ h, fun _ _ e => (nomatch e)⟩

theorem keeps_at_error {r : Fault} {s t : State} (h : R s t) :
    (∀ b u, (EStateM.Result.error r t : EStateM.Result Fault State α) = .ok b u → R s u) ∧
    (∀ r' u, (EStateM.Result.error r t : EStateM.Result Fault State α) = .error r' u → R s u) :=
  ⟨fun _ _ e => (nomatch e), fun _ _ e => (EStateM.Result.error.inj e).2 ▸ h⟩

theorem Op.Keeps.pure (h : ∀ s, R s s) (a : α) : Op.Keeps R (pure a : Op α) := fun s => keeps_at_ok (h s)

theorem Op.Keeps.bind (ht : ∀ s t u, R s t → R t u → R s u) {x : Op α} {f : α → Op β} (hx : Op.Keeps R x)
    (hf : ∀ a, Op.Keeps R (f a)) : Op.Keeps R (x >>= f) := by
  intro s
  cases h : x s with
  | ok a t =>
    refine ⟨fun b u e => ?_, fun r u e => ?_⟩ <;> rw [Op.bind_ok h] at e
    · exact ht _ _ _ ((hx s).1 _ _ h) ((hf a t).1 _ _ e)
    · exact ht _ _ _ ((hx s).1 _ _ h) ((hf a t).2 _ _ e)
  | error r t =>
    refine ⟨fun b u e => ?_, fun r' u e => ?_⟩ <;> rw [Op.bind_error h] at e
    · cases e
    · cases e; exact (hx s).2 _ _ h

/-- What an instruction's outcome is related to, where its pseudocode keeps the relation. -/
theorem runOp_keeps {m : Op Unit} (hm : Op.Keeps R m) {s t : State} (h : runOp m s = .next t) :
    R s t ∨ ∃ r u, R s u ∧ t = u.takeFault r := by
  rcases runOp_cases h with hok | ⟨r, u, he, rfl⟩
  · exact .inl ((hm s).1 _ _ hok)
  · exact .inr ⟨r, u, (hm s).2 _ _ he, rfl⟩

/-! ### The elementary operations -/

theorem raiseFatal_keeps (h : ∀ s, R s s) (r : Fault) : Op.Keeps R (raiseFatal r : Op α) := fun s => keeps_at_error (h s)

theorem memRead_keeps (h : ∀ s, R s s) (a : Int) : Op.Keeps R (memRead a) := by
  intro s
  rw [memRead_eq]
  split
  · exact keeps_at_error (h s)
  · exact keeps_at_ok (h s)

theorem getPc_keeps (h : ∀ s, R s s) : Op.Keeps R getPc := fun s => keeps_at_ok (h s)

theorem getSp_keeps (h : ∀ s, R s s) : Op.Keeps R getSp := fun s => keeps_at_ok (h s)

theorem getFp_keeps (h : ∀ s, R s s) : Op.Keeps R getFp := fun s => keeps_at_ok (h s)

theorem getCarry_keeps (h : ∀ s, R s s) : Op.Keeps R getCarry := fun s => keeps_at_ok (h s)

theorem setCarry_keeps (h : ∀ s v, R s { s with carry := v }) (c : Bool) : Op.Keeps R (setCarry c) := fun s => keeps_at_ok (h s c)

theorem setIe_keeps (h : ∀ s v, R s { s with ie := v }) (c : Bool) : Op.Keeps R (setIe c) := fun s => keeps_at_ok (h s c)

theorem setPc_keeps (h : ∀ s, R s s) (hp : ∀ s v, R s { s with pc := v }) (v : Int) : Op.Keeps R (setPc v) := by
  intro s
  unfold setPc
  split
  · exact keeps_at_ok (hp s _)
  · exact keeps_at_error (h s)

theorem setSp_keeps (h : ∀ s, R s s) (hp : ∀ s v, R s { s with sp := v }) (v : Int) : Op.Keeps R (setSp v) := by
  intro s
  unfold setSp
  split
  · exact keeps_at_ok (hp s _)
  · exact keeps_at_error (h s)

theorem setFp_keeps (h : ∀ s, R s s) (hp : ∀ s v, R s { s with fp := v }) (v : Int) : Op.Keeps R (setFp v) := by
  intro s
  unfold setFp
  split
  · exact keeps_at_ok (hp s _)
  · exact keeps_at_error (h s)

theorem memWrite_keeps (h : ∀ s, R s s) (hm : ∀ s (a : Nat) w, a < s.cfg.romBase → R s { s with mem := s.mem.write a w })
    (a : Int) (w : Word) : Op.Keeps R (memWrite a w) := by
  intro s
  rw [memWrite_eq]
  split
  · exact keeps_at_error (h s)
  · split
    · exact keeps_at_error (h s)
    · exact keeps_at_ok (hm s _ w (by omega))

theorem returnAddress_keeps (h : ∀ s, R s s) (hd : ∀ s v, R s { s with draws := v }) : Op.Keeps R returnAddress := by
  intro s
  unfold returnAddress
  split
  · exact keeps_at_ok (h s)
  · exact keeps_at_ok (hd s _)

/-! ### The named operations over a tolerant relation -/

section
variable (T : Tolerant R)
include T

theorem advance_keeps (n : Nat) : Op.Keeps R (advance n) :=
  .bind T.trans (getPc_keeps T.refl) fun _ => setPc_keeps T.refl T.pc _

theorem push_keeps (w : Word) : Op.Keeps R (push w) :=
  .bind T.trans (getSp_keeps T.refl) fun _ => .bind T.trans (setSp_keeps T.refl T.sp _) fun _ =>
    memWrite_keeps T.refl T.mem _ w

theorem pop_keeps : Op.Keeps R pop :=
  .bind T.trans (getSp_keeps T.refl) fun _ => .bind T.trans (memRead_keeps T.refl _) fun _ =>
    .bind T.trans (setSp_keeps T.refl T.sp _) fun _ => .pure T.refl _

theorem pushL_keeps (v : Long) : Op.Keeps R (pushL v) := .bind T.trans (push_keeps T _) fun _ => push_keeps T _

theorem popL_keeps : Op.Keeps R popL :=
  .bind T.trans (pop_keeps T) fun _ => .bind T.trans (pop_keeps T) fun _ => .pure T.refl _

theorem memReadLong_keeps (a : Int) : Op.Keeps R (memReadLong a) :=
  .bind T.trans (memRead_keeps T.refl _) fun _ => .bind T.trans (memRead_keeps T.refl _) fun _ => .pure T.refl _

theorem pushAll_keeps (ws : List Word) : Op.Keeps R (pushAll ws) := by
  induction ws with
  | nil => exact .pure T.refl _
  | cons w ws ih => exact .bind T.trans (push_keeps T w) fun _ => ih

theorem copyWords_keeps (src dst n : Nat) : Op.Keeps R (copyWords src dst n) := by
  induction n generalizing src dst with
  | zero => exact .pure T.refl _
  | succ n ih =>
    exact .bind T.trans (memRead_keeps T.refl _) fun _ => .bind T.trans (memWrite_keeps T.refl T.mem _ _) fun _ => ih _ _

theorem buildFrame_keeps (ra : Long) (n : Word) : Op.Keeps R (buildFrame ra n) :=
  .bind T.trans (getFp_keeps T.refl) fun _ => .bind T.trans (push_keeps T _) fun _ =>
    .bind T.trans (getSp_keeps T.refl) fun _ => .bind T.trans (setFp_keeps T.refl T.fp _) fun _ =>
    .bind T.trans (push_keeps T _) fun _ => .bind T.trans (push_keeps T _) fun _ =>
    .bind T.trans (push_keeps T _) fun _ => push_keeps T _

theorem tearDown_keeps : Op.Keeps R tearDown :=
  .bind T.trans (getFp_keeps T.refl) fun _ => .bind T.trans (memRead_keeps T.refl _) fun _ =>
    .bind T.trans (memReadLong_keeps T _) fun _ => .bind T.trans (memReadLong_keeps T _) fun _ =>
    .bind T.trans (setSp_keeps T.refl T.sp _) fun _ => .bind T.trans (setPc_keeps T.refl T.pc _) fun _ =>
    setFp_keeps T.refl T.fp _

theorem fpLoc_keeps : Op.Keeps R fpLoc :=
  .bind T.trans (getFp_keeps T.refl) fun _ => .bind T.trans (memRead_keeps T.refl _) fun n => by
    split
    · exact raiseFatal_keeps T.refl _
    · exact .pure T.refl _

theorem branch_keeps (target : Long) (c : Bool) : Op.Keeps R (branch target c) := by
  unfold branch
  split
  · exact setPc_keeps T.refl T.pc _
  · exact advance_keeps T _

theorem jumpOnWord_keeps (target : Long) (c : Word → Bool) : Op.Keeps R (jumpOnWord target c) :=
  .bind T.trans (pop_keeps T) fun _ => branch_keeps T _ _

theorem jumpOnWords_keeps (target : Long) (c : Word → Word → Bool) : Op.Keeps R (jumpOnWords target c) :=
  .bind T.trans (pop_keeps T) fun _ => .bind T.trans (pop_keeps T) fun _ => branch_keeps T _ _

theorem jumpOnLong_keeps (target : Long) (c : Long → Bool) : Op.Keeps R (jumpOnLong target c) :=
  .bind T.trans (popL_keeps T) fun _ => branch_keeps T _ _

theorem jumpOnCarry_keeps (target : Long) (c : Bool → Bool) : Op.Keeps R (jumpOnCarry target c) :=
  .bind T.trans (getCarry_keeps T.refl) fun _ => branch_keeps T _ _

theorem binaryWordKeep_keeps (op : Word → Word → Word) : Op.Keeps R (binaryWordKeep op) :=
  .bind T.trans (pop_keeps T) fun _ => .bind T.trans (pop_keeps T) fun _ => .bind T.trans (push_keeps T _) fun _ =>
    advance_keeps T _

theorem binaryLongKeep_keeps (op : Long → Long → Long) : Op.Keeps R (binaryLongKeep op) :=
  .bind T.trans (popL_keeps T) fun _ => .bind T.trans (popL_keeps T) fun _ => .bind T.trans (pushL_keeps T _) fun _ =>
    advance_keeps T _

variable (hc : ∀ s v, R s { s with carry := v })
include hc

theorem setCarry_advance_keeps (c : Bool) : Op.Keeps R (do setCarry c; advance 1 : Op Unit) :=
  .bind T.trans (setCarry_keeps hc c) fun _ => advance_keeps T 1

theorem binaryWord_keeps (op : Word → Word → Word × Bool) : Op.Keeps R (binaryWord op) :=
  .bind T.trans (pop_keeps T) fun _ => .bind T.trans (pop_keeps T) fun _ => .bind T.trans (push_keeps T _) fun _ =>
    setCarry_advance_keeps T hc _

theorem binaryWordDiv_keeps (op : Word → Word → Word × Bool) : Op.Keeps R (binaryWordDiv op) :=
  .bind T.trans (pop_keeps T) fun b => .bind T.trans (pop_keeps T) fun _ => by
    split
    · exact raiseFatal_keeps T.refl _
    · exact .bind T.trans (push_keeps T _) fun _ => setCarry_advance_keeps T hc _

theorem binaryWordToLong_keeps (op : Word → Word → Long × Bool) : Op.Keeps R (binaryWordToLong op) :=
  .bind T.trans (pop_keeps T) fun _ => .bind T.trans (pop_keeps T) fun _ => .bind T.trans (pushL_keeps T _) fun _ =>
    setCarry_advance_keeps T hc _

theorem unaryWord_keeps (op : Word → Word × Bool) : Op.Keeps R (unaryWord op) :=
  .bind T.trans (pop_keeps T) fun _ => .bind T.trans (push_keeps T _) fun _ => setCarry_advance_keeps T hc _

theorem unaryWordCarry_keeps (op : Word → Bool → Word × Bool) : Op.Keeps R (unaryWordCarry op) :=
  .bind T.trans (pop_keeps T) fun _ => .bind T.trans (getCarry_keeps T.refl) fun _ =>
    .bind T.trans (push_keeps T _) fun _ => setCarry_advance_keeps T hc _

theorem binaryLong_keeps (op : Long → Long → Long × Bool) : Op.Keeps R (binaryLong op) :=
  .bind T.trans (popL_keeps T) fun _ => .bind T.trans (popL_keeps T) fun _ => .bind T.trans (pushL_keeps T _) fun _ =>
    setCarry_advance_keeps T hc _

theorem binaryLongDiv_keeps (op : Long → Long → Long × Bool) : Op.Keeps R (binaryLongDiv op) :=
  .bind T.trans (popL_keeps T) fun b => .bind T.trans (popL_keeps T) fun _ => by
    split
    · exact raiseFatal_keeps T.refl _
    · exact .bind T.trans (pushL_keeps T _) fun _ => setCarry_advance_keeps T hc _

theorem unaryLong_keeps (op : Long → Long × Bool) : Op.Keeps R (unaryLong op) :=
  .bind T.trans (popL_keeps T) fun _ => .bind T.trans (pushL_keeps T _) fun _ => setCarry_advance_keeps T hc _

/-- Every instruction but `eni`, `dsi` and `hlt` keeps a tolerant relation that allows a new carry. -/
theorem exec_keeps {i : Instr} (hi : i ≠ .eni ∧ i ≠ .dsi ∧ i ≠ .hlt) {s t : State} (h : exec i s = .next t) :
    R s t ∨ ∃ r u, R s u ∧ t = u.takeFault r := by
  cases i with
  | loadLit k =>
    simp only [exec, execLoadLit] at h
    refine runOp_keeps ?_ h
    exact .bind T.trans (push_keeps T _) fun _ => advance_keeps T _
  | loadLocal k =>
    refine runOp_keeps ?_ h
    exact .bind T.trans (fpLoc_keeps T) fun _ => .bind T.trans (memRead_keeps T.refl _) fun _ =>
      .bind T.trans (push_keeps T _) fun _ => advance_keeps T _
  | storeLocal k =>
    refine runOp_keeps ?_ h
    exact .bind T.trans (fpLoc_keeps T) fun _ => .bind T.trans (pop_keeps T) fun _ =>
      .bind T.trans (memWrite_keeps T.refl T.mem _ _) fun _ => advance_keeps T _
  | memc =>
    refine runOp_keeps ?_ h
    exact .bind T.trans (popL_keeps T) fun _ => .bind T.trans (popL_keeps T) fun _ =>
      .bind T.trans (popL_keeps T) fun _ => .bind T.trans (copyWords_keeps T _ _ _) fun _ => advance_keeps T _
  | add | sub | mul =>
    refine runOp_keeps ?_ h
    exact binaryWord_keeps T hc _
  | mul2 =>
    refine runOp_keeps ?_ h
    exact binaryWordToLong_keeps T hc _
  | div | mod =>
    refine runOp_keeps ?_ h
    exact binaryWordDiv_keeps T hc _
  | neg | not | inc | dec =>
    refine runOp_keeps ?_ h
    exact unaryWord_keeps T hc _
  | or | xor | and =>
    refine runOp_keeps ?_ h
    exact binaryWordKeep_keeps T _
  | rotLC | rotRC =>
    refine runOp_keeps ?_ h
    exact unaryWordCarry_keeps T hc _
  | addL | subL | mulL =>
    refine runOp_keeps ?_ h
    exact binaryLong_keeps T hc _
  | divL | modL =>
    refine runOp_keeps ?_ h
    exact binaryLongDiv_keeps T hc _
  | negL | notL | incL | decL =>
    refine runOp_keeps ?_ h
    exact unaryLong_keeps T hc _
  | orL | xorL | andL =>
    refine runOp_keeps ?_ h
    exact binaryLongKeep_keeps T _
  | jmp t =>
    simp only [exec, execJmp] at h
    refine runOp_keeps ?_ h
    exact branch_keeps T _ _
  | jz t | jnz t | jgz t | jlz t | jge t | jle t =>
    refine runOp_keeps ?_ h
    exact jumpOnWord_keeps T _ _
  | jc t | jcz t =>
    refine runOp_keeps ?_ h
    exact jumpOnCarry_keeps T _ _
  | jeq t | jneq t =>
    refine runOp_keeps ?_ h
    exact jumpOnWords_keeps T _ _
  | jro =>
    refine runOp_keeps ?_ h
    exact .bind T.trans (pop_keeps T) fun _ => .bind T.trans (getPc_keeps T.refl) fun _ =>
      setPc_keeps T.refl T.pc _
  | jzL t | jnzL t | jgzL t | jlzL t =>
    refine runOp_keeps ?_ h
    exact jumpOnLong_keeps T _ _
  | call t =>
    refine runOp_keeps ?_ h
    exact .bind T.trans (memRead_keeps T.refl _) fun _ => .bind T.trans (memRead_keeps T.refl _) fun _ =>
      .bind T.trans (getSp_keeps T.refl) fun _ => .bind T.trans (setSp_keeps T.refl T.sp _) fun _ =>
      .bind T.trans (returnAddress_keeps T.refl T.draws) fun _ => .bind T.trans (buildFrame_keeps T _ _) fun _ =>
      setPc_keeps T.refl T.pc _
  | ret =>
    refine runOp_keeps ?_ h
    exact tearDown_keeps T
  | ret1 =>
    refine runOp_keeps ?_ h
    exact .bind T.trans (getSp_keeps T.refl) fun _ => .bind T.trans (memRead_keeps T.refl _) fun _ =>
      .bind T.trans (tearDown_keeps T) fun _ => push_keeps T _
  | ret2 =>
    refine runOp_keeps ?_ h
    exact .bind T.trans (getSp_keeps T.refl) fun _ => .bind T.trans (memRead_keeps T.refl _) fun _ =>
      .bind T.trans (memRead_keeps T.refl _) fun _ => .bind T.trans (tearDown_keeps T) fun _ =>
      .bind T.trans (push_keeps T _) fun _ => push_keeps T _
  | eni => exact absurd rfl hi.1
  | dsi => exact absurd rfl hi.2.1
  | hlt => exact absurd rfl hi.2.2

end

/-- Delivery keeps a tolerant relation that allows the slot to be cleared. -/
theorem deliver_keeps (T : Tolerant R) (hp : ∀ s, R s { s with pending := none }) (vec : Long) (args : List Word) :
    Op.Keeps R (deliver vec args) :=
  .bind T.trans (pushAll_keeps T _) fun _ => .bind T.trans (getPc_keeps T.refl) fun _ =>
    .bind T.trans (buildFrame_keeps T _ _) fun _ => .bind T.trans (setPc_keeps T.refl T.pc _) fun _ => fun s =>
    keeps_at_ok (hp s)

end Sys2Proof.Machine
end

