-- ==== Sys2Proof/Laws/PerInstr.lean ====
section
/-! SUPPORT. A statement for every instruction, made per instruction: the number of words of its encoding (spec/30_encoding.md
R81: 1 in format N, 2 in K and JR, 3 in A, 4 in J). -/

namespace Sys2Proof.Laws.EncodedLength

/-- An instruction that has words under a configuration has as many as its format says. -/
def Statement (i : Instr) : Prop := ∀ c : Config, encode c i ≠ [] → (encode c i).length = i.length

/-- Why it holds of any instruction: each branch of the encoder that gives words gives the opcode word, the mode word of a `jmp`
and the operand words. -/
theorem of_instr (i : Instr) : Statement i := by
  intro c h
  unfold encode at h ⊢
  unfold Instr.length
  split
  · simp_all
  · cases hm : i.mode with
    | none => simp [Nat.add_comm]
    | some m =>
      simp only [hm] at h ⊢
      split
      · simp_all
      · simp; omega

theorem loadLit (k : Word) : Statement (.loadLit k) := of_instr _
theorem loadLocal (k : Word) : Statement (.loadLocal k) := of_instr _
theorem storeLocal (k : Word) : Statement (.storeLocal k) := of_instr _
theorem memc : Statement .memc := of_instr _
theorem add : Statement .add := of_instr _
theorem sub : Statement .sub := of_instr _
theorem mul : Statement .mul := of_instr _
theorem mul2 : Statement .mul2 := of_instr _
theorem div : Statement .div := of_instr _
theorem mod : Statement .mod := of_instr _
theorem neg : Statement .neg := of_instr _
theorem not : Statement .not := of_instr _
theorem inc : Statement .inc := of_instr _
theorem dec : Statement .dec := of_instr _
theorem or : Statement .or := of_instr _
theorem xor : Statement .xor := of_instr _
theorem and : Statement .and := of_instr _
theorem rotLC : Statement .rotLC := of_instr _
theorem rotRC : Statement .rotRC := of_instr _
theorem addL : Statement .addL := of_instr _
theorem subL : Statement .subL := of_instr _
theorem mulL : Statement .mulL := of_instr _
theorem divL : Statement .divL := of_instr _
theorem modL : Statement .modL := of_instr _
theorem negL : Statement .negL := of_instr _
theorem notL : Statement .notL := of_instr _
theorem incL : Statement .incL := of_instr _
theorem decL : Statement .decL := of_instr _
theorem orL : Statement .orL := of_instr _
theorem xorL : Statement .xorL := of_instr _
theorem andL : Statement .andL := of_instr _
theorem jmp (target : Long) : Statement (.jmp target) := of_instr _
theorem jz (target : Long) : Statement (.jz target) := of_instr _
theorem jnz (target : Long) : Statement (.jnz target) := of_instr _
theorem jc (target : Long) : Statement (.jc target) := of_instr _
theorem jcz (target : Long) : Statement (.jcz target) := of_instr _
theorem jgz (target : Long) : Statement (.jgz target) := of_instr _
theorem jlz (target : Long) : Statement (.jlz target) := of_instr _
theorem jge (target : Long) : Statement (.jge target) := of_instr _
theorem jle (target : Long) : Statement (.jle target) := of_instr _
theorem jeq (target : Long) : Statement (.jeq target) := of_instr _
theorem jneq (target : Long) : Statement (.jneq target) := of_instr _
theorem jro : Statement .jro := of_instr _
theorem jzL (target : Long) : Statement (.jzL target) := of_instr _
theorem jnzL (target : Long) : Statement (.jnzL target) := of_instr _
theorem jgzL (target : Long) : Statement (.jgzL target) := of_instr _
theorem jlzL (target : Long) : Statement (.jlzL target) := of_instr _
theorem call (target : Long) : Statement (.call target) := of_instr _
theorem ret : Statement .ret := of_instr _
theorem ret1 : Statement .ret1 := of_instr _
theorem ret2 : Statement .ret2 := of_instr _
theorem eni : Statement .eni := of_instr _
theorem dsi : Statement .dsi := of_instr _
theorem hlt : Statement .hlt := of_instr _

end Sys2Proof.Laws.EncodedLength
end

