-- ==== Sys2Proof/Laws/Shapes.lean ====
section
/-! SUPPORT. What the common shapes of the instructions give where they go on to their end. -/

namespace Sys2Proof.Machine

variable {s : State}

theorem bind_setCarry (c : Bool) (n : Nat) (h : s.pc.toNat + n < addressLimit) :
    (do setCarry c; advance n : Op Unit) s = .ok () { s with carry := c, pc := s.pc + BitVec.ofNat 24 n } := by
  rw [Op.bind_ok (show setCarry c s = .ok () { s with carry := c } from rfl)]
  exact advance_ok (s := { s with carry := c }) h

theorem romBase_le_memSize (c : Config) : c.romBase ≤ c.memSize := Nat.le_add_right _ _

/-- The push of a result where a popped operand was. -/
theorem push_after_pop {w : Word} (hs : 1 ≤ s.sp.toNat) (hw : s.writable s.sp.toNat) :
    push w { s with sp := s.sp - 1 } = .ok () { s with mem := s.mem.write s.sp.toNat w } := by
  have hp := toNat_pred_of_pos s.sp hs
  have hlt := long_toNat_lt s.sp
  rw [push_ok (s := { s with sp := s.sp - 1 }) (by simp only [hp]; show _ < s.cfg.romBase; have := hw; simp only [State.writable] at this; omega)
    (by simp only [hp]; omega)]
  simp only [hp, BitVec.sub_add_cancel, show s.sp.toNat - 1 + 1 = s.sp.toNat by omega]

theorem pop_two (h : s.readable s.sp.toNat) (h2 : 2 ≤ s.sp.toNat) :
    pop s = .ok (s.stackWord 0) { s with sp := s.sp - 1 } ∧
    pop { s with sp := s.sp - 1 } = .ok (s.stackWord 1) { s with sp := s.sp - 1 - 1 } := by
  have hp := toNat_pred_of_pos s.sp (by omega)
  refine ⟨pop_ok h (by omega), ?_⟩
  rw [pop_ok (s := { s with sp := s.sp - 1 }) (by simp only [hp]; simp only [State.readable] at h; omega) (by simp only [hp]; omega)]
  simp only [hp]

theorem binaryWord_ok {op : Word → Word → Word × Bool} (h : s.binaryWordReady) :
    binaryWord op s = .ok () (s.afterBinaryWord (op (s.stackWord 1) (s.stackWord 0)).1 (op (s.stackWord 1) (s.stackWord 0)).2) := by
  obtain ⟨h2, hr, hw, ha⟩ := h
  have hp := toNat_pred_of_pos s.sp (by omega)
  unfold binaryWord
  rw [Op.bind_ok (pop_two hr h2).1, Op.bind_ok (pop_two hr h2).2,
    Op.bind_ok (push_after_pop (s := { s with sp := s.sp - 1 }) (by simp only [hp]; omega) (by simpa only [State.writable, hp] using hw))]
  simp only [hp]
  exact bind_setCarry _ 1 (s := { s with sp := s.sp - 1, mem := _ }) ha

theorem binaryWordKeep_ok {op : Word → Word → Word} (h : s.binaryWordReady) :
    binaryWordKeep op s = .ok () (s.afterBinaryWord (op (s.stackWord 1) (s.stackWord 0)) s.carry) := by
  obtain ⟨h2, hr, hw, ha⟩ := h
  have hp := toNat_pred_of_pos s.sp (by omega)
  unfold binaryWordKeep
  rw [Op.bind_ok (pop_two hr h2).1, Op.bind_ok (pop_two hr h2).2,
    Op.bind_ok (push_after_pop (s := { s with sp := s.sp - 1 }) (by simp only [hp]; omega) (by simpa only [State.writable, hp] using hw))]
  simp only [hp]
  exact advance_ok (s := { s with sp := s.sp - 1, mem := _ }) ha

theorem binaryWordDiv_ok {op : Word → Word → Word × Bool} (h : s.binaryWordReady) (h0 : s.stackWord 0 ≠ 0) :
    binaryWordDiv op s =
      .ok () (s.afterBinaryWord (op (s.stackWord 1) (s.stackWord 0)).1 (op (s.stackWord 1) (s.stackWord 0)).2) := by
  obtain ⟨h2, hr, hw, ha⟩ := h
  have hp := toNat_pred_of_pos s.sp (by omega)
  unfold binaryWordDiv
  rw [Op.bind_ok (pop_two hr h2).1, Op.bind_ok (pop_two hr h2).2, if_neg h0,
    Op.bind_ok (push_after_pop (s := { s with sp := s.sp - 1 }) (by simp only [hp]; omega) (by simpa only [State.writable, hp] using hw))]
  simp only [hp]
  exact bind_setCarry _ 1 (s := { s with sp := s.sp - 1, mem := _ }) ha

theorem unaryWord_ok {op : Word → Word × Bool} (h : s.unaryWordReady) :
    unaryWord op s = .ok () (s.afterUnaryWord (op (s.stackWord 0)).1 (op (s.stackWord 0)).2) := by
  obtain ⟨h1, hw, ha⟩ := h
  have hm := romBase_le_memSize s.cfg
  unfold unaryWord
  rw [Op.bind_ok (pop_ok (by simp only [State.writable] at hw; omega) h1), Op.bind_ok (push_after_pop h1 hw)]
  exact bind_setCarry _ 1 (s := { s with mem := _ }) ha

theorem unaryWordCarry_ok {op : Word → Bool → Word × Bool} (h : s.unaryWordReady) :
    unaryWordCarry op s = .ok () (s.afterUnaryWord (op (s.stackWord 0) s.carry).1 (op (s.stackWord 0) s.carry).2) := by
  obtain ⟨h1, hw, ha⟩ := h
  have hm := romBase_le_memSize s.cfg
  unfold unaryWordCarry
  rw [Op.bind_ok (pop_ok (by simp only [State.writable] at hw; omega) h1),
    Op.bind_ok (show getCarry { s with sp := s.sp - 1 } = .ok s.carry _ from rfl), Op.bind_ok (push_after_pop h1 hw)]
  exact bind_setCarry _ 1 (s := { s with mem := _ }) ha

/-! ### Longs -/

/-- The push of a long where a popped long was. -/
theorem pushL_after_popL {v : Long} (hs : 2 ≤ s.sp.toNat) (hw : s.writable s.sp.toNat) :
    pushL v { s with sp := s.sp - 2 } =
      .ok () { s with mem := (s.mem.write (s.sp.toNat - 1) (hiWord v)).write s.sp.toNat (loWord v) } := by
  have hp : (s.sp - 2).toNat = s.sp.toNat - 2 := toNat_sub_of_le s.sp 2 hs
  have hlt := long_toNat_lt s.sp
  simp only [State.writable] at hw
  rw [pushL_ok (s := { s with sp := s.sp - 2 }) (by simp only [hp]; omega) (by simp only [hp]; omega)]
  simp only [hp, BitVec.sub_add_cancel, show s.sp.toNat - 2 + 1 = s.sp.toNat - 1 by omega,
    show s.sp.toNat - 2 + 2 = s.sp.toNat by omega]

theorem popL_two (h : s.readable s.sp.toNat) (h4 : 4 ≤ s.sp.toNat) :
    popL s = .ok s.topLong { s with sp := s.sp - 2 } ∧
    popL { s with sp := s.sp - 2 } = .ok s.underLong { s with sp := s.sp - 2 - 2 } := by
  have hp : (s.sp - 2).toNat = s.sp.toNat - 2 := toNat_sub_of_le s.sp 2 (by omega)
  refine ⟨popL_ok h (by omega), ?_⟩
  rw [popL_ok (s := { s with sp := s.sp - 2 }) (by simp only [hp]; simp only [State.readable] at h; omega) (by simp only [hp]; omega)]
  simp only [hp, State.underLong, State.stackWord, show s.sp.toNat - 2 - 1 = s.sp.toNat - 3 by omega]

theorem binaryLong_ok {op : Long → Long → Long × Bool} (h : s.binaryLongReady) :
    binaryLong op s = .ok () (s.afterBinaryLong (op s.underLong s.topLong).1 (op s.underLong s.topLong).2) := by
  obtain ⟨h4, hr, hw, ha⟩ := h
  have hp : (s.sp - 2).toNat = s.sp.toNat - 2 := toNat_sub_of_le s.sp 2 (by omega)
  unfold binaryLong
  rw [Op.bind_ok (popL_two hr h4).1, Op.bind_ok (popL_two hr h4).2,
    Op.bind_ok (pushL_after_popL (s := { s with sp := s.sp - 2 }) (by simp only [hp]; omega) (by simpa only [State.writable, hp] using hw))]
  simp only [hp, show s.sp.toNat - 2 - 1 = s.sp.toNat - 3 by omega]
  exact bind_setCarry _ 1 (s := { s with sp := s.sp - 2, mem := _ }) ha

theorem binaryLongKeep_ok {op : Long → Long → Long} (h : s.binaryLongReady) :
    binaryLongKeep op s = .ok () (s.afterBinaryLong (op s.underLong s.topLong) s.carry) := by
  obtain ⟨h4, hr, hw, ha⟩ := h
  have hp : (s.sp - 2).toNat = s.sp.toNat - 2 := toNat_sub_of_le s.sp 2 (by omega)
  unfold binaryLongKeep
  rw [Op.bind_ok (popL_two hr h4).1, Op.bind_ok (popL_two hr h4).2,
    Op.bind_ok (pushL_after_popL (s := { s with sp := s.sp - 2 }) (by simp only [hp]; omega) (by simpa only [State.writable, hp] using hw))]
  simp only [hp, show s.sp.toNat - 2 - 1 = s.sp.toNat - 3 by omega]
  exact advance_ok (s := { s with sp := s.sp - 2, mem := _ }) ha

theorem binaryLongDiv_ok {op : Long → Long → Long × Bool} (h : s.binaryLongReady) (h0 : s.topLong ≠ 0) :
    binaryLongDiv op s = .ok () (s.afterBinaryLong (op s.underLong s.topLong).1 (op s.underLong s.topLong).2) := by
  obtain ⟨h4, hr, hw, ha⟩ := h
  have hp : (s.sp - 2).toNat = s.sp.toNat - 2 := toNat_sub_of_le s.sp 2 (by omega)
  unfold binaryLongDiv
  rw [Op.bind_ok (popL_two hr h4).1, Op.bind_ok (popL_two hr h4).2, if_neg h0,
    Op.bind_ok (pushL_after_popL (s := { s with sp := s.sp - 2 }) (by simp only [hp]; omega) (by simpa only [State.writable, hp] using hw))]
  simp only [hp, show s.sp.toNat - 2 - 1 = s.sp.toNat - 3 by omega]
  exact bind_setCarry _ 1 (s := { s with sp := s.sp - 2, mem := _ }) ha

theorem unaryLong_ok {op : Long → Long × Bool} (h : s.unaryLongReady) :
    unaryLong op s = .ok () (s.afterUnaryLong (op s.topLong).1 (op s.topLong).2) := by
  obtain ⟨h2, hw, ha⟩ := h
  have hm := romBase_le_memSize s.cfg
  unfold unaryLong
  rw [Op.bind_ok (popL_ok (by simp only [State.writable] at hw; omega) h2), Op.bind_ok (pushL_after_popL h2 hw)]
  exact bind_setCarry _ 1 (s := { s with mem := _ }) ha

theorem binaryWordToLong_ok {op : Word → Word → Long × Bool} (h : s.unaryLongReady) :
    binaryWordToLong op s =
      .ok () (s.afterUnaryLong (op (s.stackWord 1) (s.stackWord 0)).1 (op (s.stackWord 1) (s.stackWord 0)).2) := by
  obtain ⟨h2, hw, ha⟩ := h
  have hm := romBase_le_memSize s.cfg
  have hr : s.readable s.sp.toNat := by simp only [State.writable, State.readable] at hw ⊢; omega
  unfold binaryWordToLong
  rw [Op.bind_ok (pop_two hr h2).1, Op.bind_ok (pop_two hr h2).2, show s.sp - 1 - 1 = s.sp - 2 by bv_omega,
    Op.bind_ok (pushL_after_popL h2 hw)]
  exact bind_setCarry _ 1 (s := { s with mem := _ }) ha

/-! ### Jumps -/

theorem branch_ok {target : Long} {c : Bool} (h : c = false → s.canAdvance 4) :
    branch target c s = .ok () { s with pc := if c then target else s.pc + 4 } := by
  unfold branch
  cases c with
  | true =>
    rw [if_pos rfl, setPc_ok (long_toNat_lt _), ofNat24_toNat]
    rfl
  | false =>
    rw [if_neg (by decide)]
    exact advance_ok (h rfl)

theorem jumpOnWord_ok {target : Long} {cond : Word → Bool} (h1 : 1 ≤ s.sp.toNat) (hr : s.readable s.sp.toNat)
    (h : cond (s.stackWord 0) = false → s.canAdvance 4) :
    jumpOnWord target cond s = .ok () (s.afterJump 1 target (cond (s.stackWord 0))) := by
  unfold jumpOnWord
  rw [Op.bind_ok (pop_ok hr h1)]
  exact branch_ok (s := { s with sp := s.sp - 1 }) h

theorem jumpOnWords_ok {target : Long} {cond : Word → Word → Bool} (h2 : 2 ≤ s.sp.toNat) (hr : s.readable s.sp.toNat)
    (h : cond (s.stackWord 1) (s.stackWord 0) = false → s.canAdvance 4) :
    jumpOnWords target cond s = .ok () (s.afterJump 2 target (cond (s.stackWord 1) (s.stackWord 0))) := by
  unfold jumpOnWords
  rw [Op.bind_ok (pop_two hr h2).1, Op.bind_ok (pop_two hr h2).2, show s.sp - 1 - 1 = s.sp - 2 by bv_omega]
  exact branch_ok (s := { s with sp := s.sp - 2 }) h

theorem jumpOnLong_ok {target : Long} {cond : Long → Bool} (h2 : 2 ≤ s.sp.toNat) (hr : s.readable s.sp.toNat)
    (h : cond s.topLong = false → s.canAdvance 4) :
    jumpOnLong target cond s = .ok () (s.afterJump 2 target (cond s.topLong)) := by
  unfold jumpOnLong
  rw [Op.bind_ok (popL_ok hr h2)]
  exact branch_ok (s := { s with sp := s.sp - 2 }) h

theorem jumpOnCarry_ok {target : Long} {cond : Bool → Bool} (h : cond s.carry = false → s.canAdvance 4) :
    jumpOnCarry target cond s = .ok () (s.afterJump 0 target (cond s.carry)) := by
  unfold jumpOnCarry
  rw [Op.bind_ok (show getCarry s = .ok s.carry s from rfl), branch_ok h]
  simp [State.afterJump]

end Sys2Proof.Machine
end

