-- ==== Sys2Proof/Laws/State.lean ====
section
/-! SUPPORT. The small lemmas of State: one per field per named update, each true by `rfl`. -/

namespace Sys2Proof.Machine

@[simp] theorem State.takeFault_pc (s : State) (r : Fault) : (s.takeFault r).pc = s.pc := rfl
@[simp] theorem State.takeFault_sp (s : State) (r : Fault) : (s.takeFault r).sp = s.sp := rfl
@[simp] theorem State.takeFault_fp (s : State) (r : Fault) : (s.takeFault r).fp = s.fp := rfl
@[simp] theorem State.takeFault_carry (s : State) (r : Fault) : (s.takeFault r).carry = s.carry := rfl
@[simp] theorem State.takeFault_ie (s : State) (r : Fault) : (s.takeFault r).ie = s.ie := rfl
@[simp] theorem State.takeFault_halted (s : State) (r : Fault) : (s.takeFault r).halted = s.halted := rfl
@[simp] theorem State.takeFault_pending (s : State) (r : Fault) : (s.takeFault r).pending = s.pending := rfl
@[simp] theorem State.takeFault_missed (s : State) (r : Fault) : (s.takeFault r).missed = s.missed := rfl
@[simp] theorem State.takeFault_run (s : State) (r : Fault) : (s.takeFault r).run = .faulted r := rfl
@[simp] theorem State.takeFault_phase (s : State) (r : Fault) : (s.takeFault r).phase = s.phase := rfl
@[simp] theorem State.takeFault_mem (s : State) (r : Fault) : (s.takeFault r).mem = s.mem := rfl
@[simp] theorem State.takeFault_cfg (s : State) (r : Fault) : (s.takeFault r).cfg = s.cfg := rfl
@[simp] theorem State.takeFault_schedule (s : State) (r : Fault) : (s.takeFault r).schedule = s.schedule := rfl
@[simp] theorem State.takeFault_draws (s : State) (r : Fault) : (s.takeFault r).draws = s.draws := rfl

@[simp] theorem State.terminate_pc (s : State) (r : EndReason) : (s.terminate r).pc = s.pc := rfl
@[simp] theorem State.terminate_sp (s : State) (r : EndReason) : (s.terminate r).sp = s.sp := rfl
@[simp] theorem State.terminate_fp (s : State) (r : EndReason) : (s.terminate r).fp = s.fp := rfl
@[simp] theorem State.terminate_carry (s : State) (r : EndReason) : (s.terminate r).carry = s.carry := rfl
@[simp] theorem State.terminate_ie (s : State) (r : EndReason) : (s.terminate r).ie = s.ie := rfl
@[simp] theorem State.terminate_halted (s : State) (r : EndReason) : (s.terminate r).halted = s.halted := rfl
@[simp] theorem State.terminate_pending (s : State) (r : EndReason) : (s.terminate r).pending = s.pending := rfl
@[simp] theorem State.terminate_missed (s : State) (r : EndReason) : (s.terminate r).missed = s.missed := rfl
@[simp] theorem State.terminate_run (s : State) (r : EndReason) : (s.terminate r).run = .terminated r := rfl
@[simp] theorem State.terminate_phase (s : State) (r : EndReason) : (s.terminate r).phase = s.phase := rfl
@[simp] theorem State.terminate_mem (s : State) (r : EndReason) : (s.terminate r).mem = s.mem := rfl
@[simp] theorem State.terminate_cfg (s : State) (r : EndReason) : (s.terminate r).cfg = s.cfg := rfl
@[simp] theorem State.terminate_schedule (s : State) (r : EndReason) : (s.terminate r).schedule = s.schedule := rfl
@[simp] theorem State.terminate_draws (s : State) (r : EndReason) : (s.terminate r).draws = s.draws := rfl

@[simp] theorem State.deliverStop_pc (s : State) : (s.deliverStop).pc = s.pc := rfl
@[simp] theorem State.deliverStop_sp (s : State) : (s.deliverStop).sp = s.sp := rfl
@[simp] theorem State.deliverStop_fp (s : State) : (s.deliverStop).fp = s.fp := rfl
@[simp] theorem State.deliverStop_carry (s : State) : (s.deliverStop).carry = s.carry := rfl
@[simp] theorem State.deliverStop_ie (s : State) : (s.deliverStop).ie = s.ie := rfl
@[simp] theorem State.deliverStop_halted (s : State) : (s.deliverStop).halted = s.halted := rfl
@[simp] theorem State.deliverStop_pending (s : State) : (s.deliverStop).pending = none := rfl
@[simp] theorem State.deliverStop_missed (s : State) : (s.deliverStop).missed = s.missed := rfl
@[simp] theorem State.deliverStop_run (s : State) : (s.deliverStop).run = .terminated .stop := rfl
@[simp] theorem State.deliverStop_phase (s : State) : (s.deliverStop).phase = s.phase := rfl
@[simp] theorem State.deliverStop_mem (s : State) : (s.deliverStop).mem = s.mem := rfl
@[simp] theorem State.deliverStop_cfg (s : State) : (s.deliverStop).cfg = s.cfg := rfl
@[simp] theorem State.deliverStop_schedule (s : State) : (s.deliverStop).schedule = s.schedule := rfl
@[simp] theorem State.deliverStop_draws (s : State) : (s.deliverStop).draws = s.draws := rfl

@[simp] theorem State.haltDisabled_pc (s : State) : (s.haltDisabled).pc = haltPc s.draws s.pc := rfl
@[simp] theorem State.haltDisabled_sp (s : State) : (s.haltDisabled).sp = s.sp := rfl
@[simp] theorem State.haltDisabled_fp (s : State) : (s.haltDisabled).fp = s.fp := rfl
@[simp] theorem State.haltDisabled_carry (s : State) : (s.haltDisabled).carry = s.carry := rfl
@[simp] theorem State.haltDisabled_ie (s : State) : (s.haltDisabled).ie = s.ie := rfl
@[simp] theorem State.haltDisabled_halted (s : State) : (s.haltDisabled).halted = s.halted := rfl
@[simp] theorem State.haltDisabled_pending (s : State) : (s.haltDisabled).pending = s.pending := rfl
@[simp] theorem State.haltDisabled_missed (s : State) : (s.haltDisabled).missed = s.missed := rfl
@[simp] theorem State.haltDisabled_run (s : State) : (s.haltDisabled).run = .terminated .haltDisabled := rfl
@[simp] theorem State.haltDisabled_phase (s : State) : (s.haltDisabled).phase = s.phase := rfl
@[simp] theorem State.haltDisabled_mem (s : State) : (s.haltDisabled).mem = s.mem := rfl
@[simp] theorem State.haltDisabled_cfg (s : State) : (s.haltDisabled).cfg = s.cfg := rfl
@[simp] theorem State.haltDisabled_schedule (s : State) : (s.haltDisabled).schedule = s.schedule := rfl
@[simp] theorem State.haltDisabled_draws (s : State) : (s.haltDisabled).draws = s.draws + 1 := rfl

@[simp] theorem State.placeAtPc_pc (s : State) (ws : List Word) : (s.placeAtPc ws).pc = s.pc := rfl
@[simp] theorem State.placeAtPc_sp (s : State) (ws : List Word) : (s.placeAtPc ws).sp = s.sp := rfl
@[simp] theorem State.placeAtPc_fp (s : State) (ws : List Word) : (s.placeAtPc ws).fp = s.fp := rfl
@[simp] theorem State.placeAtPc_carry (s : State) (ws : List Word) : (s.placeAtPc ws).carry = s.carry := rfl
@[simp] theorem State.placeAtPc_ie (s : State) (ws : List Word) : (s.placeAtPc ws).ie = s.ie := rfl
@[simp] theorem State.placeAtPc_halted (s : State) (ws : List Word) : (s.placeAtPc ws).halted = false := rfl
@[simp] theorem State.placeAtPc_pending (s : State) (ws : List Word) : (s.placeAtPc ws).pending = s.pending := rfl
@[simp] theorem State.placeAtPc_missed (s : State) (ws : List Word) : (s.placeAtPc ws).missed = s.missed := rfl
@[simp] theorem State.placeAtPc_run (s : State) (ws : List Word) : (s.placeAtPc ws).run = .running := rfl
@[simp] theorem State.placeAtPc_phase (s : State) (ws : List Word) : (s.placeAtPc ws).phase = .exec := rfl
@[simp] theorem State.placeAtPc_mem (s : State) (ws : List Word) : (s.placeAtPc ws).mem = placeWords s.cfg s.mem s.pc.toNat ws := rfl
@[simp] theorem State.placeAtPc_cfg (s : State) (ws : List Word) : (s.placeAtPc ws).cfg = s.cfg := rfl
@[simp] theorem State.placeAtPc_schedule (s : State) (ws : List Word) : (s.placeAtPc ws).schedule = [] := rfl
@[simp] theorem State.placeAtPc_draws (s : State) (ws : List Word) : (s.placeAtPc ws).draws = s.draws := rfl

@[simp] theorem State.resetWith_pc (c : Config) (m : Memory) : (State.resetWith c m).pc = c.entryPc := rfl
@[simp] theorem State.resetWith_sp (c : Config) (m : Memory) : (State.resetWith c m).sp = 4 := rfl
@[simp] theorem State.resetWith_fp (c : Config) (m : Memory) : (State.resetWith c m).fp = 0 := rfl
@[simp] theorem State.resetWith_carry (c : Config) (m : Memory) : (State.resetWith c m).carry = false := rfl
@[simp] theorem State.resetWith_ie (c : Config) (m : Memory) : (State.resetWith c m).ie = false := rfl
@[simp] theorem State.resetWith_halted (c : Config) (m : Memory) : (State.resetWith c m).halted = false := rfl
@[simp] theorem State.resetWith_pending (c : Config) (m : Memory) : (State.resetWith c m).pending = none := rfl
@[simp] theorem State.resetWith_missed (c : Config) (m : Memory) : (State.resetWith c m).missed = 0 := rfl
@[simp] theorem State.resetWith_run (c : Config) (m : Memory) : (State.resetWith c m).run = .running := rfl
@[simp] theorem State.resetWith_phase (c : Config) (m : Memory) : (State.resetWith c m).phase = .check := rfl
@[simp] theorem State.resetWith_mem (c : Config) (m : Memory) : (State.resetWith c m).mem = m := rfl
@[simp] theorem State.resetWith_cfg (c : Config) (m : Memory) : (State.resetWith c m).cfg = c := rfl
@[simp] theorem State.resetWith_schedule (c : Config) (m : Memory) : (State.resetWith c m).schedule = [] := rfl
@[simp] theorem State.resetWith_draws (c : Config) (m : Memory) : (State.resetWith c m).draws = 0 := rfl

/-! The phase is all that `afterCheck` and `afterExec` write. -/

theorem State.afterCheck_eq (s : State) :
    s.afterCheck = if s.run = .running then { s with phase := .exec } else s := rfl

@[simp] theorem State.afterCheck_pc (s : State) : s.afterCheck.pc = s.pc := by
  unfold State.afterCheck; split <;> rfl
@[simp] theorem State.afterCheck_sp (s : State) : s.afterCheck.sp = s.sp := by
  unfold State.afterCheck; split <;> rfl
@[simp] theorem State.afterCheck_fp (s : State) : s.afterCheck.fp = s.fp := by
  unfold State.afterCheck; split <;> rfl
@[simp] theorem State.afterCheck_carry (s : State) : s.afterCheck.carry = s.carry := by
  unfold State.afterCheck; split <;> rfl
@[simp] theorem State.afterCheck_ie (s : State) : s.afterCheck.ie = s.ie := by
  unfold State.afterCheck; split <;> rfl
@[simp] theorem State.afterCheck_halted (s : State) : s.afterCheck.halted = s.halted := by
  unfold State.afterCheck; split <;> rfl
@[simp] theorem State.afterCheck_pending (s : State) : s.afterCheck.pending = s.pending := by
  unfold State.afterCheck; split <;> rfl
@[simp] theorem State.afterCheck_missed (s : State) : s.afterCheck.missed = s.missed := by
  unfold State.afterCheck; split <;> rfl
@[simp] theorem State.afterCheck_run (s : State) : s.afterCheck.run = s.run := by
  unfold State.afterCheck; split <;> rfl
@[simp] theorem State.afterCheck_mem (s : State) : s.afterCheck.mem = s.mem := by
  unfold State.afterCheck; split <;> rfl
@[simp] theorem State.afterCheck_cfg (s : State) : s.afterCheck.cfg = s.cfg := by
  unfold State.afterCheck; split <;> rfl
@[simp] theorem State.afterCheck_schedule (s : State) : s.afterCheck.schedule = s.schedule := by
  unfold State.afterCheck; split <;> rfl
@[simp] theorem State.afterCheck_draws (s : State) : s.afterCheck.draws = s.draws := by
  unfold State.afterCheck; split <;> rfl

theorem State.afterExec_eq (s : State) :
    s.afterExec = if s.run = .running then { s with phase := .check } else s := rfl

@[simp] theorem State.afterExec_pc (s : State) : s.afterExec.pc = s.pc := by
  unfold State.afterExec; split <;> rfl
@[simp] theorem State.afterExec_sp (s : State) : s.afterExec.sp = s.sp := by
  unfold State.afterExec; split <;> rfl
@[simp] theorem State.afterExec_fp (s : State) : s.afterExec.fp = s.fp := by
  unfold State.afterExec; split <;> rfl
@[simp] theorem State.afterExec_carry (s : State) : s.afterExec.carry = s.carry := by
  unfold State.afterExec; split <;> rfl
@[simp] theorem State.afterExec_ie (s : State) : s.afterExec.ie = s.ie := by
  unfold State.afterExec; split <;> rfl
@[simp] theorem State.afterExec_halted (s : State) : s.afterExec.halted = s.halted := by
  unfold State.afterExec; split <;> rfl
@[simp] theorem State.afterExec_pending (s : State) : s.afterExec.pending = s.pending := by
  unfold State.afterExec; split <;> rfl
@[simp] theorem State.afterExec_missed (s : State) : s.afterExec.missed = s.missed := by
  unfold State.afterExec; split <;> rfl
@[simp] theorem State.afterExec_run (s : State) : s.afterExec.run = s.run := by
  unfold State.afterExec; split <;> rfl
@[simp] theorem State.afterExec_mem (s : State) : s.afterExec.mem = s.mem := by
  unfold State.afterExec; split <;> rfl
@[simp] theorem State.afterExec_cfg (s : State) : s.afterExec.cfg = s.cfg := by
  unfold State.afterExec; split <;> rfl
@[simp] theorem State.afterExec_schedule (s : State) : s.afterExec.schedule = s.schedule := by
  unfold State.afterExec; split <;> rfl
@[simp] theorem State.afterExec_draws (s : State) : s.afterExec.draws = s.draws := by
  unfold State.afterExec; split <;> rfl

end Sys2Proof.Machine
end

