-- ==== Sys2Proof/Tests/Slice0.lean ====
section
/-! SUPPORT. The model's own tests: decoding of words written out from spec/30_encoding.md, ill-formed terms refused, single
steps with the results of the vectors of spec/95_test_vectors.md (each theorem names its vectors), and a witness for the
hypotheses of every statement that has some. -/

namespace Sys2Proof.Tests

-- One theorem at a time: the many small kernel evaluations need no threads.
set_option Elab.async false

open Sys2Proof Sys2Proof.Machine

/-! ### Helpers -/

/-- The start state of a single-instruction vector (95_test_vectors.md section 0), with the instruction at `pc`. -/
def startAt (pc : Nat) (ws stack : List Word) (c : Bool) : State :=
  { State.reset with
    pc := BitVec.ofNat 24 pc
    sp := BitVec.ofNat 24 (4 + stack.length)
    carry := c
    phase := .exec
    mem := placeWords testConfig (placeWords testConfig [] 5 stack) pc ws }

/-- The start state with the instruction at 0x002100. -/
def start (ws stack : List Word) (c : Bool) : State := startAt 0x2100 ws stack c

/-- More words in memory. -/
def with_ (s : State) (a : Nat) (ws : List Word) : State := { s with mem := placeWords s.cfg s.mem a ws }

/-- `mem[5..SP]`. -/
def stackOf (s : State) : List Word := (List.range (s.sp.toNat - 4)).map fun i => s.mem.read (5 + i)

/-- The words at an address. -/
def wordsAt (s : State) (a n : Nat) : List Word := (List.range n).map fun i => s.mem.read (a + i)

/-- The state after one step. -/
def next (s : State) : Option State :=
  match step s with
  | .next t => some t
  | .fault _ | .refused _ => none

/-- The state after two steps. -/
def next2 (s : State) : Option State := (next s).bind next

/-- Stack, carry and run state after one step. -/
def seen (s : State) : Option (List Word × Bool × RunState) := (next s).map fun t => (stackOf t, t.carry, t.run)

/-- PC, SP and run state after one step. -/
def went (s : State) : Option (Nat × Nat × RunState) := (next s).map fun t => (t.pc.toNat, t.sp.toNat, t.run)

/-- The words at an address, PC, SP, FP and the run state are as given. -/
def sees (s : Option State) (a : Nat) (ws : List Word) (pc sp fp : Nat) (run : RunState) : Bool :=
  match s with
  | some t => decide (wordsAt t a ws.length = ws) && decide (t.pc.toNat = pc) && decide (t.sp.toNat = sp) &&
      decide (t.fp.toNat = fp) && decide (t.run = run)
  | none => false

/-- PC, SP, FP and run state of a state. -/
def regs (s : State) : Nat × Nat × Nat × RunState := (s.pc.toNat, s.sp.toNat, s.fp.toNat, s.run)

/-! ### Decoding: words written out bit by bit from the encodings of 30_encoding.md and the opcode table -/

theorem test_decode_stack :
    decode testConfig [0b000000010000, 0b101010111100] = .ok (.loadLit 0b101010111100) ∧
    decode testConfig [0b000000010001, 0b000000000101] = .ok (.loadLocal 5) ∧
    decode testConfig [0b000000010010, 0b111111111111] = .ok (.storeLocal 0xFFF) ∧
    decode testConfig [0b000000010011] = .ok .memc := by
  decide +kernel

theorem test_decode_alu_word :
    decode testConfig [0b000000100000] = .ok .add ∧
    decode testConfig [0b000000100001] = .ok .sub ∧
    decode testConfig [0b000000100010] = .ok .mul ∧
    decode testConfig [0b000000100011] = .ok .mul2 ∧
    decode testConfig [0b000000100100] = .ok .div ∧
    decode testConfig [0b000000100101] = .ok .mod ∧
    decode testConfig [0b000000100110] = .ok .neg ∧
    decode testConfig [0b000000100111] = .ok .not ∧
    decode testConfig [0b000000101000] = .ok .inc ∧
    decode testConfig [0b000000101001] = .ok .dec ∧
    decode testConfig [0b000000101010] = .ok .or ∧
    decode testConfig [0b000000101011] = .ok .xor ∧
    decode testConfig [0b000000101100] = .ok .and ∧
    decode testConfig [0b000000101101] = .ok .rotLC ∧
    decode testConfig [0b000000101110] = .ok .rotRC := by
  decide +kernel

theorem test_decode_alu_long :
    decode testConfig [0b000001000000] = .ok .addL ∧
    decode testConfig [0b000001000001] = .ok .subL ∧
    decode testConfig [0b000001000010] = .ok .mulL ∧
    decode testConfig [0b000001000100] = .ok .divL ∧
    decode testConfig [0b000001000101] = .ok .modL ∧
    decode testConfig [0b000001000110] = .ok .negL ∧
    decode testConfig [0b000001000111] = .ok .notL ∧
    decode testConfig [0b000001001000] = .ok .incL ∧
    decode testConfig [0b000001001001] = .ok .decL ∧
    decode testConfig [0b000001001010] = .ok .orL ∧
    decode testConfig [0b000001001011] = .ok .xorL ∧
    decode testConfig [0b000001001100] = .ok .andL := by
  decide +kernel

theorem test_decode_jumps :
    decode testConfig [0b000001100000, 0b000000000000, 0b000000000010, 0b000000111100] = .ok (.jmp 0x00203C) ∧
    decode testConfig [0b000001100000, 0b000000000001, 0b000000000010, 0b000000111100] = .ok (.jz 0x00203C) ∧
    decode testConfig [0b000001100000, 0b000000000010, 0b000000000010, 0b000000111100] = .ok (.jnz 0x00203C) ∧
    decode testConfig [0b000001100000, 0b000000000011, 0b000000000010, 0b000000111100] = .ok (.jc 0x00203C) ∧
    decode testConfig [0b000001100000, 0b000000000100, 0b000000000010, 0b000000111100] = .ok (.jcz 0x00203C) ∧
    decode testConfig [0b000001100000, 0b000000000101, 0b000000000010, 0b000000111100] = .ok (.jgz 0x00203C) ∧
    decode testConfig [0b000001100000, 0b000000000110, 0b000000000010, 0b000000111100] = .ok (.jlz 0x00203C) ∧
    decode testConfig [0b000001100000, 0b000000000111, 0b000000000010, 0b000000111100] = .ok (.jge 0x00203C) ∧
    decode testConfig [0b000001100000, 0b000000001000, 0b000000000010, 0b000000111100] = .ok (.jle 0x00203C) ∧
    decode testConfig [0b000001100000, 0b000000001001, 0b000000000010, 0b000000111100] = .ok (.jeq 0x00203C) ∧
    decode testConfig [0b000001100000, 0b000000001010, 0b000000000010, 0b000000111100] = .ok (.jneq 0x00203C) ∧
    decode testConfig [0b000001100000, 0b000000010001, 0b000000000010, 0b000000111100] = .ok (.jzL 0x00203C) ∧
    decode testConfig [0b000001100000, 0b000000010010, 0b000000000010, 0b000000111100] = .ok (.jnzL 0x00203C) ∧
    decode testConfig [0b000001100000, 0b000000010101, 0b000000000010, 0b000000111100] = .ok (.jgzL 0x00203C) ∧
    decode testConfig [0b000001100000, 0b000000010110, 0b000000000010, 0b000000111100] = .ok (.jlzL 0x00203C) ∧
    decode testConfig [0b000001100000, 0b000000001011] = .ok .jro := by
  decide +kernel

theorem test_decode_call_return :
    decode testConfig [0b000001100001, 0b111111111110, 0b000000000001] = .ok (.call 0xFFE001) ∧
    decode testConfig [0b000001100010] = .ok .ret ∧
    decode testConfig [0b000001100011] = .ok .ret1 ∧
    decode testConfig [0b000001100100] = .ok .ret2 := by
  decide +kernel

theorem test_decode_system :
    decode testConfig [0b000001110000] = .ok .eni ∧
    decode testConfig [0b000001110001] = .ok .dsi ∧
    decode testConfig [0b000001110010] = .ok .hlt := by
  decide +kernel

/-- The gaps of the maps, at their edges (30_encoding.md R87). -/
theorem test_decode_gaps :
    [(0x000 : Word), 0x00F, 0x014, 0x01F, 0x02F, 0x03F, 0x043, 0x04D, 0x05F, 0x065, 0x06F, 0x073, 0xFFF].map
      (fun w => decode testConfig [w, 0, 0, 0]) = List.replicate 13 (.error .unknownOpcode) ∧
    [(0x00C : Word), 0x010, 0x013, 0x014, 0x017, 0xFFF].map
      (fun m => decode testConfig [0x060, m, 0, 0]) = List.replicate 6 (.error .unknownMode) := by decide +kernel

/-- An unknown opcode is known from word 0 alone, an unknown mode from word 1 (30_encoding.md R82, R89). -/
theorem test_decode_short :
    decode testConfig [0x000] = .error .unknownOpcode ∧ decode testConfig [0x060, 0x00C] = .error .unknownMode ∧
    decode testConfig [0x060] = .error .truncated ∧ decode testConfig [0x060, 0x001, 0x002] = .error .truncated ∧
    decode testConfig [0x061, 0x002] = .error .truncated ∧ decode testConfig [0x010] = .error .truncated ∧
    decode testConfig [] = .error .truncated := by decide +kernel

/-- The table's own numbering (30_encoding.md's preamble), and a later word counted on from the first (log 14). -/
theorem test_table_words :
    decodeTableWord 16 0x020 = some .add ∧ decodeTableWord 24 0x060001 = some (.jz 0) ∧
    decodeTableWord 24 0x06000B = some .jro ∧ decodeTableWord 24 0x001060 = some (.jz 0) ∧
    decodeTableWord 24 0xABC010 = some (.loadLit 0xABC) ∧ decodeTableWord 16 0x043 = none := by decide +kernel

theorem test_withFetchWord_runs :
    next (State.reset.withFetchWord 16 0x070) =
      some { (State.reset.withFetchWord 16 0x070) with ie := true, pc := 0x002101, phase := .check } := by decide +kernel

/-! ### Ill-formed terms are refused (WellFormed.lean) -/

/-- RAM too small for the start-up header; an address space beyond 2^24 (00_scope.md R6), each at its edge. -/
theorem test_config_sizes :
    testConfig.wf ∧ Config.sizesWf { testConfig with ramSize := 5 } ∧ ¬ Config.sizesWf { testConfig with ramSize := 4 } ∧
    Config.sizesWf { testConfig with romSize := 0xFFE000 } ∧ ¬ Config.sizesWf { testConfig with romSize := 0xFFE001 } := by
  decide +kernel

/-- One number with two meanings, one name with two numbers, in either map. -/
theorem test_config_maps :
    ¬ Config.mapsWf { testConfig with opcodeMap := [(0x020, .add), (0x020, .sub)] } ∧
    ¬ Config.mapsWf { testConfig with opcodeMap := [(0x020, .add), (0x021, .add)] } ∧
    ¬ Config.mapsWf { testConfig with modeMap := [(0x000, .z), (0x000, .nz)] } ∧
    ¬ Config.mapsWf { testConfig with modeMap := [(0x000, .z), (0x001, .z)] } := by decide +kernel

/-- An instruction whose opcode, or whose mode, has no number. -/
theorem test_instr_unmapped :
    ¬ Instr.wf { testConfig with opcodeMap := [(0x021, .sub)] } .add ∧
    ¬ Instr.wf { testConfig with modeMap := [(0x000, .jmp)] } (.jz 0) ∧
    encode { testConfig with modeMap := [(0x000, .jmp)] } (.jz 0) = [] := by decide +kernel

/-- A request of 0xFFF argument words is admitted, one of 0x1000 is not (60_exceptions.md R251). -/
theorem test_request_length (t : IrqType) :
    Request.wf ⟨t, List.replicate 0xFFF 0⟩ ∧ ¬ Request.wf ⟨t, List.replicate 0x1000 0⟩ := by
  constructor <;> simp only [Request.wf, List.length_replicate] <;> decide

/-- A memory out of order, one with a repeat, one that lists an unwritten word. -/
theorem test_memory_form :
    Memory.wf [(5, 1), (7, 2)] = true ∧ Memory.wf [(7, 1), (5, 2)] = false ∧ Memory.wf [(5, 1), (5, 2)] = false ∧
    Memory.wf [(5, 0)] = false ∧ Memory.write [(5, 1)] 5 0 = [] := by decide +kernel

/-! ### Word ALU: vectors A of 95_test_vectors.md -/

/-- Vectors A1, A2. -/
theorem test_add :
    seen (start [0x020] [0x800, 0x800] false) = some ([0x000], true, .running) ∧
    seen (start [0x020] [0x7FF, 0x800] false) = some ([0xFFF], false, .running) := by decide +kernel

/-- Vectors A8, A10. -/
theorem test_sub :
    seen (start [0x021] [0x003, 0x005] false) = some ([0xFFE], false, .running) ∧
    seen (start [0x021] [0x000, 0x001] true) = some ([0xFFF], false, .running) := by decide +kernel

/-- Vectors A14, A16. -/
theorem test_mul :
    seen (start [0x022] [0x040, 0x040] false) = some ([0x000], true, .running) ∧
    seen (start [0x022] [0x03F, 0x041] false) = some ([0xFFF], false, .running) := by decide +kernel

/-- Vectors A18, A21. -/
theorem test_mul2 :
    seen (start [0x023] [0xFFF, 0xFFF] true) = some ([0xFFE, 0x001], false, .running) ∧
    seen (start [0x023] [0x002, 0x003] true) = some ([0x000, 0x006], false, .running) := by decide +kernel

/-- Vectors A22. -/
theorem test_div :
    seen (start [0x024] [0x00A, 0x003] true) = some ([0x003], false, .running) := by decide +kernel

/-- Vectors A27. -/
theorem test_mod :
    seen (start [0x025] [0x00A, 0x003] true) = some ([0x001], false, .running) := by decide +kernel

/-- Vectors A31, A32. -/
theorem test_neg :
    seen (start [0x026] [0x000] true) = some ([0x000], false, .running) ∧
    seen (start [0x026] [0x001] false) = some ([0xFFF], true, .running) := by decide +kernel

/-- Vectors A35, A37. -/
theorem test_not :
    seen (start [0x027] [0x000] true) = some ([0xFFF], false, .running) ∧
    seen (start [0x027] [0x0F0] true) = some ([0xF0F], false, .running) := by decide +kernel

/-- Vectors A38, A39. -/
theorem test_inc :
    seen (start [0x028] [0xFFF] false) = some ([0x000], true, .running) ∧
    seen (start [0x028] [0x000] true) = some ([0x001], false, .running) := by decide +kernel

/-- Vectors A41, A42. -/
theorem test_dec :
    seen (start [0x029] [0x000] false) = some ([0xFFF], true, .running) ∧
    seen (start [0x029] [0x001] true) = some ([0x000], false, .running) := by decide +kernel

/-- Vectors A44, A45. -/
theorem test_or :
    seen (start [0x02A] [0xF0F, 0x0FF] true) = some ([0xFFF], true, .running) ∧
    seen (start [0x02A] [0xF0F, 0x0FF] false) = some ([0xFFF], false, .running) := by decide +kernel

/-- Vectors A46, A47. -/
theorem test_xor :
    seen (start [0x02B] [0xF0F, 0x0FF] true) = some ([0xFF0], true, .running) ∧
    seen (start [0x02B] [0xF0F, 0x0FF] false) = some ([0xFF0], false, .running) := by decide +kernel

/-- Vectors A48, A49. -/
theorem test_and :
    seen (start [0x02C] [0xF0F, 0x0FF] true) = some ([0x00F], true, .running) ∧
    seen (start [0x02C] [0xF0F, 0x0FF] false) = some ([0x00F], false, .running) := by decide +kernel

/-- Vectors A51, A53. -/
theorem test_rot_l_c :
    seen (start [0x02D] [0x001] true) = some ([0x003], false, .running) ∧
    seen (start [0x02D] [0xFFF] false) = some ([0xFFE], true, .running) := by decide +kernel

/-- Vectors A56, A58. -/
theorem test_rot_r_c :
    seen (start [0x02E] [0x800] true) = some ([0xC00], false, .running) ∧
    seen (start [0x02E] [0xFFF] false) = some ([0x7FF], true, .running) := by decide +kernel

/-- Vectors A26, A30: carry stays, nothing is written. -/
theorem test_word_divide_by_zero :
    seen (start [0x024] [0x007, 0x000] false) = some ([], false, .faulted .divideByZero) ∧
    seen (start [0x025] [0x005, 0x000] true) = some ([], true, .faulted .divideByZero) := by decide +kernel

/-! ### Long ALU: vectors L of 95_test_vectors.md -/

/-- Vectors L1, L2. -/
theorem test_add_l :
    seen (start [0x040] [0xFFF, 0xFFF, 0x000, 0x001] false) = some ([0x000, 0x000], true, .running) ∧
    seen (start [0x040] [0x000, 0xFFF, 0x000, 0x001] true) = some ([0x001, 0x000], false, .running) := by decide +kernel

/-- Vectors L5, L6. -/
theorem test_sub_l :
    seen (start [0x041] [0x000, 0x000, 0x000, 0x001] true) = some ([0xFFF, 0xFFF], false, .running) ∧
    seen (start [0x041] [0x001, 0x000, 0x000, 0x001] false) = some ([0x000, 0xFFF], false, .running) := by decide +kernel

/-- Vectors L8, L9. -/
theorem test_mul_l :
    seen (start [0x042] [0x001, 0x000, 0x001, 0x000] false) = some ([0x000, 0x000], true, .running) ∧
    seen (start [0x042] [0x000, 0xFFF, 0x000, 0xFFF] true) = some ([0xFFE, 0x001], false, .running) := by decide +kernel

/-- Vectors L12, L13. -/
theorem test_div_l :
    seen (start [0x044] [0x001, 0x000, 0x000, 0x002] true) = some ([0x000, 0x800], false, .running) ∧
    seen (start [0x044] [0xFFF, 0xFFF, 0x001, 0x000] false) = some ([0x000, 0xFFF], false, .running) := by decide +kernel

/-- Vectors L15, L16. -/
theorem test_mod_l :
    seen (start [0x045] [0x001, 0x001, 0x001, 0x000] true) = some ([0x000, 0x001], false, .running) ∧
    seen (start [0x045] [0xFFF, 0xFFF, 0x001, 0x000] false) = some ([0x000, 0xFFF], false, .running) := by decide +kernel

/-- Vectors L18, L20. -/
theorem test_neg_l :
    seen (start [0x046] [0x000, 0x000] true) = some ([0x000, 0x000], false, .running) ∧
    seen (start [0x046] [0x800, 0x000] false) = some ([0x800, 0x000], true, .running) := by decide +kernel

/-- Vectors L21, L22. -/
theorem test_not_l :
    seen (start [0x047] [0x000, 0x000] true) = some ([0xFFF, 0xFFF], false, .running) ∧
    seen (start [0x047] [0x00F, 0x0F0] false) = some ([0xFF0, 0xF0F], false, .running) := by decide +kernel

/-- Vectors L23, L24. -/
theorem test_inc_l :
    seen (start [0x048] [0x000, 0xFFF] true) = some ([0x001, 0x000], false, .running) ∧
    seen (start [0x048] [0xFFF, 0xFFF] false) = some ([0x000, 0x000], true, .running) := by decide +kernel

/-- Vectors L25, L26. -/
theorem test_dec_l :
    seen (start [0x049] [0x001, 0x000] true) = some ([0x000, 0xFFF], false, .running) ∧
    seen (start [0x049] [0x000, 0x000] false) = some ([0xFFF, 0xFFF], true, .running) := by decide +kernel

/-- Vectors L27, L28. -/
theorem test_or_l :
    seen (start [0x04A] [0xFFF, 0x0F0, 0x00F, 0xFFF] true) = some ([0xFFF, 0xFFF], true, .running) ∧
    seen (start [0x04A] [0xFFF, 0x0F0, 0x00F, 0xFFF] false) = some ([0xFFF, 0xFFF], false, .running) := by decide +kernel

/-- Vectors L29, L30. -/
theorem test_xor_l :
    seen (start [0x04B] [0xFFF, 0x0F0, 0x00F, 0xFFF] true) = some ([0xFF0, 0xF0F], true, .running) ∧
    seen (start [0x04B] [0xFFF, 0x0F0, 0x00F, 0xFFF] false) = some ([0xFF0, 0xF0F], false, .running) := by decide +kernel

/-- Vectors L31, L32. -/
theorem test_and_l :
    seen (start [0x04C] [0xFFF, 0x0F0, 0x00F, 0xFFF] true) = some ([0x00F, 0x0F0], true, .running) ∧
    seen (start [0x04C] [0xFFF, 0x0F0, 0x00F, 0xFFF] false) = some ([0x00F, 0x0F0], false, .running) := by decide +kernel

/-- Vectors L14, L17. -/
theorem test_long_divide_by_zero :
    seen (start [0x044] [0x000, 0x005, 0x000, 0x000] false) = some ([], false, .faulted .divideByZero) ∧
    seen (start [0x045] [0x000, 0x005, 0x000, 0x000] false) = some ([], false, .faulted .divideByZero) := by decide +kernel

/-! ### Jumps: vectors J, JR, JX of 95_test_vectors.md -/

/-- The four words of a `jmp` of a mode at 0x002028, target 0x00203C, and the stack before. -/
def jump (mode : Word) (stack : List Word) (c : Bool) : State := startAt 0x2028 [0x060, mode, 0x002, 0x03C] stack c

/-- Vectors J1. -/
theorem test_jmp :
    went (jump 0x000 [] false) = some (0x00203C, 4, .running) := by decide +kernel

/-- Vectors J2, J3. -/
theorem test_jz :
    went (jump 0x001 [0x000] false) = some (0x00203C, 4, .running) ∧
    went (jump 0x001 [0x003] false) = some (0x00202C, 4, .running) := by decide +kernel

/-- Vectors J4, J5. -/
theorem test_jnz :
    went (jump 0x002 [0x003] false) = some (0x00203C, 4, .running) ∧
    went (jump 0x002 [0x000] false) = some (0x00202C, 4, .running) := by decide +kernel

/-- Vectors J6, J7. -/
theorem test_jc :
    went (jump 0x003 [] true) = some (0x00203C, 4, .running) ∧
    went (jump 0x003 [] false) = some (0x00202C, 4, .running) := by decide +kernel

/-- Vectors J8, J9. -/
theorem test_jcz :
    went (jump 0x004 [] false) = some (0x00203C, 4, .running) ∧
    went (jump 0x004 [] true) = some (0x00202C, 4, .running) := by decide +kernel

/-- Vectors J10, J11, J12, J13, J14. -/
theorem test_jgz :
    went (jump 0x005 [0x001] false) = some (0x00203C, 4, .running) ∧
    went (jump 0x005 [0x7FF] false) = some (0x00203C, 4, .running) ∧
    went (jump 0x005 [0x000] false) = some (0x00202C, 4, .running) ∧
    went (jump 0x005 [0x800] false) = some (0x00202C, 4, .running) ∧
    went (jump 0x005 [0xFFF] false) = some (0x00202C, 4, .running) := by decide +kernel

/-- Vectors J15, J16, J17, J18. -/
theorem test_jlz :
    went (jump 0x006 [0x800] false) = some (0x00203C, 4, .running) ∧
    went (jump 0x006 [0xFFF] false) = some (0x00203C, 4, .running) ∧
    went (jump 0x006 [0x000] false) = some (0x00202C, 4, .running) ∧
    went (jump 0x006 [0x7FF] false) = some (0x00202C, 4, .running) := by decide +kernel

/-- Vectors J19, J20, J21. -/
theorem test_jge :
    went (jump 0x007 [0x000] false) = some (0x00203C, 4, .running) ∧
    went (jump 0x007 [0x7FF] false) = some (0x00203C, 4, .running) ∧
    went (jump 0x007 [0x800] false) = some (0x00202C, 4, .running) := by decide +kernel

/-- Vectors J22, J23, J24. -/
theorem test_jle :
    went (jump 0x008 [0x000] false) = some (0x00203C, 4, .running) ∧
    went (jump 0x008 [0xFFF] false) = some (0x00203C, 4, .running) ∧
    went (jump 0x008 [0x001] false) = some (0x00202C, 4, .running) := by decide +kernel

/-- Vectors J25, J26. -/
theorem test_jeq :
    went (jump 0x009 [0x123, 0x123] false) = some (0x00203C, 4, .running) ∧
    went (jump 0x009 [0x123, 0x124] false) = some (0x00202C, 4, .running) := by decide +kernel

/-- Vectors J27, J28. -/
theorem test_jneq :
    went (jump 0x00A [0x123, 0x124] false) = some (0x00203C, 4, .running) ∧
    went (jump 0x00A [0x123, 0x123] false) = some (0x00202C, 4, .running) := by decide +kernel

/-- Vectors J29, J30, J31. -/
theorem test_jz_l :
    went (jump 0x011 [0x000, 0x000] false) = some (0x00203C, 4, .running) ∧
    went (jump 0x011 [0x001, 0x000] false) = some (0x00202C, 4, .running) ∧
    went (jump 0x011 [0x000, 0x001] false) = some (0x00202C, 4, .running) := by decide +kernel

/-- Vectors J32, J33. -/
theorem test_jnz_l :
    went (jump 0x012 [0x001, 0x000] false) = some (0x00203C, 4, .running) ∧
    went (jump 0x012 [0x000, 0x000] false) = some (0x00202C, 4, .running) := by decide +kernel

/-- Vectors J34, J35, J36, J37. -/
theorem test_jgz_l :
    went (jump 0x015 [0x000, 0x001] false) = some (0x00203C, 4, .running) ∧
    went (jump 0x015 [0x7FF, 0xFFF] false) = some (0x00203C, 4, .running) ∧
    went (jump 0x015 [0x800, 0x000] false) = some (0x00202C, 4, .running) ∧
    went (jump 0x015 [0x000, 0x000] false) = some (0x00202C, 4, .running) := by decide +kernel

/-- Vectors J38, J39, J40, J41. -/
theorem test_jlz_l :
    went (jump 0x016 [0x800, 0x000] false) = some (0x00203C, 4, .running) ∧
    went (jump 0x016 [0xFFF, 0xFFF] false) = some (0x00203C, 4, .running) ∧
    went (jump 0x016 [0x7FF, 0xFFF] false) = some (0x00202C, 4, .running) ∧
    went (jump 0x016 [0x000, 0x000] false) = some (0x00202C, 4, .running) := by decide +kernel

/-- Vectors JR1 to JR6. -/
theorem test_jro :
    went (startAt 0x2028 [0x060, 0x00B] [0x000] false) = some (0x00202A, 4, .running) ∧
    went (startAt 0x2028 [0x060, 0x00B] [0x004] false) = some (0x00202E, 4, .running) ∧
    went (startAt 0x2028 [0x060, 0x00B] [0xFF8] false) = some (0x002022, 4, .running) ∧
    went (startAt 0x2028 [0x060, 0x00B] [0xFFE] false) = some (0x002028, 4, .running) ∧
    went (startAt 0x2028 [0x060, 0x00B] [0x800] false) = some (0x00182A, 4, .running) ∧
    went (startAt 0x2028 [0x060, 0x00B] [0x7FF] false) = some (0x002829, 4, .running) := by decide +kernel

/-- Vectors JX1, JX2: an unknown mode faults before anything is popped. JX4: a jump below address 0. -/
theorem test_jump_faults :
    went (jump 0x00C [0x000] false) = some (0x2028, 5, .faulted .unknownMode) ∧
    went (jump 0x013 [0x000, 0x000] false) = some (0x2028, 6, .faulted .unknownMode) ∧
    went (startAt 0x10 [0x060, 0x00B] [0x800] false) = some (0x10, 4, .faulted .regRange) := by decide +kernel

/-- Vector JX3: the target is not checked by the jump but by the next fetch. -/
theorem test_jump_out_of_memory :
    went (start [0x060, 0x000, 0x003, 0x000] [] false) = some (0x3000, 4, .running) ∧
    went (startAt 0x3000 [] [] false) = some (0x3000, 4, .faulted .addrRange) := by decide +kernel

/-! ### Stack and memory: vectors S of 95_test_vectors.md -/

/-- The frame of vector C3: parameters 003 004 at 5 and 6, header at 7, FP 7, and operands from 12 upward. -/
def inFrame (ws operands : List Word) : State :=
  { start ws ([0x003, 0x004, 0x002, 0x017, 0x000, 0x000, 0x002] ++ operands) false with fp := 7 }

/-- Vector S1, and F4, F5: the push at `ROM_BASE` and at `MEM_SIZE`. -/
theorem test_load_lit :
    seen (start [0x010, 0xFFF] [] true) = some ([0xFFF], true, .running) ∧
    went { start [0x010, 0x007] [] false with sp := 0x001FFF } = some (0x2100, 0x2000, .faulted .romWrite) ∧
    went { start [0x010, 0x007] [] false with sp := 0x002FFF } = some (0x2100, 0x3000, .faulted .addrRange) := by decide +kernel

/-- Vectors S2, S3, S6, F10. -/
theorem test_load_local :
    seen (start [0x011, 0x000] [] false) = some ([0x000], false, .running) ∧
    seen (start [0x011, 0x005] [0x123] false) = some ([0x123, 0x123], false, .running) ∧
    (next (inFrame [0x011, 0x001] [0x0AB])).map (wordsAt · 12 2) = some [0x0AB, 0x004] ∧
    went (with_ (start [0x011, 0x000] [] false) 4 [0x009]) = some (0x2100, 4, .faulted .regRange) := by decide +kernel

/-- Vectors S4, S5. -/
theorem test_store_local :
    (next (inFrame [0x012, 0x001] [0x0AB])).map (fun t => (wordsAt t 5 2, t.sp.toNat)) = some ([0x003, 0x0AB], 11) ∧
    (next (inFrame [0x012, 0x006] [0x0AB])).map (fun t => (wordsAt t 11 1, t.sp.toNat)) = some ([0x0AB], 11) := by
  decide +kernel

/-- Vectors S7, S8, S9, S10. -/
theorem test_memc :
    (next (with_ (start [0x013] [0x002, 0x200, 0x000, 0x100, 0x000, 0x003] true) 0x2200 [0xAAA, 0xBBB, 0xCCC])).map
      (fun t => (wordsAt t 0x100 3, t.sp.toNat, t.carry)) = some ([0xAAA, 0xBBB, 0xCCC], 4, true) ∧
    (next (with_ (start [0x013] [0x000, 0x100, 0x000, 0x101, 0x000, 0x003] false) 0x100 [1, 2, 3])).map
      (wordsAt · 0x100 5) = some [1, 1, 1, 1, 0] ∧
    (next (with_ (start [0x013] [0x000, 0x101, 0x000, 0x100, 0x000, 0x003] false) 0x101 [1, 2, 3])).map
      (wordsAt · 0x100 5) = some [1, 2, 3, 3, 0] ∧
    went (start [0x013] [0xFFF, 0xFFF, 0x002, 0x000, 0x000, 0x000] false) = some (0x2101, 4, .running) := by decide +kernel

/-- Vectors S11, S12, S13: a copy that faults keeps the words already copied. -/
theorem test_memc_faults :
    went (start [0x013] [0x000, 0x100, 0x002, 0x000, 0x000, 0x001] false) = some (0x2100, 4, .faulted .romWrite) ∧
    (next (with_ (start [0x013] [0x000, 0x100, 0x001, 0xFFF, 0x000, 0x002] false) 0x100 [0x111, 0x222])).map
      (fun t => (wordsAt t 0x1FFF 2, t.run)) = some ([0x111, 0x000], .faulted .romWrite) ∧
    went (start [0x013] [0x002, 0xFFF, 0x000, 0x100, 0x000, 0x002] false) = some (0x2100, 4, .faulted .addrRange) := by
  decide +kernel

/-! ### Call and return: vectors C of 95_test_vectors.md -/

/-- `call 0x002000` at an address, with a routine header at 0x002000. -/
def calling (pc : Nat) (params locals : Word) (stack : List Word) : State :=
  with_ (startAt pc [0x061, 0x002, 0x000] stack false) 0x2000 [params, locals]

/-- Vectors C2 (the locals are not cleared) and C3. -/
theorem test_call :
    sees (next (with_ (calling 0x2100 0 3 [0x0AA]) 6 [0x111, 0x222, 0x333]))
      6 [0x111, 0x222, 0x333, 0x002, 0x103, 0x000, 0x000, 0x003] 0x2002 13 9 .running = true ∧
    sees (next (calling 0x2014 2 2 [0x003, 0x004]))
      7 [0x002, 0x017, 0x000, 0x000, 0x002] 0x2002 11 7 .running = true := by decide +kernel

/-- Vectors C11 (a nested frame), C12 (fewer locals than parameters), C13, C14. -/
theorem test_call_nested_and_faults :
    sees (next (with_ (with_ { inFrame [] [0x055] with pc := 0x002F10 } 0x2F10 [0x061, 0x002, 0x000]) 0x2000 [1, 1]))
      13 [0x002, 0xF13, 0x000, 0x007, 0x001] 0x2002 17 13 .running = true ∧
    sees (next (calling 0x2014 2 0 [0x003, 0x004])) 5 [0x002, 0x017, 0x000, 0x000, 0x000] 0x2002 9 5 .running = true ∧
    went (calling 0x2100 5 0 []) = some (0x2100, 4, .faulted .regRange) ∧
    went (start [0x061, 0x003, 0x000] [] false) = some (0x2100, 4, .faulted .addrRange) := by decide +kernel

/-- Vectors C4, C8. -/
theorem test_ret :
    (next { inFrame [0x062] [9, 8, 7, 6] with carry := true, ie := true }).map (fun t => (regs t, t.carry, t.ie)) =
      some ((0x2017, 4, 0, .running), true, true) ∧
    went (start [0x062] [] false) = some (0x2100, 4, .faulted .regRange) := by decide +kernel

/-- Vectors C5, C7, C9. -/
theorem test_ret1 :
    sees (next (inFrame [0x063] [0x007])) 5 [0x007] 0x2017 5 0 .running = true ∧
    sees (next (inFrame [0x063] [])) 5 [0x002] 0x2017 5 0 .running = true ∧
    went (start [0x063] [0x005] false) = some (0x2100, 5, .faulted .regRange) := by decide +kernel

/-- Vectors C6, C10. -/
theorem test_ret2 :
    sees (next (inFrame [0x064] [0x001, 0xFFF])) 5 [0x001, 0xFFF] 0x2017 6 0 .running = true ∧
    sees (next { start [0x064] [0x002, 0x017, 0, 0, 0, 0x00A, 0x00B] false with fp := 5 })
      5 [0x00A, 0x00B] 0x2017 6 0 .running = true := by decide +kernel

/-! ### System: vectors Y of 95_test_vectors.md -/

/-- Vectors Y1, Y1b. -/
theorem test_eni :
    (next (start [0x070] [] false)).map (fun t => (t.ie, t.pc.toNat)) = some (true, 0x2101) ∧
    (next { start [0x070] [] false with ie := true }).map (fun t => (t.ie, t.pc.toNat)) = some (true, 0x2101) := by
  decide +kernel

/-- Vector Y2. -/
theorem test_dsi :
    (next { start [0x071] [] false with ie := true }).map (fun t => (t.ie, t.pc.toNat)) = some (false, 0x2101) := by
  decide +kernel

/-- Vectors Y3, Y4 and the execute step of Y5. -/
theorem test_hlt :
    (next (start [0x072] [] true)).map (fun t => (t.run, t.sp.toNat, t.carry)) = some (.terminated .haltDisabled, 4, true) ∧
    (next { start [0x072] [] false with ie := true }).map (fun t => (t.run, t.halted, t.pc.toNat)) =
      some (.running, true, 0x2101) ∧
    (next { start [0x072] [] false with ie := true, pending := some ⟨.vector 0x002F00, []⟩ }).map
      (fun t => (t.run, t.halted, t.pc.toNat, t.pending.isSome)) = some (.running, false, 0x2101, true) := by decide +kernel

/-! ### Interrupts: vectors I of 95_test_vectors.md -/

/-- A state that checks, at 0x002082, with what the agents do next. -/
def idle (events : List Event) : State := { State.reset with ie := true, pc := 0x002082, schedule := events }

/-- Vectors I1, I6: a request with `IE` false is missed, `Stop` too. -/
theorem test_request_missed :
    (next { idle [.request ⟨.vector 0x002F00, [1]⟩] with ie := false }).map (fun t => (t.missed, t.pending)) =
      some (1, none) ∧
    (next { idle [.request ⟨.stop, []⟩] with ie := false }).map (fun t => (t.missed, t.pending)) = some (1, none) := by
  decide +kernel

/-- Vector I2, its two requests. -/
theorem test_request_twice :
    (next2 (idle [.request ⟨.vector 0x002F00, [1]⟩, .request ⟨.vector 0x002F10, [2]⟩])).map
      (fun t => (t.missed, t.pending)) = some (1, some ⟨.vector 0x002F00, [1]⟩) := by decide +kernel

/-- Vector I3. -/
theorem test_delivery_no_argument :
    sees (next2 (idle [.request ⟨.vector 0x002F00, []⟩]))
      5 [0x002, 0x082, 0x000, 0x000, 0x000] 0x2F00 9 5 .running = true := by decide +kernel

/-- Vector I4. -/
theorem test_delivery_arguments :
    sees (next2 (idle [.request ⟨.vector 0x002F20, [0x00A, 0x00B]⟩]))
      5 [0x00A, 0x00B, 0x002, 0x082, 0x000, 0x000, 0x002] 0x2F20 11 7 .running = true := by decide +kernel

/-- Vectors I5 (a waiting core is woken and stopped), I7's last step (delivered though `IE` is false) and I8. -/
theorem test_delivery_flags :
    (next2 { idle [.request ⟨.stop, []⟩] with halted := true }).map (fun t => (regs t, t.halted)) =
      some ((0x2082, 4, 0, .terminated .stop), false) ∧
    (next { idle [] with ie := false, carry := true, pending := some ⟨.vector 0x002F00, [7]⟩ }).map
      (fun t => (t.pc.toNat, t.ie, t.carry)) = some (0x2F00, false, true) := by decide +kernel

/-- Vector I10: the pushes reach `ROM_BASE`. -/
theorem test_delivery_faults :
    (next { idle [] with sp := 0x001FFC, pending := some ⟨.vector 0x002F00, [1]⟩ }).map
      (fun t => (wordsAt t 0x1FFD 4, t.run)) = some ([1, 0x002, 0x082, 0x000], .faulted .romWrite) := by decide +kernel

/-- The five sources and their types (60_exceptions.md R250), through the configuration. -/
theorem test_sources :
    (requestFrom .timer [] (idle [])).2.pending = some ⟨.vector 0x002F00, []⟩ ∧
    (requestFrom .mouse [] (idle [])).2.pending = some ⟨.vector 0x002F30, []⟩ ∧
    (requestFrom .stop [] (idle [])).1 = .accepted := by decide +kernel

/-! ### Faults: vectors F of 95_test_vectors.md -/

/-- Vectors F1, F2, F3, F9. -/
theorem test_fetch_faults :
    went (start [0x000] [] false) = some (0x2100, 4, .faulted .unknownOpcode) ∧
    went (start [0x043] [1, 2, 3, 4] false) = some (0x2100, 8, .faulted .unknownOpcode) ∧
    went (start [0xFFF] [] false) = some (0x2100, 4, .faulted .unknownOpcode) ∧
    went (startAt 0x2FFF [0x010] [] false) = some (0x2FFF, 4, .faulted .addrRange) := by decide +kernel

/-- Vectors F6, F8, F12. -/
theorem test_stack_faults :
    went { start [0x020] [] false with sp := 1 } = some (0x2100, 0, .faulted .regRange) ∧
    went (startAt 0x2FFF [0x020] [1, 2] false) = some (0x3000, 5, .running) ∧
    went { start [0x028] [] false with sp := 0x002005 } = some (0x2100, 0x2005, .faulted .romWrite) := by decide +kernel

/-- A faulted state answers its fault (log 6); a schedule with too long a request is refused (log 10). -/
theorem test_stopped_step :
    step { State.reset with run := .faulted .romWrite } = .fault .romWrite ∧
    step { State.reset with run := .terminated .stop } = .next { State.reset with run := .terminated .stop } :=
  ⟨rfl, rfl⟩

theorem test_too_long_request :
    requestStep ⟨.stop, List.replicate 0x1000 0⟩ State.reset = .refused .requestTooLong :=
  if_neg (test_request_length .stop).2

/-! ### The image: vectors M of 95_test_vectors.md -/

/-- What a load gives at some addresses. -/
def loaded (image : List Byte) (a n : Nat) : Option (List Word) :=
  match loadImage testConfig image [] with
  | .ok m => some ((List.range n).map fun i => m.read (a + i))
  | .error _ => none

/-- Vectors M1, M2, M10, M11. -/
theorem test_image_loads :
    loaded [0x10, 0, 0, 0, 0x03, 0, 0, 0, 0x10, 0, 0x03, 0, 0x72, 0] 0x2010 3 = some [0x010, 0x003, 0x072] ∧
    loaded [] 0x2000 2 = some [0, 0] ∧
    loaded [0, 0, 0, 0, 2, 0, 0, 0, 0x11, 0, 0x22, 0, 1, 0, 0, 0, 1, 0, 0, 0, 0x33, 0] 0x2000 2 = some [0x011, 0x033] ∧
    loaded [0, 0, 0, 0, 0, 0, 0, 0] 0x2000 1 = some [0] := by decide +kernel

/-- Vectors M3 to M9. -/
theorem test_image_refused :
    loadImage testConfig [0x10, 0, 0, 0, 3, 0, 0] [] = .error .truncated ∧
    loadImage testConfig [0, 0, 0, 0, 2, 0, 0, 0, 0x10, 0] [] = .error .truncated ∧
    loadImage testConfig [0, 0, 0, 0, 1, 0, 0, 0, 0x10] [] = .error .truncated ∧
    loadImage testConfig [0xFF, 0xFF, 0xFF, 0xFF, 1, 0, 0, 0, 0x10, 0] [] = .error .negativeOffset ∧
    loadImage testConfig [0, 0, 0, 0, 0xFF, 0xFF, 0xFF, 0xFF] [] = .error .negativeCount ∧
    loadImage testConfig [0xFF, 0x0F, 0, 0, 2, 0, 0, 0, 0x10, 0, 0x20, 0] [] = .error .beyondRom ∧
    loadImage testConfig [0, 0, 0, 0, 1, 0, 0, 0, 0, 0x10] [] = .error .notAWord := by decide +kernel

/-- With no image and `INIT_MEM` all zero the reset sequence gives the reset state. -/
theorem test_boot_is_reset :
    (match boot testConfig [] [] with
      | .ok s => decide (s = State.reset)
      | .error _ => false) = true := by decide +kernel

/-- A port reads and changes nothing (00_scope.md R15). -/
theorem test_ports :
    State.reset.status = ⟨false, .running⟩ ∧ State.reset.observe = ⟨0x002100, 4, 0, false, false⟩ ∧
    State.reset.observeMem 0x2FFF = some 0 ∧ State.reset.observeMem 0x3000 = none := by decide +kernel

/-! ### Witnesses: a state and operands that meet the hypotheses of each statement, at the edges of each clause -/

/-- A state with a stack pointer. -/
def spAt (sp : Nat) : State := { State.reset with sp := BitVec.ofNat 24 sp }

/-- A state with a program counter. -/
def pcAt (pc : Nat) : State := { State.reset with pc := BitVec.ofNat 24 pc }

/-- Decode of encode: a `jmp` with every operand word used, an instruction of one word, at the top and the bottom. -/
theorem witness_DecodeOfEncodeIsTheInstruction :
    testConfig.mapsWf ∧ Instr.wf testConfig (.jlzL 0xFFFFFF) ∧ Instr.wf testConfig (.loadLit 0x000) ∧
    Instr.wf testConfig .hlt := by
  decide +kernel

theorem witness_EncodeOfDecodeIsTheWords :
    testConfig.mapsWf ∧ decode testConfig [0x060, 0x016, 0xFFF, 0x000, 0x123] = .ok (.jlzL 0xFFF000) := by decide +kernel

/-- Both sides of both equivalences, at the edges of the gaps. -/
theorem witness_IllegalWordsAreRejectedByName :
    decode testConfig [0x00F] = .error .unknownOpcode ∧ decode testConfig [0x072] = .ok .hlt ∧
    decode testConfig [0x073] = .error .unknownOpcode ∧ decode testConfig [0x060, 0x00B] = .ok .jro ∧
    decode testConfig [0x060, 0x017] = .error .unknownMode := by decide +kernel

/-- The run goes on after `eni`; it ends with `hlt`. -/
theorem witness_StepRunsTheDecodedInstruction :
    (start [0x070] [] false).executes ∧
    decode testConfig (readableWords (start [0x070] [] false) 0x2100 4) = .ok .eni ∧
    (match exec .eni (start [0x070] [] false) with | .next t => decide (t.run = .running) | _ => false) = true ∧
    (start [0x072] [] false).executes ∧
    decode testConfig (readableWords (start [0x072] [] false) 0x2100 4) = .ok .hlt ∧
    (match exec .hlt (start [0x072] [] false) with | .next t => decide (t.run ≠ .running) | _ => false) = true := by
  decide +kernel

/-- The last two words of memory hold a `load_lit`. -/
theorem witness_StepRunsTheWordsInMemory :
    (startAt 0x2FFE [0x010, 0x007] [] false).executes ∧ testConfig.mapsWf ∧ Instr.wf testConfig (.loadLit 7) ∧
    ∀ n (h : n < (encode testConfig (.loadLit 7)).length),
      (startAt 0x2FFE [0x010, 0x007] [] false).readable (0x2FFE + n) ∧
      (startAt 0x2FFE [0x010, 0x007] [] false).mem.read (0x2FFE + n) = (encode testConfig (.loadLit 7))[n] := by
  decide +kernel

/-- One state for each clause: no word at PC, an unknown opcode, a `jmp` cut short at each place, the formats K and A cut short. -/
theorem witness_FetchFaultsChangeNothingElse :
    ((startAt 0x3000 [] [] false).executes ∧ ¬ (startAt 0x3000 [] [] false).readable 0x3000) ∧
    nameOfWord testConfig.opcodeMap ((startAt 0x2FFF [0x073] [] false).mem.read 0x2FFF) = none ∧
    nameOfWord testConfig.opcodeMap ((startAt 0x2FFF [0x060] [] false).mem.read 0x2FFF) = some .jmp ∧
    nameOfWord testConfig.modeMap ((startAt 0x2FFE [0x060, 0x017] [] false).mem.read 0x2FFF) = none ∧
    nameOfWord testConfig.modeMap ((startAt 0x2FFD [0x060, 0x001] [] false).mem.read 0x2FFE) = some .z ∧
    nameOfWord testConfig.opcodeMap ((startAt 0x2FFF [0x012] [] false).mem.read 0x2FFF) = some .storeLocal ∧
    nameOfWord testConfig.opcodeMap ((startAt 0x2FFE [0x061] [] false).mem.read 0x2FFE) = some .call ∧
    (startAt 0x2FFD [0x060, 0x001] [] false).readable 0x2FFF := by decide +kernel

theorem witness_IdleWaitingAndStoppedSteps :
    State.reset.checks ∧ State.reset.pending = none ∧
    State.run { State.reset with halted := true } = .running ∧ State.schedule { State.reset with halted := true } = [] ∧
    State.run { State.reset with run := .terminated .stop } = .terminated .stop ∧
    State.run { State.reset with run := .faulted .addrRange } = .faulted .addrRange := by decide +kernel

/-- Accepted, missed with `IE` false, missed with the slot occupied, and the longest request scheduled. -/
theorem witness_RequestIsTestAndSet :
    ((idle []).ie = true ∧ (idle []).pending = none) ∧
    ¬ (State.reset.ie = true ∧ State.reset.pending = none) ∧
    ¬ (State.ie { idle [] with pending := some ⟨.stop, []⟩ } = true ∧
       State.pending { idle [] with pending := some ⟨.stop, []⟩ } = none) ∧
    (idle [.request ⟨.stop, [1]⟩]).run = .running ∧
    (idle [.request ⟨.stop, [1]⟩]).schedule = [.request ⟨.stop, [1]⟩] ∧
    Request.wf ⟨.stop, [1]⟩ := by decide +kernel

theorem witness_TwoRapidRequestsKeepTheFirst :
    (idle []).run = .running ∧ (idle []).ie = true ∧ (idle []).pending = none ∧ Request.wf ⟨.stop, []⟩ ∧
    Request.wf ⟨.vector 0x002F00, [1]⟩ := by decide +kernel

/-- A frame that ends at the last word below ROM, and one with arguments. -/
theorem witness_DeliveryBuildsTheFrame :
    (State.checks { spAt 0x1FFA with pending := some ⟨.vector 0x002F00, []⟩ } ∧
      (spAt 0x1FFA).mem.wf = true ∧ (spAt 0x1FFA).canPush 5) ∧
    State.checks { spAt 4 with pending := some ⟨.vector 0x002F20, [1, 2]⟩ } ∧ (spAt 4).canPush 7 := by decide +kernel

theorem witness_DeliveryOfStopEndsTheRun :
    State.checks { State.reset with pending := some ⟨.stop, [1]⟩ } := by decide +kernel

/-- A step of the core. -/
theorem witness_StepKeepsTheInvariant : State.reset.Inv ∧ (next State.reset).isSome = true := by decide +kernel

/-- A delivery. -/
theorem witness_StepKeepsTheInvariant_delivery :
    State.Inv { spAt 4 with pending := some ⟨.vector 0x002F20, [1, 2]⟩ } ∧
    (next { spAt 4 with pending := some ⟨.vector 0x002F20, [1, 2]⟩ }).isSome = true := by decide +kernel

/-- A step that ends the run. -/
theorem witness_StepKeepsTheInvariant_hlt :
    (start [0x072] [] false).Inv ∧ (next (start [0x072] [] false)).isSome = true := by decide +kernel

/-- A store just below ROM, and one that tries the first word of ROM. -/
theorem witness_StepNeverChangesRom :
    (next { start [0x010, 0x007] [] false with sp := 0x001FFE }).isSome = true ∧
    (next { start [0x010, 0x007] [] false with sp := 0x001FFF }).isSome = true := by decide +kernel

theorem witness_OnlyEniAndDsiChangeInterruptEnable :
    (next (start [0x070] [] false)).map (fun t => t.ie) = some (!(start [0x070] [] false).ie) ∧
    (next (idle [])).map (fun t => t.ie) = some (idle []).ie := by decide +kernel

theorem witness_OnlyAluInstructionsChangeCarry :
    (match exec .add (start [] [0xFFF, 0x001] false) with | .next t => t.carry | _ => false) = true ∧
    (match checkStep State.reset with | .next _ => true | _ => false) = true := by decide +kernel

theorem witness_OfInstructionsOnlyCallAndReturnsChangeFp :
    (match exec (.call 0x002000) (calling 0x2100 0 0 []) with | .next t => decide (t.fp ≠ 0) | _ => false) = true := by
  decide +kernel

/-- The edges of both checks: below 0, the last RAM or VRAM word, the first ROM word, the last word, beyond it. -/
theorem witness_AccessChecks :
    (match memRead (-1) State.reset with | .error r _ => decide (r = .addrRange) | .ok _ _ => false) = true ∧
    (match memRead 0x2FFF State.reset with | .ok w _ => decide (w = 0) | .error _ _ => false) = true ∧
    (match memWrite 0x1FFF 1 State.reset with | .ok _ t => decide (t.mem = [(0x1FFF, 1)]) | .error _ _ => false) = true ∧
    (match memWrite 0x2000 1 State.reset with | .error r _ => decide (r = .romWrite) | .ok _ _ => false) = true ∧
    (match memWrite 0x3000 1 State.reset with | .error r _ => decide (r = .addrRange) | .ok _ _ => false) = true ∧
    (pcAt 0x3000).cfg.memSize ≤ (pcAt 0x3000).pc.toNat := by decide +kernel

theorem witness_BinaryWordFaults :
    ¬ (spAt 0x3000).readable (spAt 0x3000).sp.toNat ∧
    ((spAt 0).readable (spAt 0).sp.toNat ∧ (spAt 0).sp.toNat = 0) ∧
    ((spAt 1).readable (spAt 1).sp.toNat ∧ (spAt 1).sp.toNat = 1) ∧
    ((spAt 0x2001).readable (spAt 0x2001).sp.toNat ∧ 2 ≤ (spAt 0x2001).sp.toNat ∧
      ¬ (spAt 0x2001).writable ((spAt 0x2001).sp.toNat - 1)) ∧
    State.stackWord { spAt 0x2001 with mem := [(0x2001, 1)] } 0 ≠ 0 := by decide +kernel

theorem witness_DivisionByZeroIsFatal :
    (2 ≤ (spAt 2).sp.toNat ∧ (spAt 2).readable (spAt 2).sp.toNat ∧ (spAt 2).stackWord 0 = 0) ∧
    (4 ≤ (spAt 4).sp.toNat ∧ (spAt 4).readable (spAt 4).sp.toNat ∧ (spAt 4).topLong = 0) := by decide +kernel

/-- The state after reset meets them, with `k` at 0 and at 0xFFF. -/
theorem witness_StartUpFrame :
    State.reset.fp = 0 ∧ State.reset.readable 4 ∧ State.reset.mem.read 4 = 0 ∧ State.reset.readable 0xFFF ∧
    State.reset.canPush 1 ∧ State.reset.canAdvance 2 ∧ State.reset.readable State.reset.sp.toNat ∧
    1 ≤ State.reset.sp.toNat := by decide +kernel

/-- The lowest and the highest place for a result. -/
theorem witness_AddResult : (spAt 2).binaryWordReady ∧ (spAt 0x2000).binaryWordReady := by decide +kernel

theorem witness_SubResult : (spAt 2).binaryWordReady ∧ (spAt 0x2000).binaryWordReady := by decide +kernel

theorem witness_MulResult : (spAt 2).binaryWordReady ∧ (spAt 0x2000).binaryWordReady := by decide +kernel

theorem witness_Mul2Result : (spAt 2).unaryLongReady ∧ (spAt 0x1FFF).unaryLongReady := by decide +kernel

theorem witness_DivModResults :
    (start [] [7, 1] false).binaryWordReady ∧ (start [] [7, 1] false).stackWord 0 ≠ 0 := by decide +kernel

theorem witness_UnaryWordResults : (spAt 1).unaryWordReady ∧ (spAt 0x1FFF).unaryWordReady := by decide +kernel

theorem witness_BitwiseWordResults : (spAt 2).binaryWordReady ∧ (spAt 0x2000).binaryWordReady := by decide +kernel

theorem witness_RotateResults : (spAt 1).unaryWordReady ∧ (spAt 0x1FFF).unaryWordReady := by decide +kernel

theorem witness_LongArithmeticResults : (spAt 4).binaryLongReady ∧ (spAt 0x2001).binaryLongReady := by decide +kernel

theorem witness_LongDivModResults :
    (start [] [0, 7, 0, 1] false).binaryLongReady ∧ (start [] [0, 7, 0, 1] false).topLong ≠ 0 := by decide +kernel

theorem witness_UnaryLongResults : (spAt 2).unaryLongReady ∧ (spAt 0x1FFF).unaryLongReady := by decide +kernel

theorem witness_BitwiseLongResults : (spAt 4).binaryLongReady ∧ (spAt 0x2001).binaryLongReady := by decide +kernel

/-- A jump not taken needs the address after it: the highest PC that has one. -/
theorem witness_JumpsThatPopNothing : (pcAt 0xFFFFFB).canAdvance 4 ∧ ¬ (pcAt 0xFFFFFC).canAdvance 4 := by decide +kernel

theorem witness_JumpsOnOneWord :
    (1 ≤ (spAt 1).sp.toNat ∧ (spAt 1).readable (spAt 1).sp.toNat ∧ (spAt 1).canAdvance 4) ∧
    (spAt 0x2FFF).readable (spAt 0x2FFF).sp.toNat := by decide +kernel

theorem witness_JumpsOnTwoWords :
    2 ≤ (spAt 2).sp.toNat ∧ (spAt 2).readable (spAt 2).sp.toNat ∧ (spAt 2).canAdvance 4 := by decide +kernel

theorem witness_JumpsOnOneLong :
    2 ≤ (spAt 2).sp.toNat ∧ (spAt 2).readable (spAt 2).sp.toNat ∧ (spAt 2).canAdvance 4 := by decide +kernel

/-- The two sides of the register range, each at its edge: to address 0 and to -1, to 0xFFFFFF and beyond. -/
theorem witness_RelativeJumpResult :
    (((startAt 0x7FE [] [0x800] false).pc.toNat : Int) + 2 + ((startAt 0x7FE [] [0x800] false).stackWord 0).toInt = 0) ∧
    (((startAt 0x7FD [] [0x800] false).pc.toNat : Int) + 2 + ((startAt 0x7FD [] [0x800] false).stackWord 0).toInt = -1) ∧
    (((startAt 0xFFFFFC [] [1] false).pc.toNat : Int) + 2 + ((startAt 0xFFFFFC [] [1] false).stackWord 0).toInt = 0xFFFFFF) ∧
    (((startAt 0xFFFFFC [] [2] false).pc.toNat : Int) + 2 + ((startAt 0xFFFFFC [] [2] false).stackWord 0).toInt = 0x1000000) ∧
    1 ≤ (startAt 0x7FE [] [0x800] false).sp.toNat ∧
    (startAt 0x7FE [] [0x800] false).readable (startAt 0x7FE [] [0x800] false).sp.toNat := by decide +kernel

/-- The last push below ROM, the one into ROM, the one beyond memory, the one beyond the register range. -/
theorem witness_LoadLiteralResult :
    ((spAt 0x1FFE).canPush 1 ∧ (spAt 0x1FFE).canAdvance 2) ∧
    addressLimit ≤ (spAt 0xFFFFFF).sp.toNat + 1 ∧
    ((spAt 0x2FFF).sp.toNat + 1 < addressLimit ∧ ¬ (spAt 0x2FFF).readable ((spAt 0x2FFF).sp.toNat + 1)) ∧
    ((spAt 0x1FFF).readable ((spAt 0x1FFF).sp.toNat + 1) ∧ ¬ (spAt 0x1FFF).writable ((spAt 0x1FFF).sp.toNat + 1)) := by
  decide +kernel

/-- A frame with two locals; `locals` equal to FP, and one more. -/
theorem witness_LoadLocalResult :
    ((inFrame [] [1]).readable ((inFrame [] [1]).fp.toNat + 4) ∧ (inFrame [] [1]).localsWord ≤ (inFrame [] [1]).fp.toNat ∧
      (inFrame [] [1]).readable ((inFrame [] [1]).fp.toNat - (inFrame [] [1]).localsWord + 0xFFF) ∧
      (inFrame [] [1]).canPush 1 ∧ (inFrame [] [1]).canAdvance 2) ∧
    (with_ (inFrame [] [1]) 11 [7]).localsWord = (with_ (inFrame [] [1]) 11 [7]).fp.toNat ∧
    (with_ (inFrame [] [1]) 11 [8]).fp.toNat < (with_ (inFrame [] [1]) 11 [8]).localsWord := by decide +kernel

theorem witness_StoreLocalResult :
    ((inFrame [] [1]).readable ((inFrame [] [1]).fp.toNat + 4) ∧ (inFrame [] [1]).localsWord ≤ (inFrame [] [1]).fp.toNat ∧
      1 ≤ (inFrame [] [1]).sp.toNat ∧ (inFrame [] [1]).readable (inFrame [] [1]).sp.toNat ∧
      (inFrame [] [1]).writable ((inFrame [] [1]).fp.toNat - (inFrame [] [1]).localsWord + 0xFFF) ∧
      (inFrame [] [1]).canAdvance 2) ∧
    (with_ (inFrame [] [1]) 11 [8]).fp.toNat < (with_ (inFrame [] [1]) 11 [8]).localsWord := by decide +kernel

/-- A block of one word to the last address below ROM, and an empty one to and from anywhere. -/
theorem witness_BlockCopyResult :
    ((start [] [0x002, 0xFFF, 0x001, 0xFFF, 0x000, 0x001] false).mem.wf = true ∧
      6 ≤ (start [] [0x002, 0xFFF, 0x001, 0xFFF, 0x000, 0x001] false).sp.toNat ∧
      (start [] [0x002, 0xFFF, 0x001, 0xFFF, 0x000, 0x001] false).topLong.toNat = 1 ∧
      (start [] [0x002, 0xFFF, 0x001, 0xFFF, 0x000, 0x001] false).underLong.toNat + 1 = testConfig.romBase ∧
      0x2FFF + 1 ≤ testConfig.memSize ∧ (start [] [0x002, 0xFFF, 0x001, 0xFFF, 0x000, 0x001] false).canAdvance 1) ∧
    (start [] [0xFFF, 0xFFF, 0xFFF, 0xFFF, 0, 0] false).topLong.toNat = 0 := by decide +kernel

/-- More locals than parameters, fewer, and a `call` at the last PC with an address after it. -/
theorem witness_CallResult :
    ((calling 0x2014 2 5 [3, 4]).mem.wf = true ∧ (calling 0x2014 2 5 [3, 4]).readable 0x2001 ∧
      (calling 0x2014 2 5 [3, 4]).sp.toNat + 5 = 9 + 2 ∧ (calling 0x2014 2 5 [3, 4]).writable (9 + 5) ∧
      (calling 0x2014 2 5 [3, 4]).canAdvance 3) ∧
    ((calling 0x2014 2 0 [3, 4]).sp.toNat + 0 = 4 + 2 ∧ (calling 0x2014 2 0 [3, 4]).writable (4 + 5)) ∧
    (pcAt 0xFFFFFC).canAdvance 3 ∧ ¬ (pcAt 0xFFFFFD).canAdvance 3 := by decide +kernel

theorem witness_ReturnResult :
    ((inFrame [] []).readable ((inFrame [] []).fp.toNat + 4) ∧ (inFrame [] []).localsWord + 1 ≤ (inFrame [] []).fp.toNat) ∧
    (with_ (inFrame [] []) 11 [6]).localsWord + 1 = (with_ (inFrame [] []) 11 [6]).fp.toNat ∧
    ¬ State.readable { State.reset with fp := 0x002FFC } (0x2FFC + 4) ∧
    State.reset.fp.toNat < State.reset.localsWord + 1 := by decide +kernel

theorem witness_ReturnWithResultWords :
    (inFrame [] [1, 2]).readable ((inFrame [] [1, 2]).fp.toNat + 4) ∧
    (inFrame [] [1, 2]).localsWord + 1 ≤ (inFrame [] [1, 2]).fp.toNat ∧
    (inFrame [] [1, 2]).readable (inFrame [] [1, 2]).sp.toNat ∧ 1 ≤ (inFrame [] [1, 2]).sp.toNat ∧
    (inFrame [] [1, 2]).writable ((inFrame [] [1, 2]).fp.toNat - (inFrame [] [1, 2]).localsWord + 1) ∧
    (inFrame [] [1, 2]).fp.toNat - (inFrame [] [1, 2]).localsWord + 1 < addressLimit := by decide +kernel

theorem witness_CallThenReturnRoundTrip :
    (calling 0x2014 2 2 [3, 4]).mem.wf = true ∧ (calling 0x2014 2 2 [3, 4]).canAdvance 3 ∧
    (2 : Nat) ≤ (calling 0x2014 2 2 [3, 4]).sp.toNat ∧
    (match exec (.call 0x002000) (calling 0x2014 2 2 [3, 4]) with | .next t => decide (t.run = .running) | _ => false) =
      true := by decide +kernel

theorem witness_EnableAndDisable : (pcAt 0xFFFFFE).canAdvance 1 ∧ ¬ (pcAt 0xFFFFFF).canAdvance 1 := by decide +kernel

theorem witness_HaltWaitsWhenEnabled :
    ((idle []).ie = true ∧ (idle []).canAdvance 1 ∧ (idle []).pending = none) ∧
    State.pending { idle [] with pending := some ⟨.stop, []⟩ } ≠ none := by decide +kernel

theorem witness_HaltEndsTheRunWhenDisabled : State.reset.ie = false := by decide +kernel

/-- Each instruction of a frame has a next state from the same start state. -/
def hasNext (i : Instr) (s : State) : Bool :=
  match exec i s with
  | .next t => decide (t.run = .running)
  | .fault _ | .refused _ => false

theorem witness_WordAluFrame :
    [Instr.add, .sub, .mul, .div, .mod, .or, .xor, .and, .neg, .not, .inc, .dec, .rotLC, .rotRC, .mul2].all
      (hasNext · (start [] [7, 1] false)) = true := by decide +kernel

theorem witness_LongAluFrame :
    [Instr.addL, .subL, .mulL, .divL, .modL, .orL, .xorL, .andL, .negL, .notL, .incL, .decL].all
      (hasNext · (start [] [0, 7, 0, 1] false)) = true := by decide +kernel

theorem witness_JumpFrame :
    [Instr.jmp 0, .jz 0, .jnz 0, .jc 0, .jcz 0, .jgz 0, .jlz 0, .jge 0, .jle 0, .jeq 0, .jneq 0, .jro, .jzL 0, .jnzL 0,
      .jgzL 0, .jlzL 0].all (hasNext · (start [] [7, 1] false)) = true := by decide +kernel

/-- With a `store_local` whose base faults. -/
theorem witness_LoadStoreFrame :
    [Instr.loadLit 7, .loadLocal 0, .storeLocal 0xFFF].all (hasNext · (inFrame [] [1])) = true ∧
    (match fpLoc (inFrame [] [1]) with | .ok b _ => decide (b = 5) | .error _ _ => false) = true ∧
    (match fpLoc (with_ (inFrame [] [1]) 11 [8]) with | .ok _ _ => false | .error _ _ => true) = true ∧
    (match exec (.storeLocal 0) (with_ (inFrame [] [1]) 11 [8]) with | .next _ => true | _ => false) = true := by
  decide +kernel

theorem witness_BlockCopyFrame : hasNext .memc (start [] [0, 5, 0, 6, 0, 2] false) = true := by decide +kernel

/-- With a `call` that would put SP below 0. -/
theorem witness_CallReturnFrame :
    hasNext (.call 0x002000) (calling 0x2014 2 0 [3, 4]) = true ∧ (calling 0x2014 2 0 [3, 4]).sp.toNat + 0 = 4 + 2 ∧
    (match exec (.call 0x002000) (calling 0x2100 5 0 []) with | .next _ => true | _ => false) = true ∧
    (calling 0x2100 5 0 []).sp.toNat + 0 < 5 ∧ (calling 0x2014 2 0 [3, 4]).canAdvance 3 ∧
    [Instr.ret, .ret1, .ret2].all (hasNext · (inFrame [] [1, 2])) = true := by decide +kernel

theorem witness_SystemFrame :
    [Instr.eni, .dsi, .hlt].all (hasNext · (idle [])) = true ∧
    (match exec .hlt State.reset with | .next _ => true | _ => false) = true := by decide +kernel

theorem witness_ResetLeavesTheStatedValues :
    testConfig.sizesWf ∧ Memory.wf [(5, 1), (0x1FFF, 2)] = true ∧
    (match boot testConfig [(5, 1), (0x1FFF, 2)] [0, 0, 0, 0, 1, 0, 0, 0, 0x72, 0] with
      | .ok _ => true
      | .error _ => false) = true := by decide +kernel

/-- Blocks at both ends of ROM, and one without words beyond its last word. -/
theorem witness_ImageBlocksLoadInOrder :
    ∀ b ∈ [(⟨0, [1, 2]⟩ : Block), ⟨0xFFF, [3]⟩, ⟨0x1000, []⟩], b.fits testConfig := by decide +kernel

/-- One tail for each clause: data too short, a value of 0x1000, a header cut short, a negative offset, a negative count, a block
one word too long. -/
theorem witness_MalformedImagesAreRefused :
    (Block.fits testConfig ⟨0, [1]⟩ ∧ ([0] : List Byte).length < 2 * 1 ∧ 16 ≤ ([0, 16] : List Byte)[1].toNat) ∧
    (0 < ([0, 0, 0, 0, 0, 0, 0] : List Byte).length ∧ ([0, 0, 0, 0, 0, 0, 0] : List Byte).length < 8) ∧
    (0xFFFFFFFF : BitVec 32).toInt < 0 ∧ (testConfig.romSize : Int) < (0xFFF : BitVec 32).toInt + (2 : BitVec 32).toInt := by
  decide +kernel

end Sys2Proof.Tests
end

