-- ==== Sys2Proof/Proofs/AluWordResults.lean ====
section
/-! PROOFS. The results of `add`, `mul`, `or`, `xor` and `and` (spec/41_alu_word.md R132, R134, R142 to R144): the arm of `exec`
names a shape and an ALU operation, the law of the shape gives the next state, the law of the operation gives result and carry. -/

namespace Sys2Proof.Machine

variable {s : State}

/-! ### The shape and the operation of each instruction -/

theorem exec_add_eq (s : State) : exec .add s = runOp (binaryWord aluAdd) s := rfl

theorem exec_mul_eq (s : State) : exec .mul s = runOp (binaryWord aluMul) s := rfl

theorem exec_or_eq (s : State) : exec .or s = runOp (binaryWordKeep aluOr) s := rfl

theorem exec_xor_eq (s : State) : exec .xor s = runOp (binaryWordKeep aluXor) s := rfl

theorem exec_and_eq (s : State) : exec .and s = runOp (binaryWordKeep aluAnd) s := rfl

/-! ### The outcome of each shape -/

/-- A binary word instruction (R130) whose operation gives `(r, c)` on its two operands. -/
theorem runOp_binaryWord {op : Word → Word → Word × Bool} {r : Word} {c : Bool} (h : s.binaryWordReady)
    (hop : op (s.stackWord 1) (s.stackWord 0) = (r, c)) :
    runOp (binaryWord op) s = .next (s.afterBinaryWord r c) := by
  rw [runOp_ok (binaryWord_ok h), hop]

/-- A binary word instruction that leaves carry as it was (R130, R142). -/
theorem runOp_binaryWordKeep (op : Word → Word → Word) (h : s.binaryWordReady) :
    runOp (binaryWordKeep op) s = .next (s.afterBinaryWord (op (s.stackWord 1) (s.stackWord 0)) s.carry) :=
  runOp_ok (binaryWordKeep_ok h)

/-! ### Carry at 12 bits -/

/-- Carry as the word rules write it: reaching 2^12 is exceeding 0xFFF. -/
theorem decide_wordOverflow (v : Nat) : decide (2 ^ 12 ≤ v) = decide (v > 0xFFF) := by
  rw [decide_eq_decide]
  omega

theorem aluAdd_word (a b : Word) : aluAdd a b = (a + b, decide (a.toNat + b.toNat > 0xFFF)) := by
  rw [aluAdd_eq, decide_wordOverflow]

theorem aluMul_word (a b : Word) : aluMul a b = (a * b, decide (a.toNat * b.toNat > 0xFFF)) := by
  rw [aluMul_eq, decide_wordOverflow]

/-! ### The statements -/

/-- Settles O23: `add` is the binary word shape over the 12-bit sum. -/
theorem addResult : Obligations.AddResult := by
  refine ⟨by decide, fun s hready => ?_⟩
  rw [exec_add_eq]
  exact runOp_binaryWord hready (aluAdd_word _ _)

/-- Settles O25: `mul` is the binary word shape over the low word of the product. -/
theorem mulResult : Obligations.MulResult := by
  refine ⟨by decide, fun s hready => ?_⟩
  rw [exec_mul_eq]
  exact runOp_binaryWord hready (aluMul_word _ _)

/-- Settles O29: the three bitwise instructions are the binary word shape that leaves carry. -/
theorem bitwiseWordResults : Obligations.BitwiseWordResults := by
  refine ⟨by decide, by decide, by decide, fun s hready => ⟨?_, ?_, ?_⟩⟩
  · rw [exec_or_eq]
    exact runOp_binaryWordKeep aluOr hready
  · rw [exec_xor_eq]
    exact runOp_binaryWordKeep aluXor hready
  · rw [exec_and_eq]
    exact runOp_binaryWordKeep aluAnd hready

end Sys2Proof.Machine
end

/-! PROOFS. The result of `ret` (spec/43_call_return.md R195): the law `tearDown_eq` says everything the teardown can do, and each
of its three cases is one clause of the statement. -/

namespace Sys2Proof.Machine

variable {s : State}

theorem exec_ret_eq (s : State) : exec .ret s = runOp tearDown s := rfl

/-! ### The three cases of the teardown -/

/-- The state with the frame at FP dropped and PC and FP taken from its header (R195). -/
def State.afterTearDown (s : State) : State :=
  { s with
    sp := BitVec.ofNat 24 (s.fp.toNat - 1 - s.localsWord)
    pc := longOf (s.mem.read s.fp.toNat) (s.mem.read (s.fp.toNat + 1))
    fp := longOf (s.mem.read (s.fp.toNat + 2)) (s.mem.read (s.fp.toNat + 3)) }

theorem tearDown_ok (hheader : s.readable (s.fp.toNat + 4)) (hlocals : s.localsWord + 1 ≤ s.fp.toNat) :
    tearDown s = .ok () s.afterTearDown := by
  rw [tearDown_eq, if_neg (Nat.not_le.mpr hheader), if_neg (Nat.not_lt.mpr hlocals)]
  rfl

theorem tearDown_addrRange (hheader : ¬ s.readable (s.fp.toNat + 4)) : tearDown s = .error .addrRange s := by
  rw [tearDown_eq, if_pos (Nat.not_lt.mp hheader)]

theorem tearDown_regRange (hheader : s.readable (s.fp.toNat + 4)) (hlocals : s.fp.toNat < s.localsWord + 1) :
    tearDown s = .error .regRange s := by
  rw [tearDown_eq, if_neg (Nat.not_le.mpr hheader), if_pos hlocals]

/-! ### The statement -/

/-- Settles O45: `ret` is the teardown, run to its end or to one of its two faults. -/
theorem returnResult : Obligations.ReturnResult := by
  refine ⟨by decide, fun s => ⟨fun hheader hlocals => ?_, fun hheader => ?_, fun hheader hlocals => ?_⟩⟩
  · rw [exec_ret_eq]
    exact runOp_ok (tearDown_ok hheader hlocals)
  · rw [exec_ret_eq]
    exact runOp_error (tearDown_addrRange hheader)
  · rw [exec_ret_eq]
    exact runOp_error (tearDown_regRange hheader hlocals)

end Sys2Proof.Machine

/-! PROOFS. The jumps on nothing, on one word and on two words (spec/44_control_transfer.md R212 to R222): the arm of `exec` names
a shape and a test, the law of the shape gives the next state, and one lemma gives the four words of every mode. -/

namespace Sys2Proof.Machine

variable {s : State} {target : Long} {taken : Bool}

/-! ### The words of a jump -/

/-- The four words of a `jmp` of a mode with a target, under the default maps (30_encoding.md R81, R83 b). -/
theorem encode_jump {i : Instr} {m : JmpMode} {v : Word} (hopcode : i.opcode = .jmp) (hmode : i.mode = some m)
    (hoperands : i.operandWords = targetWords target) (hnumber : wordOfName testConfig.modeMap m = some v) :
    encode testConfig i = [0x060, v, hiWord target, loWord target] := by
  have hjmp : wordOfName testConfig.opcodeMap .jmp = some 0x060 := by decide
  simp only [encode, hopcode, hmode, hoperands, hjmp, hnumber, targetWords]

/-! ### The shape and the test of each instruction -/

theorem exec_jmp_eq (target : Long) (s : State) : exec (.jmp target) s = runOp (branch target true) s := rfl

theorem exec_jc_eq (target : Long) (s : State) : exec (.jc target) s = runOp (jumpOnCarry target id) s := rfl

theorem exec_jcz_eq (target : Long) (s : State) : exec (.jcz target) s = runOp (jumpOnCarry target not) s := rfl

theorem exec_jz_eq (target : Long) (s : State) :
    exec (.jz target) s = runOp (jumpOnWord target fun v => decide (v = 0)) s := rfl

theorem exec_jnz_eq (target : Long) (s : State) :
    exec (.jnz target) s = runOp (jumpOnWord target fun v => decide (v ≠ 0)) s := rfl

/-! The four signed tests follow, with `sext` read as the library's `BitVec.toInt`. -/

theorem exec_jgz_eq (target : Long) (s : State) :
    exec (.jgz target) s = runOp (jumpOnWord target fun v => decide (0 < v.toInt)) s := by
  simp only [← sext_eq]
  rfl

theorem exec_jlz_eq (target : Long) (s : State) :
    exec (.jlz target) s = runOp (jumpOnWord target fun v => decide (v.toInt < 0)) s := by
  simp only [← sext_eq]
  rfl

theorem exec_jge_eq (target : Long) (s : State) :
    exec (.jge target) s = runOp (jumpOnWord target fun v => decide (0 ≤ v.toInt)) s := by
  simp only [← sext_eq]
  rfl

theorem exec_jle_eq (target : Long) (s : State) :
    exec (.jle target) s = runOp (jumpOnWord target fun v => decide (v.toInt ≤ 0)) s := by
  simp only [← sext_eq]
  rfl

theorem exec_jeq_eq (target : Long) (s : State) :
    exec (.jeq target) s = runOp (jumpOnWords target fun a b => decide (a = b)) s := rfl

theorem exec_jneq_eq (target : Long) (s : State) :
    exec (.jneq target) s = runOp (jumpOnWords target fun a b => decide (a ≠ b)) s := rfl

/-! ### The outcome of each shape -/

/-- A jump that pops nothing changes PC alone. -/
theorem State.afterJump_zero (s : State) (target : Long) (taken : Bool) :
    s.afterJump 0 target taken = { s with pc := if taken then target else s.pc + 4 } := by
  simp only [State.afterJump, BitVec.ofNat_eq_ofNat, BitVec.sub_zero]

theorem runOp_branch (h : taken = false → s.canAdvance 4) :
    runOp (branch target taken) s = .next (s.afterJump 0 target taken) := by
  rw [runOp_ok (branch_ok h), State.afterJump_zero]

/-! ### The statements -/

/-- Settles O35: `jmp` is the taken branch, `jc` and `jcz` are the carry shape, and none of them pops. -/
theorem jumpsThatPopNothing : Obligations.JumpsThatPopNothing := by
  intro s target
  simp only [List.forall_mem_cons, List.not_mem_nil, false_implies, implies_true, and_true]
  refine ⟨⟨encode_jump rfl rfl rfl (by decide), encode_jump rfl rfl rfl (by decide),
    encode_jump rfl rfl rfl (by decide)⟩, fun h => ?_, fun h => ?_, fun h => ?_⟩
  · rw [exec_jmp_eq]
    exact runOp_branch h
  · rw [exec_jc_eq]
    exact runOp_ok (jumpOnCarry_ok h)
  · rw [exec_jcz_eq]
    exact runOp_ok (jumpOnCarry_ok h)

/-- Settles O36: each of the six is the one-word shape over its test of the popped word. -/
theorem jumpsOnOneWord : Obligations.JumpsOnOneWord := by
  intro s target
  simp only [List.forall_mem_cons, List.not_mem_nil, false_implies, implies_true, and_true]
  refine ⟨⟨encode_jump rfl rfl rfl (by decide), encode_jump rfl rfl rfl (by decide),
    encode_jump rfl rfl rfl (by decide), encode_jump rfl rfl rfl (by decide), encode_jump rfl rfl rfl (by decide),
    encode_jump rfl rfl rfl (by decide)⟩, fun hsp hread =>
    ⟨fun h => ?_, fun h => ?_, fun h => ?_, fun h => ?_, fun h => ?_, fun h => ?_⟩⟩
  · rw [exec_jz_eq]
    exact runOp_ok (jumpOnWord_ok hsp hread h)
  · rw [exec_jnz_eq]
    exact runOp_ok (jumpOnWord_ok hsp hread h)
  · rw [exec_jgz_eq]
    exact runOp_ok (jumpOnWord_ok hsp hread h)
  · rw [exec_jlz_eq]
    exact runOp_ok (jumpOnWord_ok hsp hread h)
  · rw [exec_jge_eq]
    exact runOp_ok (jumpOnWord_ok hsp hread h)
  · rw [exec_jle_eq]
    exact runOp_ok (jumpOnWord_ok hsp hread h)

/-- Settles O37: both are the two-word shape, over equality and over inequality of the popped words. -/
theorem jumpsOnTwoWords : Obligations.JumpsOnTwoWords := by
  intro s target
  simp only [List.forall_mem_cons, List.not_mem_nil, false_implies, implies_true, and_true]
  refine ⟨⟨encode_jump rfl rfl rfl (by decide), encode_jump rfl rfl rfl (by decide)⟩,
    fun hsp hread => ⟨fun h => ?_, fun h => ?_⟩⟩
  · rw [exec_jeq_eq]
    exact runOp_ok (jumpOnWords_ok hsp hread h)
  · rw [exec_jneq_eq]
    exact runOp_ok (jumpOnWords_ok hsp hread h)

end Sys2Proof.Machine

/-! PROOFS. Decoding and encoding (spec/30_encoding.md R80 to R89): each map reads its entries in both directions, the operand
words are read back per format, and the two directions of the round trip put these together. -/

namespace Sys2Proof

/-! ### The two directions of a map -/

section
variable {α : Type} {m : List (Word × α)} {w : Word} {a : α}

theorem mem_of_nameOfWord (h : nameOfWord m w = some a) : (w, a) ∈ m := by
  induction m with
  | nil => cases h
  | cons e m ih =>
    obtain ⟨v, b⟩ := e
    unfold nameOfWord at h
    split at h
    case isTrue hv => cases h; exact hv ▸ List.mem_cons_self
    case isFalse => exact List.mem_cons_of_mem _ (ih h)

theorem nameOfWord_of_mem (hm : (m.map Prod.fst).Nodup) (h : (w, a) ∈ m) : nameOfWord m w = some a := by
  induction m with
  | nil => cases h
  | cons e m ih =>
    obtain ⟨v, b⟩ := e
    obtain ⟨hv, hm⟩ := List.nodup_cons.mp hm
    unfold nameOfWord
    rcases List.mem_cons.mp h with heq | hmem
    · cases heq; exact if_pos rfl
    · rw [if_neg fun e : v = w => hv (List.mem_map.mpr ⟨(w, a), hmem, e.symm⟩)]
      exact ih hm hmem

/-- A map has no name for a word exactly where it numbers nothing so. -/
theorem nameOfWord_eq_none_iff : nameOfWord m w = none ↔ ∀ p ∈ m, p.1 ≠ w := by
  induction m with
  | nil => simp [nameOfWord]
  | cons e m ih =>
    obtain ⟨v, b⟩ := e
    rw [nameOfWord, List.forall_mem_cons, ← ih]
    by_cases hv : v = w <;> simp [hv]

variable [DecidableEq α]

theorem mem_of_wordOfName (h : wordOfName m a = some w) : (w, a) ∈ m := by
  induction m with
  | nil => cases h
  | cons e m ih =>
    obtain ⟨v, b⟩ := e
    unfold wordOfName at h
    split at h
    case isTrue hb => cases h; exact hb ▸ List.mem_cons_self
    case isFalse => exact List.mem_cons_of_mem _ (ih h)

theorem wordOfName_of_mem (hm : (m.map Prod.snd).Nodup) (h : (w, a) ∈ m) : wordOfName m a = some w := by
  induction m with
  | nil => cases h
  | cons e m ih =>
    obtain ⟨v, b⟩ := e
    obtain ⟨hb, hm⟩ := List.nodup_cons.mp hm
    unfold wordOfName
    rcases List.mem_cons.mp h with heq | hmem
    · cases heq; exact if_pos rfl
    · rw [if_neg fun e : b = a => hb (List.mem_map.mpr ⟨(w, a), hmem, e.symm⟩)]
      exact ih hm hmem

/-- Under a map that repeats no name, a name that is mapped has a number. -/
theorem exists_wordOfName (hm : (m.map Prod.snd).Nodup) (h : a ∈ m.map Prod.snd) : ∃ w, wordOfName m a = some w := by
  obtain ⟨⟨w, b⟩, hmem, rfl⟩ := List.mem_map.mp h
  exact ⟨w, wordOfName_of_mem hm hmem⟩

end

/-! ### The encoder, per number of fixed words -/

section
variable {c : Config} {i : Instr} {w v : Word} {m : JmpMode}

theorem encode_of_no_mode (hw : wordOfName c.opcodeMap i.opcode = some w) (hmode : i.mode = none) :
    encode c i = w :: i.operandWords := by
  simp only [encode, hw, hmode]

theorem encode_of_mode (hw : wordOfName c.opcodeMap i.opcode = some w) (hmode : i.mode = some m)
    (hv : wordOfName c.modeMap m = some v) : encode c i = w :: v :: i.operandWords := by
  simp only [encode, hw, hmode, hv]

theorem opcode_of_mode (hmode : i.mode = some m) : i.opcode = .jmp := by
  cases i with
  | jmp | jz | jnz | jc | jcz | jgz | jlz | jge | jle | jeq | jneq | jro | jzL | jnzL | jgzL | jlzL => rfl
  | _ => cases hmode

/-! ### The decoder, per number of fixed words -/

theorem decode_cons {op : Opcode} (ws : List Word) (hw : nameOfWord c.opcodeMap w = some op) :
    decode c (w :: ws) = decodeOperands c ws op := by
  simp only [decode, hw]

theorem decodeJmp_cons (ws : List Word) (hv : nameOfWord c.modeMap v = some m) :
    decodeJmp c (v :: ws) = decodeMode ws m := by
  simp only [decodeJmp, hv]

theorem decodeTarget_targetWords (mk : Long → Instr) (t : Long) (rest : List Word) :
    decodeTarget mk (targetWords t ++ rest) = .ok (mk t) := by
  show Except.ok (mk (longOf (hiWord t) (loWord t))) = _
  rw [Machine.longOf_hi_lo]

/-- The decoder reads the operand words of an instruction that is no `jmp` back. -/
theorem decodeOperands_operandWords (rest : List Word) (hmode : i.mode = none) :
    decodeOperands c (i.operandWords ++ rest) i.opcode = .ok i := by
  cases i with
  | call t => exact decodeTarget_targetWords _ t rest
  | jmp | jz | jnz | jc | jcz | jgz | jlz | jge | jle | jeq | jneq | jro | jzL | jnzL | jgzL | jlzL => cases hmode
  | _ => rfl

/-- The decoder reads the target words of a `jmp` back. -/
theorem decodeMode_operandWords (rest : List Word) (hmode : i.mode = some m) :
    decodeMode (i.operandWords ++ rest) m = .ok i := by
  cases i with
  | jmp t | jz t | jnz t | jc t | jcz t | jgz t | jlz t | jge t | jle t | jeq t | jneq t | jzL t | jnzL t | jgzL t | jlzL t =>
    cases hmode
    exact decodeTarget_targetWords _ t rest
  | jro => cases hmode; rfl
  | _ => cases hmode

/-! ### What decoded words are -/

theorem decodeK_ok {mk : Word → Instr} {ws : List Word} (h : decodeK mk ws = .ok i) :
    ∃ k rest, i = mk k ∧ ws = k :: rest := by
  match ws, h with
  | k :: rest, h => cases h; exact ⟨k, rest, rfl, rfl⟩

theorem decodeTarget_ok {mk : Long → Instr} {ws : List Word} (h : decodeTarget mk ws = .ok i) :
    ∃ t rest, i = mk t ∧ ws = targetWords t ++ rest := by
  match ws, h with
  | hi :: lo :: rest, h =>
    cases h
    refine ⟨longOf hi lo, rest, rfl, ?_⟩
    rw [targetWords, Machine.hiWord_longOf, Machine.loWord_longOf]
    rfl

theorem decodeMode_ok {ws : List Word} (h : decodeMode ws m = .ok i) :
    i.mode = some m ∧ ∃ rest, ws = i.operandWords ++ rest := by
  cases m with
  | ro => cases h; exact ⟨rfl, ws, rfl⟩
  | _ =>
    obtain ⟨t, rest, rfl, hws⟩ := decodeTarget_ok h
    exact ⟨rfl, rest, hws⟩

theorem decodeJmp_ok {ws : List Word} (h : decodeJmp c ws = .ok i) :
    ∃ v m rest, nameOfWord c.modeMap v = some m ∧ i.mode = some m ∧ ws = v :: i.operandWords ++ rest := by
  match ws, h with
  | v :: ws, h =>
    cases hv : nameOfWord c.modeMap v with
    | none => simp only [decodeJmp, hv] at h; cases h
    | some m =>
      rw [decodeJmp_cons ws hv] at h
      obtain ⟨hmode, rest, rfl⟩ := decodeMode_ok h
      exact ⟨v, m, rest, hv, hmode, rfl⟩

theorem decodeOperands_ok {op : Opcode} {ws : List Word} (hop : op ≠ .jmp) (h : decodeOperands c ws op = .ok i) :
    i.opcode = op ∧ i.mode = none ∧ ∃ rest, ws = i.operandWords ++ rest := by
  cases op with
  | loadLit | loadLocal | storeLocal =>
    obtain ⟨k, rest, rfl, hws⟩ := decodeK_ok h
    exact ⟨rfl, rfl, rest, hws⟩
  | call =>
    obtain ⟨t, rest, rfl, hws⟩ := decodeTarget_ok h
    exact ⟨rfl, rfl, rest, hws⟩
  | jmp => exact absurd rfl hop
  | _ => cases h; exact ⟨rfl, rfl, ws, rfl⟩

theorem decode_ok {ws : List Word} (h : decode c ws = .ok i) :
    ∃ w op ws', nameOfWord c.opcodeMap w = some op ∧ ws = w :: ws' ∧ decodeOperands c ws' op = .ok i := by
  match ws, h with
  | w :: ws', h =>
    cases hw : nameOfWord c.opcodeMap w with
    | none => simp only [decode, hw] at h; cases h
    | some op => exact ⟨w, op, ws', hw, rfl, decode_cons ws' hw ▸ h⟩

theorem modeMapped_of_no_mode (hmode : i.mode = none) : i.modeMapped c := by
  intro m hm
  rw [hmode] at hm
  cases hm

theorem modeMapped_of_mode (hmode : i.mode = some m) (hmem : (v, m) ∈ c.modeMap) : i.modeMapped c := by
  intro m' hm
  rw [hmode] at hm
  cases hm
  exact List.mem_map_of_mem hmem

/-- Words that decode begin with the encoding of a well-formed instruction. -/
theorem decode_ok_encode {ws : List Word} (hc : c.mapsWf) (h : decode c ws = .ok i) :
    i.wf c ∧ encode c i ≠ [] ∧ ∃ rest, ws = encode c i ++ rest := by
  obtain ⟨-, hopcodes, -, hmodes⟩ := hc
  obtain ⟨w, op, ws', hw, rfl, hops⟩ := decode_ok h
  have hop := mem_of_nameOfWord hw
  have hword := wordOfName_of_mem hopcodes hop
  by_cases hjmp : op = .jmp
  · subst hjmp
    obtain ⟨v, m, rest, hv, hmode, rfl⟩ := decodeJmp_ok hops
    have hmem := mem_of_nameOfWord hv
    rw [← opcode_of_mode hmode] at hop hword
    have henc := encode_of_mode hword hmode (wordOfName_of_mem hmodes hmem)
    exact ⟨⟨List.mem_map_of_mem hop, modeMapped_of_mode hmode hmem⟩, by simp [henc], rest, by rw [henc]; rfl⟩
  · obtain ⟨rfl, hmode, rest, rfl⟩ := decodeOperands_ok hjmp hops
    have henc := encode_of_no_mode hword hmode
    exact ⟨⟨List.mem_map_of_mem hop, modeMapped_of_no_mode hmode⟩, by simp [henc], rest, by rw [henc]; rfl⟩

end

/-! ### Words that no map numbers -/

theorem decodeTarget_error {mk : Long → Instr} {ws : List Word} {e : DecodeError}
    (h : decodeTarget mk ws = .error e) : e = .truncated := by
  match ws, h with
  | [_], h | [], h => cases h; rfl

theorem decodeK_error {mk : Word → Instr} {ws : List Word} {e : DecodeError} (h : decodeK mk ws = .error e) :
    e = .truncated := by
  match ws, h with
  | [], h => cases h; rfl

/-- Operand words can only be missing (30_encoding.md R88). -/
theorem decodeMode_error {m : JmpMode} {ws : List Word} {e : DecodeError} (h : decodeMode ws m = .error e) :
    e = .truncated := by
  cases m with
  | ro => cases h
  | _ => exact decodeTarget_error h

theorem decodeJmp_error {c : Config} {ws : List Word} {e : DecodeError} (h : decodeJmp c ws = .error e) :
    e ≠ .unknownOpcode := by
  match ws, h with
  | [], h => cases h; decide
  | v :: ws, h =>
    cases hv : nameOfWord c.modeMap v with
    | none => simp only [decodeJmp, hv] at h; cases h; decide
    | some m => rw [decodeJmp_cons ws hv] at h; rw [decodeMode_error h]; decide

theorem decodeOperands_error {c : Config} {op : Opcode} {ws : List Word} {e : DecodeError}
    (h : decodeOperands c ws op = .error e) : e ≠ .unknownOpcode := by
  cases op with
  | loadLit | loadLocal | storeLocal => rw [decodeK_error h]; decide
  | call => rw [decodeTarget_error h]; decide
  | jmp => exact decodeJmp_error h
  | _ => cases h

/-- Only a first word that the opcode map does not number is an unknown opcode, whatever follows (30_encoding.md R82). -/
theorem decode_unknownOpcode_iff {c : Config} {w : Word} {ws : List Word} :
    decode c (w :: ws) = .error .unknownOpcode ↔ nameOfWord c.opcodeMap w = none := by
  cases hw : nameOfWord c.opcodeMap w with
  | none => simp only [decode, hw]
  | some op =>
    rw [decode_cons ws hw]
    exact ⟨fun h => absurd rfl (decodeOperands_error h), fun h => nomatch h⟩

/-- Only a mode word that the mode map does not number is an unknown mode, whatever follows (30_encoding.md R89). -/
theorem decodeJmp_unknownMode_iff {c : Config} {v : Word} {ws : List Word} :
    decodeJmp c (v :: ws) = .error .unknownMode ↔ nameOfWord c.modeMap v = none := by
  cases hv : nameOfWord c.modeMap v with
  | none => simp only [decodeJmp, hv]
  | some m =>
    rw [decodeJmp_cons ws hv]
    exact ⟨fun h => (nomatch decodeMode_error h), fun h => nomatch h⟩

/-- The words that the default opcode map does not number (30_encoding.md R87). -/
theorem defaultOpcodeMap_none_iff (w : Word) : nameOfWord defaultOpcodeMap w = none ↔
    (w.toNat ≤ 0x00F ∨ (0x014 ≤ w.toNat ∧ w.toNat ≤ 0x01F) ∨ (0x02F ≤ w.toNat ∧ w.toNat ≤ 0x03F) ∨ w.toNat = 0x043 ∨
     (0x04D ≤ w.toNat ∧ w.toNat ≤ 0x05F) ∨ (0x065 ≤ w.toNat ∧ w.toNat ≤ 0x06F) ∨ 0x073 ≤ w.toNat) := by
  rw [nameOfWord_eq_none_iff]
  simp only [defaultOpcodeMap, List.forall_mem_append, List.forall_mem_cons, List.not_mem_nil, false_implies,
    implies_true, and_true, ne_eq, BitVec.toNat_eq, BitVec.reduceToNat]
  omega

/-- The words that the default mode map does not number (30_encoding.md R87). -/
theorem defaultModeMap_none_iff (v : Word) : nameOfWord defaultModeMap v = none ↔
    ((0x00C ≤ v.toNat ∧ v.toNat ≤ 0x010) ∨ v.toNat = 0x013 ∨ v.toNat = 0x014 ∨ 0x017 ≤ v.toNat) := by
  rw [nameOfWord_eq_none_iff]
  simp only [defaultModeMap, List.forall_mem_append, List.forall_mem_cons, List.not_mem_nil, false_implies,
    implies_true, and_true, ne_eq, BitVec.toNat_eq, BitVec.reduceToNat]
  omega

/-! ### The statements -/

/-- Settles O1: the opcode word, the mode word of a `jmp` and the operand words are each read back. -/
theorem decodeOfEncodeIsTheInstruction : Obligations.DecodeOfEncodeIsTheInstruction := by
  intro c i rest ⟨hwords, hopcodes, hmodeWords, hmodes⟩ ⟨hop, hm⟩
  obtain ⟨w, hw⟩ := exists_wordOfName hopcodes hop
  have hname := nameOfWord_of_mem hwords (mem_of_wordOfName hw)
  cases hmode : i.mode with
  | none =>
    rw [encode_of_no_mode hw hmode, List.cons_append, decode_cons _ hname]
    exact decodeOperands_operandWords rest hmode
  | some m =>
    obtain ⟨v, hv⟩ := exists_wordOfName hmodes (hm m hmode)
    rw [encode_of_mode hw hmode hv, List.cons_append, decode_cons _ hname, opcode_of_mode hmode]
    calc decodeJmp c (v :: i.operandWords ++ rest)
      _ = decodeMode (i.operandWords ++ rest) m :=
        decodeJmp_cons _ (nameOfWord_of_mem hmodeWords (mem_of_wordOfName hv))
      _ = .ok i := decodeMode_operandWords rest hmode

/-- Settles O2: the words are the encoding and a rest, and the encoding is as long as the instruction. -/
theorem encodeOfDecodeIsTheWords : Obligations.EncodeOfDecodeIsTheWords := by
  intro c i ws hc h
  obtain ⟨hwf, hne, rest, rfl⟩ := decode_ok_encode hc h
  refine ⟨hwf, ?_⟩
  rw [← Laws.EncodedLength.of_instr i c hne, List.drop_left]

/-- Settles O3: the decoder evaluates on each of the nine lists of words. -/
theorem writtenOutWordsDecode : Obligations.WrittenOutWordsDecode := by
  unfold Obligations.WrittenOutWordsDecode
  decide

/-- Settles O4: an unknown word is one that no entry of its map numbers, and the numbers of the two maps are intervals. -/
theorem illegalWordsAreRejectedByName : Obligations.IllegalWordsAreRejectedByName := by
  refine ⟨fun w ws => ?_, fun v ws => ?_⟩
  · exact decode_unknownOpcode_iff.trans (defaultOpcodeMap_none_iff w)
  · have hjmp : nameOfWord testConfig.opcodeMap 0x060 = some .jmp := by decide
    rw [decode_cons _ hjmp]
    exact decodeJmp_unknownMode_iff.trans (defaultModeMap_none_iff v)

end Sys2Proof

/-! PROOFS. The system instructions (spec/45_system.md): the one next state of `eni`, `dsi` and `hlt`, by whether PC can advance,
and what the statements read off it. -/

namespace Sys2Proof.Machine

variable {s t : State}

/-! ### The next state of each instruction -/

/-- The end of every instruction that only advances PC after its other effects. -/
theorem runOp_advance (n : Nat) (s : State) : runOp (advance n) s =
    .next (if s.canAdvance n then { s with pc := s.pc + BitVec.ofNat 24 n } else s.takeFault .regRange) := by
  by_cases h : s.canAdvance n
  · rw [if_pos h, runOp_ok (advance_ok h)]
  · rw [if_neg h, runOp_error (by rw [advance_eq, if_neg h])]

theorem exec_eni_eq (s : State) : exec .eni s =
    .next (if s.canAdvance 1 then { s with ie := true, pc := s.pc + 1 } else State.takeFault { s with ie := true } .regRange) :=
  runOp_advance 1 { s with ie := true }

theorem exec_dsi_eq (s : State) : exec .dsi s =
    .next (if s.canAdvance 1 then { s with ie := false, pc := s.pc + 1 } else State.takeFault { s with ie := false } .regRange) :=
  runOp_advance 1 { s with ie := false }

/-- `hlt` with interrupts enabled (R242). -/
theorem exec_hlt_enabled (hie : s.ie = true) : exec .hlt s =
    .next (if s.canAdvance 1 then
        if s.pending = none then { s with pc := s.pc + 1, halted := true } else { s with pc := s.pc + 1 }
      else s.takeFault .regRange) := by
  show execHlt s = _
  unfold execHlt
  rw [if_pos hie]
  by_cases h : s.canAdvance 1
  · rw [if_pos h]
    exact runOp_ok (Op.bind_ok (advance_ok h))
  · rw [if_neg h, runOp_error (Op.bind_error (by rw [advance_eq, if_neg h]))]

/-- `hlt` with interrupts disabled (R242). -/
theorem exec_hlt_disabled (hie : s.ie = false) : exec .hlt s = .next s.haltDisabled := by
  show execHlt s = _
  unfold execHlt
  rw [if_neg (by simp [hie])]

/-- PC after a terminating `hlt` is one of the two addresses of R300. -/
theorem haltPc_cases (d : Nat) (pc : Long) : haltPc d pc = pc ∨ (pc.toNat + 1 < addressLimit ∧ haltPc d pc = pc + 1) := by
  unfold haltPc
  split
  case isTrue h => exact .inr ⟨h.2, rfl⟩
  case isFalse => exact .inl rfl

/-- What `hlt` can do: fault, wait, go on with a request pending, or end the run. -/
theorem exec_hlt_cases (h : exec .hlt s = .next t) :
    t = s.takeFault .regRange ∨
    (s.ie = true ∧ s.pending = none ∧ t = { s with pc := s.pc + 1, halted := true }) ∨
    t = { s with pc := s.pc + 1 } ∨
    (s.ie = false ∧ t = s.haltDisabled) := by
  rcases Bool.eq_false_or_eq_true s.ie with hie | hie
  · rw [exec_hlt_enabled hie] at h
    cases h
    split
    · split
      case isTrue hpending => exact .inr (.inl ⟨hie, hpending, rfl⟩)
      · exact .inr (.inr (.inl rfl))
    · exact .inl rfl
  · rw [exec_hlt_disabled hie] at h
    cases h
    exact .inr (.inr (.inr ⟨hie, rfl⟩))

/-! ### The statements -/

/-- Settles O48: the two clauses are the two branches of the one next state of each. -/
theorem enableAndDisable : Obligations.EnableAndDisable := by
  refine ⟨by decide, by decide, fun s => ⟨fun h => ⟨?_, ?_⟩, fun h => ⟨?_, ?_⟩⟩⟩
  · rw [exec_eni_eq, if_pos h]
  · rw [exec_dsi_eq, if_pos h]
  · rw [exec_eni_eq, if_neg h]
  · rw [exec_dsi_eq, if_neg h]

/-- Settles O49: with room to advance, the slot decides whether `hlt` waits. -/
theorem haltWaitsWhenEnabled : Obligations.HaltWaitsWhenEnabled := by
  refine ⟨by decide, fun s hie hadvance => ⟨fun hpending => ?_, fun hpending => ?_⟩⟩
  · rw [exec_hlt_enabled hie, if_pos hadvance, if_pos hpending]
  · rw [exec_hlt_enabled hie, if_pos hadvance, if_neg hpending]

/-- Settles O50: the state of `terminate(HaltDisabled)`, with PC one of the two addresses. -/
theorem haltEndsTheRunWhenDisabled : Obligations.HaltEndsTheRunWhenDisabled := fun s hie =>
  ⟨haltPc s.draws s.pc, s.draws + 1, exec_hlt_disabled hie, haltPc_cases s.draws s.pc⟩

/-- Settles O57: no branch of the three writes anything but PC, run, the draws and the instruction's own flag. -/
theorem systemFrame : Obligations.SystemFrame := by
  intro i hi s t h
  simp only [List.mem_cons, List.not_mem_nil, or_false] at hi
  rcases hi with rfl | rfl | rfl
  · rw [exec_eni_eq] at h
    cases h
    split <;> simp
  · rw [exec_dsi_eq] at h
    cases h
    split <;> simp
  · rcases exec_hlt_cases h with rfl | ⟨-, -, rfl⟩ | rfl | ⟨-, rfl⟩ <;> simp

end Sys2Proof.Machine

/-! PROOFS. The loop (spec/70_reset_and_hazards.md R295, spec/60_exceptions.md R259): which step the machine takes, what a fetch
reads and faults on, and the access checks under it (spec/20_memory.md R55, R56). -/

namespace Sys2Proof.Machine

variable {s : State} {i : Instr}

/-! ### Which step the machine takes -/

theorem step_of_executes (h : s.executes) : step s = executeStep s := by
  obtain ⟨hrun, hhalted, hphase, hschedule⟩ := h
  simp [step, machineStep, runningStep, coreStep, hrun, hhalted, hphase, hschedule]

theorem step_of_checks (h : s.checks) : step s = checkStep s := by
  obtain ⟨hrun, hhalted, hphase, hschedule⟩ := h
  simp [step, machineStep, runningStep, coreStep, hrun, hhalted, hphase, hschedule]

theorem step_of_request {q : Request} {rest : List Event} (hrun : s.run = .running)
    (hschedule : s.schedule = .request q :: rest) (hq : q.wf) : step s = .next (request q { s with schedule := rest }).2 := by
  simp [step, machineStep, runningStep, requestStep, hrun, hschedule, hq]

theorem executeStep_of_decode_ok (h : decode s.cfg (readableWords s s.pc.toNat 4) = .ok i) :
    executeStep s = afterInstruction (exec i s) := by
  simp only [executeStep, fetch, h]

theorem executeStep_of_decode_error {e : DecodeError} (h : decode s.cfg (readableWords s s.pc.toNat 4) = .error e) :
    executeStep s = .next (s.takeFault (faultOfDecode e)) := by
  simp only [executeStep, fetch, h]

theorem afterInstruction_running {t : State} (h : t.run = .running) :
    afterInstruction (.next t) = .next { t with phase := .check } := by
  rw [afterInstruction, State.afterExec_eq, if_pos h]

theorem afterInstruction_ended {t : State} (h : t.run ≠ .running) : afterInstruction (.next t) = .next t := by
  rw [afterInstruction, State.afterExec_eq, if_neg h]

/-! ### The words a fetch reads -/

theorem readableWords_cons {a : Nat} (n : Nat) (h : s.readable a) :
    readableWords s a (n + 1) = s.mem.read a :: readableWords s (a + 1) n := if_pos h

theorem readableWords_nil {a : Nat} (n : Nat) (h : ¬ s.readable a) : readableWords s a n = [] := by
  cases n with
  | zero => rfl
  | succ n => exact if_neg h

/-- Where an address is not there, no word from it upward is read. -/
theorem readableWords_length_le {a k : Nat} (n : Nat) (h : ¬ s.readable (a + k)) : (readableWords s a n).length ≤ k := by
  induction k generalizing a n with
  | zero => rw [readableWords_nil n (by simpa using h)]; exact Nat.le_refl 0
  | succ k ih =>
    by_cases ha : s.readable a
    · cases n with
      | zero => exact Nat.zero_le _
      | succ n =>
        rw [readableWords_cons n ha, List.length_cons]
        exact Nat.succ_le_succ (ih n (by rwa [Nat.add_right_comm, Nat.add_assoc]))
    · rw [readableWords_nil n ha]
      exact Nat.zero_le _

/-- Words that stand in memory are the first that are read. -/
theorem readableWords_eq_append {a n : Nat} {ws : List Word} (hn : ws.length ≤ n)
    (h : ∀ k (hk : k < ws.length), s.readable (a + k) ∧ s.mem.read (a + k) = ws[k]) :
    ∃ rest, readableWords s a n = ws ++ rest := by
  induction ws generalizing a n with
  | nil => exact ⟨_, rfl⟩
  | cons w ws ih =>
    obtain ⟨n, rfl⟩ : ∃ n', n = n' + 1 := ⟨n - 1, by simp only [List.length_cons] at hn; omega⟩
    obtain ⟨ha, hw⟩ := h 0 (by simp)
    obtain ⟨rest, hrest⟩ := ih (a := a + 1) (Nat.le_of_succ_le_succ hn) fun k hk => by
      have := h (k + 1) (by simpa using hk)
      rwa [show a + (k + 1) = a + 1 + k by omega] at this
    rw [Nat.add_zero] at ha hw
    refine ⟨rest, ?_⟩
    rw [readableWords_cons n ha, hrest, hw]
    rfl

theorem operandWords_length_le (i : Instr) : i.operandWords.length ≤ 2 := by
  cases i <;> simp [Instr.operandWords, targetWords]

/-- "the longest instruction has four words" (30_encoding.md R80). -/
theorem encode_length_le (c : Config) (i : Instr) : (encode c i).length ≤ 4 := by
  by_cases h : encode c i = []
  · simp [h]
  · have hoperands := operandWords_length_le i
    rw [Laws.EncodedLength.of_instr i c h, Instr.length]
    split <;> omega

/-! ### What a fetch faults on -/

theorem step_of_decode_error {e : DecodeError} (hs : s.executes) {ws : List Word}
    (hws : readableWords s s.pc.toNat 4 = ws) (h : decode s.cfg ws = .error e) :
    step s = .next (s.takeFault (faultOfDecode e)) := by
  rw [step_of_executes hs, executeStep_of_decode_error (hws ▸ h)]

theorem decodeTarget_short (mk : Long → Instr) {ws : List Word} (h : ws.length ≤ 1) :
    decodeTarget mk ws = .error .truncated := by
  match ws, h with
  | [], _ | [_], _ => rfl

theorem decodeMode_short {m : JmpMode} (hm : m ≠ .ro) {ws : List Word} (h : ws.length ≤ 1) :
    decodeMode ws m = .error .truncated := by
  cases m with
  | ro => exact absurd rfl hm
  | _ => exact decodeTarget_short _ h

theorem fetch_beyond_memory (h : ¬ s.readable s.pc.toNat) : fetch s = .error .addrRange := by
  simp only [fetch, readableWords_nil 4 h, decode, faultOfDecode]

/-! ### The statements -/

/-- Settles O5: the step is the execute step, which sets the phase back where the run goes on. -/
theorem stepRunsTheDecodedInstruction : Obligations.StepRunsTheDecodedInstruction := by
  intro s i hs hdecode
  have hstep : step s = afterInstruction (exec i s) := by
    rw [step_of_executes hs, executeStep_of_decode_ok hdecode]
  refine ⟨hstep, fun t ht hrun => ?_, fun t ht hrun => ?_⟩
  · rw [hstep, ht, afterInstruction_running hrun]
  · rw [hstep, ht, afterInstruction_ended hrun]

/-- Settles O6: the words read begin with the encoding, and decoding an encoding gives the instruction back. -/
theorem stepRunsTheWordsInMemory : Obligations.StepRunsTheWordsInMemory := by
  intro s i hs hmaps hi hmem
  obtain ⟨rest, hwords⟩ := readableWords_eq_append (encode_length_le s.cfg i) hmem
  rw [step_of_executes hs, executeStep_of_decode_ok]
  rw [hwords]
  exact decodeOfEncodeIsTheInstruction s.cfg i rest hmaps hi

/-- Settles O7: the words that are there decide how far the decoder comes. -/
theorem fetchFaultsChangeNothingElse : Obligations.FetchFaultsChangeNothingElse := by
  intro s hs
  refine ⟨fun h0 => ?_, fun h0 hop => ?_, fun h0 hop => ⟨fun h1 => ?_, fun h1 hmode => ?_, fun m hm h1 hmode h3 => ?_⟩,
    fun op hmem h0 hop h1 => ?_, fun h0 hop h2 => ?_⟩
  · exact step_of_decode_error hs (readableWords_nil 4 h0) rfl
  · exact step_of_decode_error hs (readableWords_cons 3 h0) (decode_unknownOpcode_iff.mpr hop)
  · refine step_of_decode_error (e := .truncated) hs (readableWords_cons 3 h0) ?_
    rw [readableWords_nil 3 h1, decode_cons _ hop]
    rfl
  · refine step_of_decode_error (e := .unknownMode) hs (readableWords_cons 3 h0) ?_
    rw [readableWords_cons 2 h1, decode_cons _ hop]
    exact decodeJmp_unknownMode_iff.mpr hmode
  · refine step_of_decode_error (e := .truncated) hs (readableWords_cons 3 h0) ?_
    rw [readableWords_cons 2 h1, decode_cons _ hop]
    exact (decodeJmp_cons _ hmode).trans (decodeMode_short hm (readableWords_length_le 2 h3))
  · refine step_of_decode_error (e := .truncated) hs (readableWords_cons 3 h0) ?_
    rw [readableWords_nil 3 h1, decode_cons _ hop]
    simp only [List.mem_cons, List.not_mem_nil, or_false] at hmem
    rcases hmem with rfl | rfl | rfl <;> rfl
  · refine step_of_decode_error (e := .truncated) hs (readableWords_cons 3 h0) ?_
    rw [decode_cons _ hop]
    exact decodeTarget_short _ (readableWords_length_le 3 h2)

/-- Settles O8: the step function's branches that run no instruction. -/
theorem idleWaitingAndStoppedSteps : Obligations.IdleWaitingAndStoppedSteps := by
  refine ⟨fun s hs hpending => ?_, fun s hrun hhalted hschedule => ?_, fun s r hrun => ?_, fun s r hrun => ?_⟩
  · rw [step_of_checks hs]
    simp only [checkStep, hpending, State.afterCheck_eq, hs.1, if_true]
  · simp [step, machineStep, runningStep, coreStep, hrun, hschedule, hhalted]
  · simp only [step, machineStep, hrun]
  · simp only [step, machineStep, hrun]

/-- Settles O19: the two checks are the laws of `memRead` and `memWrite`, the third that no word is read beyond memory. -/
theorem accessChecks : Obligations.AccessChecks :=
  ⟨fun a _ => memRead_eq a, fun a w _ => memWrite_eq a w, fun _ h => fetch_beyond_memory (Nat.not_lt.mpr h)⟩

end Sys2Proof.Machine

/-! PROOFS. Requests and their delivery (spec/60_exceptions.md R252 to R261), and the five words of the frame header that a
delivery and a `call` store (spec/43_call_return.md R191, R192). -/

namespace Sys2Proof.Machine

variable {s : State}

/-! ### Requests -/

theorem request_accepted {q : Request} (hie : s.ie = true) (hpending : s.pending = none) :
    request q s = (.accepted, { s with pending := some q, halted := false }) := if_pos ⟨hie, hpending⟩

theorem request_missed {q : Request} (h : ¬ (s.ie = true ∧ s.pending = none)) :
    request q s = (.missed, { s with missed := s.missed + 1 }) := if_neg h

theorem step_of_accepted {q : Request} {rest : List Event} (hrun : s.run = .running)
    (hschedule : s.schedule = .request q :: rest) (hq : q.wf) (hie : s.ie = true) (hpending : s.pending = none) :
    step s = .next { s with pending := some q, halted := false, schedule := rest } := by
  rw [step_of_request hrun hschedule hq, request_accepted (s := { s with schedule := rest }) hie hpending]

theorem step_of_missed {q : Request} {rest : List Event} (hrun : s.run = .running)
    (hschedule : s.schedule = .request q :: rest) (hq : q.wf) (h : ¬ (s.ie = true ∧ s.pending = none)) :
    step s = .next { s with missed := s.missed + 1, schedule := rest } := by
  rw [step_of_request hrun hschedule hq, request_missed (s := { s with schedule := rest }) h]

/-! ### The stored header -/

/-- The five words of a header, read back from the memory they were stored in (43_call_return.md R191). -/
theorem read_headerWords {m : Memory} (hm : m.wf = true) (a : Nat) (ra fp : Long) (n : Word) :
    (storeUp m a (headerWords ra fp n)).read a = hiWord ra ∧
    (storeUp m a (headerWords ra fp n)).read (a + 1) = loWord ra ∧
    (storeUp m a (headerWords ra fp n)).read (a + 2) = hiWord fp ∧
    (storeUp m a (headerWords ra fp n)).read (a + 3) = loWord fp ∧
    (storeUp m a (headerWords ra fp n)).read (a + 4) = n :=
  have hlength : (headerWords ra fp n).length = 5 := rfl
  have hread := storeUp_read hm a (headerWords ra fp n)
  ⟨hread 0 (by omega), hread 1 (by omega), hread 2 (by omega), hread 3 (by omega), hread 4 (by omega)⟩

theorem read_headerWords_outside (m : Memory) {a b : Nat} (ra fp : Long) (n : Word) (h : b < a ∨ a + 4 < b) :
    (storeUp m a (headerWords ra fp n)).read b = m.read b := by
  rcases h with h | h
  · exact storeUp_read_lt m _ h
  · exact storeUp_read_ge m _ h

/-! ### Delivery -/

/-- The memory after a delivery: the arguments, then the header (R260). -/
def State.deliveredMem (s : State) (args : List Word) : Memory :=
  storeUp (storeUp s.mem (s.sp.toNat + 1) args) (s.sp.toNat + args.length + 1)
    (headerWords s.pc s.fp (BitVec.ofNat 12 args.length))

theorem deliver_ok (vec : Long) {args : List Word} (h : s.canPush (args.length + 5)) :
    deliver vec args s = .ok () { s with
      pc := vec
      fp := s.sp + BitVec.ofNat 24 (args.length + 1)
      sp := s.sp + BitVec.ofNat 24 (args.length + 5)
      pending := none
      mem := s.deliveredMem args } := by
  obtain ⟨hrom, hlimit⟩ := h
  simp only [State.writable] at hrom
  have hsp := toNat_add_of_lt s.sp args.length (by omega)
  have hadd : ∀ k, s.sp + BitVec.ofNat 24 args.length + BitVec.ofNat 24 k = s.sp + BitVec.ofNat 24 (args.length + k) := by
    intro k
    rw [BitVec.add_assoc, BitVec.ofNat_add]
  unfold deliver
  rw [Op.bind_ok (pushAll_ok (by omega) (by omega)), Op.bind_ok getPc_ok,
    Op.bind_ok (buildFrame_ok (by simp only [hsp]; omega) (by simp only [hsp]; omega)),
    Op.bind_ok (setPc_ok (long_toNat_lt vec)), clearPending_ok]
  simp only [hsp, ofNat24_toNat, State.deliveredMem]
  rw [← hadd 1, ← hadd 5]
  rfl

/-! ### The statements -/

/-- Settles O9: the test of `request`, and the step that takes a request from the schedule. -/
theorem requestIsTestAndSet : Obligations.RequestIsTestAndSet :=
  ⟨fun _ _ => request_accepted, fun _ _ => request_missed, fun _ _ _ => step_of_request⟩

/-- Settles O10: the first request is accepted, and then the slot is occupied. -/
theorem twoRapidRequestsKeepTheFirst : Obligations.TwoRapidRequestsKeepTheFirst := by
  intro q q' rest s hrun hie hpending hq hq' hschedule
  refine ⟨_, step_of_accepted hrun hschedule hq hie hpending, ?_⟩
  exact step_of_missed hrun rfl hq' (by simp)

/-- Settles O12: a check with `Stop` pending is its delivery. -/
theorem deliveryOfStopEndsTheRun : Obligations.DeliveryOfStopEndsTheRun := by
  intro s args hs hpending
  rw [step_of_checks hs]
  simp only [checkStep, hpending]
  rfl

/-- Settles O11: the delivery goes on to its end, and its memory is read argument by argument and word by word of the header. -/
theorem deliveryBuildsTheFrame : Obligations.DeliveryBuildsTheFrame := by
  intro s vec args hs hpending _ hwf hpush
  have hargs := storeUp_wf hwf (s.sp.toNat + 1) args
  obtain ⟨hra1, hra0, hfp1, hfp0, hn⟩ :=
    read_headerWords hargs (s.sp.toNat + args.length + 1) s.pc s.fp (BitVec.ofNat 12 args.length)
  refine ⟨s.deliveredMem args, ?_, fun i h => ?_, hra1, hra0, hfp1, hfp0, hn, fun a ha => ?_⟩
  · rw [step_of_checks hs]
    simp only [checkStep, hpending, deliver_ok vec hpush, State.afterCheck_eq, hs.1, if_true]
  · rw [State.deliveredMem, read_headerWords_outside _ _ _ _ (by omega)]
    exact storeUp_read hwf _ args i h
  · rw [State.deliveredMem, read_headerWords_outside _ _ _ _ (by omega)]
    rcases ha with ha | ha
    · exact storeUp_read_lt _ _ (by omega)
    · exact storeUp_read_ge _ _ (by omega)

end Sys2Proof.Machine

/-! PROOFS. What every step keeps: the cases of a step, said once, and then the ground (the parameters, ROM, the form of memory)
and the control state, each carried over by a tolerant relation of spec-level writes (`Laws/Frame.lean`). -/

namespace Sys2Proof.Machine

variable {s t u : State} {i : Instr}

/-! ### The cases of a step -/

/-- A machine that answers a next state has stopped for good and stays, or takes a request, or the core takes its turn. -/
theorem step_cases (h : step s = .next t) :
    (s.run ≠ .running ∧ t = s) ∨
    (s.run = .running ∧ ∃ q rest, q.wf ∧ t = (request q { s with schedule := rest }).2) ∨
    (s.run = .running ∧ ∃ rest, coreStep { s with schedule := rest } = .next t) := by
  unfold step machineStep at h
  split at h
  case h_1 hrun =>
    refine .inr ?_
    unfold runningStep at h
    split at h
    case h_1 hschedule => exact .inr ⟨hrun, s.schedule, h⟩
    case h_2 rest _ => exact .inr ⟨hrun, rest, h⟩
    case h_3 q rest _ =>
      unfold requestStep at h
      split at h
      case isTrue hq => cases h; exact .inl ⟨hrun, q, rest, hq, rfl⟩
      case isFalse => cases h
  case h_2 hrun => cases h; exact .inl ⟨by simp [hrun], rfl⟩
  case h_3 => cases h

/-- A turn of the core is a wait, a check or an execute step. -/
theorem coreStep_cases (h : coreStep s = .next t) :
    t = s ∨ (s.halted = false ∧ checkStep s = .next t) ∨ (s.halted = false ∧ s.phase = .exec ∧ executeStep s = .next t) := by
  unfold coreStep at h
  split at h
  case isTrue => cases h; exact .inl rfl
  case isFalse hhalted =>
    rw [Bool.not_eq_true] at hhalted
    split at h
    · exact .inr (.inl ⟨hhalted, h⟩)
    case h_2 hphase => exact .inr (.inr ⟨hhalted, hphase, h⟩)

/-- A check finds the slot empty, ends the run, or delivers, to the end or to a fault. -/
theorem checkStep_cases (h : checkStep s = .next t) :
    t = s.afterCheck ∨ t = s.deliverStop ∨
    ∃ vec args u, (deliver vec args s = .ok () u ∧ t = u.afterCheck) ∨
      ∃ r, deliver vec args s = .error r u ∧ t = u.takeFault r := by
  unfold checkStep at h
  split at h
  · cases h; exact .inl rfl
  · cases h; exact .inr (.inl rfl)
  case h_3 vec args _ =>
    split at h
    case h_1 u hdeliver => cases h; exact .inr (.inr ⟨vec, args, u, .inl ⟨hdeliver, rfl⟩⟩)
    case h_2 r u hdeliver => cases h; exact .inr (.inr ⟨vec, args, u, .inr ⟨r, hdeliver, rfl⟩⟩)

/-- An execute step runs the fetched instruction, or takes the fault of the fetch. -/
theorem executeStep_cases (h : executeStep s = .next t) :
    (∃ i u, fetch s = .ok i ∧ exec i s = .next u ∧ t = u.afterExec) ∨ ∃ r, t = s.takeFault r := by
  unfold executeStep at h
  split at h
  case h_1 i hfetch =>
    cases hexec : exec i s with
    | next u => rw [hexec] at h; cases h; exact .inl ⟨i, u, hfetch, hexec, rfl⟩
    | fault r => rw [hexec] at h; cases h
    | refused r => rw [hexec] at h; cases h
  case h_2 r _ => cases h; exact .inr ⟨r, rfl⟩

/-- The end of a delivery is related to its start by what delivery keeps. -/
theorem checkStep_keeps {R : State → State → Prop} (T : Tolerant R) (hp : ∀ s, R s { s with pending := none })
    (h : checkStep s = .next t) :
    t = s.afterCheck ∨ t = s.deliverStop ∨ ∃ u, R s u ∧ (t = u.afterCheck ∨ ∃ r, t = u.takeFault r) := by
  rcases checkStep_cases h with ht | ht | ⟨vec, args, u, ⟨hu, ht⟩ | ⟨r, hu, ht⟩⟩
  · exact .inl ht
  · exact .inr (.inl ht)
  · exact .inr (.inr ⟨u, (deliver_keeps T hp vec args s).1 _ _ hu, .inl ht⟩)
  · exact .inr (.inr ⟨u, (deliver_keeps T hp vec args s).2 _ _ hu, .inr ⟨r, ht⟩⟩)

/-! ### The ground: parameters, ROM and the form of memory -/

/-- What no step changes of the memory and the parameters: the parameters, every word of ROM, the canonical form, and that
nothing is listed outside the address space. -/
structure State.SameGround (s t : State) : Prop where
  cfg : t.cfg = s.cfg
  rom : ∀ a, s.cfg.romBase ≤ a → s.sameAt t a
  wf : s.mem.wf = true → t.mem.wf = true
  below : s.mem.below s.cfg.memSize = true → t.mem.below s.cfg.memSize = true

theorem State.SameGround.of_eq (hcfg : t.cfg = s.cfg) (hmem : t.mem = s.mem) : s.SameGround t :=
  ⟨hcfg, fun _ _ => congrArg (Memory.read · _) hmem, fun h => hmem ▸ h, fun h => hmem ▸ h⟩

theorem State.SameGround.trans (h : s.SameGround t) (h' : t.SameGround u) : s.SameGround u where
  cfg := h'.cfg.trans h.cfg
  rom a ha := (h'.rom a (h.cfg ▸ ha)).trans (h.rom a ha)
  wf hs := h'.wf (h.wf hs)
  below hs := h.cfg ▸ h'.below (h.cfg.symm ▸ h.below hs)

theorem State.SameGround.write {a : Nat} (w : Word) (ha : a < s.cfg.romBase) :
    s.SameGround { s with mem := s.mem.write a w } where
  cfg := rfl
  rom b hb := Memory.read_write_ne _ _ (by omega)
  wf hs := Memory.write_wf hs a w
  below hs := Memory.write_below hs (Nat.lt_of_lt_of_le ha (romBase_le_memSize _)) w

theorem sameGround_tolerant : Tolerant State.SameGround where
  refl _ := .of_eq rfl rfl
  trans _ _ _ := .trans
  pc _ _ := .of_eq rfl rfl
  sp _ _ := .of_eq rfl rfl
  fp _ _ := .of_eq rfl rfl
  mem _ _ w ha := .write w ha
  draws _ _ := .of_eq rfl rfl

theorem exec_sameGround (h : exec i s = .next t) : s.SameGround t := by
  by_cases hi : i ≠ .eni ∧ i ≠ .dsi ∧ i ≠ .hlt
  · rcases exec_keeps sameGround_tolerant (fun _ _ => .of_eq rfl rfl) hi h with hst | ⟨r, u, hsu, rfl⟩
    · exact hst
    · exact hsu.trans (.of_eq rfl rfl)
  · obtain ⟨hmem, -, -, -, -, -, -, hcfg, -⟩ := systemFrame i (by simpa [or_iff_not_imp_left] using hi) s t h
    exact .of_eq hcfg hmem

theorem checkStep_sameGround (h : checkStep s = .next t) : s.SameGround t := by
  rcases checkStep_keeps sameGround_tolerant (fun _ => .of_eq rfl rfl) h with rfl | rfl | ⟨u, hsu, rfl | ⟨r, rfl⟩⟩
  · exact .of_eq (by simp) (by simp)
  · exact .of_eq rfl rfl
  · exact hsu.trans (.of_eq (by simp) (by simp))
  · exact hsu.trans (.of_eq rfl rfl)

theorem request_cfg_mem (q : Request) (s : State) : (request q s).2.cfg = s.cfg ∧ (request q s).2.mem = s.mem := by
  unfold request
  split <;> exact ⟨rfl, rfl⟩

/-- Every step, from every state, keeps the ground. -/
theorem step_sameGround (h : step s = .next t) : s.SameGround t := by
  rcases step_cases h with ⟨-, rfl⟩ | ⟨-, q, rest, -, rfl⟩ | ⟨-, rest, hcore⟩
  · exact .of_eq rfl rfl
  · obtain ⟨hcfg, hmem⟩ := request_cfg_mem q { s with schedule := rest }
    exact .of_eq hcfg hmem
  · refine State.SameGround.trans (t := { s with schedule := rest }) (.of_eq rfl rfl) ?_
    rcases coreStep_cases hcore with rfl | ⟨-, hcheck⟩ | ⟨-, -, hexecute⟩
    · exact .of_eq rfl rfl
    · exact checkStep_sameGround hcheck
    · rcases executeStep_cases hexecute with ⟨i, u, -, hexec, rfl⟩ | ⟨r, rfl⟩
      · exact (exec_sameGround hexec).trans (.of_eq (by simp) (by simp))
      · exact .of_eq rfl rfl

/-! ### The control state -/

/-- What operations keep of the control state: all of it, but that a delivery clears the slot. -/
structure State.KeepsControl (s t : State) : Prop where
  ie : t.ie = s.ie
  halted : t.halted = s.halted
  run : t.run = s.run
  pending : t.pending = s.pending ∨ t.pending = none

theorem State.KeepsControl.trans (h : s.KeepsControl t) (h' : t.KeepsControl u) : s.KeepsControl u where
  ie := h'.ie.trans h.ie
  halted := h'.halted.trans h.halted
  run := h'.run.trans h.run
  pending := h'.pending.elim (fun e => e ▸ h.pending) .inr

theorem keepsControl_tolerant : Tolerant State.KeepsControl where
  refl _ := ⟨rfl, rfl, rfl, .inl rfl⟩
  trans _ _ _ := .trans
  pc _ _ := ⟨rfl, rfl, rfl, .inl rfl⟩
  sp _ _ := ⟨rfl, rfl, rfl, .inl rfl⟩
  fp _ _ := ⟨rfl, rfl, rfl, .inl rfl⟩
  mem _ _ _ _ := ⟨rfl, rfl, rfl, .inl rfl⟩
  draws _ _ := ⟨rfl, rfl, rfl, .inl rfl⟩

theorem exec_keepsControl (hi : i ≠ .eni ∧ i ≠ .dsi ∧ i ≠ .hlt) (h : exec i s = .next t) :
    s.KeepsControl t ∨ ∃ r u, s.KeepsControl u ∧ t = u.takeFault r :=
  exec_keeps keepsControl_tolerant (fun _ _ => ⟨rfl, rfl, rfl, .inl rfl⟩) hi h

theorem checkStep_keepsControl (h : checkStep s = .next t) :
    t = s.afterCheck ∨ t = s.deliverStop ∨ ∃ u, s.KeepsControl u ∧ (t = u.afterCheck ∨ ∃ r, t = u.takeFault r) :=
  checkStep_keeps keepsControl_tolerant (fun _ => ⟨rfl, rfl, rfl, .inr rfl⟩) h

/-! ### The interrupt-enable flag -/

theorem exec_ie (hi : i ≠ .eni ∧ i ≠ .dsi) (h : exec i s = .next t) : t.ie = s.ie := by
  by_cases hhlt : i = .hlt
  · subst hhlt
    obtain ⟨-, -, -, -, -, -, -, -, -, hie, -⟩ := systemFrame .hlt (by simp) s t h
    exact hie rfl
  · rcases exec_keepsControl ⟨hi.1, hi.2, hhlt⟩ h with hst | ⟨r, u, hsu, rfl⟩
    · exact hst.ie
    · exact hsu.ie

theorem checkStep_ie (h : checkStep s = .next t) : t.ie = s.ie := by
  rcases checkStep_keepsControl h with rfl | rfl | ⟨u, hsu, rfl | ⟨r, rfl⟩⟩
  · exact s.afterCheck_ie
  · rfl
  · exact u.afterCheck_ie.trans hsu.ie
  · exact hsu.ie

theorem request_ie (q : Request) (s : State) : (request q s).2.ie = s.ie := by
  unfold request
  split <;> rfl

theorem exec_eni_ie (h : exec .eni s = .next t) : t.ie = true := by
  rw [exec_eni_eq] at h
  cases h
  split <;> rfl

theorem exec_dsi_ie (h : exec .dsi s = .next t) : t.ie = false := by
  rw [exec_dsi_eq] at h
  cases h
  split <;> rfl

/-- An execute step that changes `IE` fetched `eni` or `dsi`. -/
theorem executeStep_ie (h : executeStep s = .next t) (hne : t.ie ≠ s.ie) :
    (fetch s = .ok .eni ∧ t.ie = true) ∨ (fetch s = .ok .dsi ∧ t.ie = false) := by
  rcases executeStep_cases h with ⟨i, u, hfetch, hexec, rfl⟩ | ⟨r, rfl⟩
  · rw [State.afterExec_ie] at hne ⊢
    by_cases heni : i = .eni
    · subst heni; exact .inl ⟨hfetch, exec_eni_ie hexec⟩
    by_cases hdsi : i = .dsi
    · subst hdsi; exact .inr ⟨hfetch, exec_dsi_ie hexec⟩
    exact absurd (exec_ie ⟨heni, hdsi⟩ hexec) hne
  · exact absurd rfl hne

/-! ### The invariant's control part -/

/-- The clauses of `State.Inv` that speak of the control state. -/
def State.ControlInv (s : State) : Prop :=
  (∀ q ∈ s.pending, q.wf) ∧
  (s.halted = true → s.ie = true ∧ s.pending = none ∧ s.run = .running ∧ s.phase = .check) ∧
  (s.run = .terminated .haltDisabled → s.ie = false) ∧
  (s.run = .terminated .stop → s.pending = none)

theorem State.inv_iff (s : State) :
    s.Inv ↔ s.cfg.wf ∧ s.mem.wf = true ∧ s.mem.below s.cfg.memSize = true ∧ s.ControlInv := Iff.rfl

theorem run_ne_terminated (hrun : s.run = .running) (r : EndReason) : s.run ≠ .terminated r := by
  simp [hrun]

/-- A core that does not wait, in a run that `hlt` or `Stop` has not ended, needs only a short request. -/
theorem controlInv_of_active (hpending : ∀ q ∈ s.pending, q.wf) (hhalted : s.halted = false)
    (hrun : ∀ r, s.run ≠ .terminated r) : s.ControlInv :=
  ⟨hpending, fun h => absurd (hhalted.symm.trans h) (by decide), fun h => absurd h (hrun _), fun h => absurd h (hrun _)⟩

/-- The slot as an operation leaves it holds no request that was not there. -/
theorem State.KeepsControl.pending_wf (h : s.KeepsControl t) (hs : ∀ q ∈ s.pending, q.wf) : ∀ q ∈ t.pending, q.wf := by
  rcases h.pending with e | e <;> rw [e]
  · exact hs
  · exact fun _ hq => nomatch hq

theorem State.afterExec_takeFault (s : State) (r : Fault) : (s.takeFault r).afterExec = s.takeFault r := by
  rw [State.afterExec_eq, if_neg (by simp)]

section
variable (hpending : ∀ q ∈ s.pending, q.wf) (hhalted : s.halted = false)
include hpending hhalted

theorem State.KeepsControl.controlInv_takeFault (h : s.KeepsControl u) (r : Fault) : (u.takeFault r).ControlInv :=
  controlInv_of_active (h.pending_wf hpending) (h.halted.trans hhalted) (by simp)

variable (hrun : s.run = .running)
include hrun

theorem State.KeepsControl.controlInv_afterCheck (h : s.KeepsControl u) : u.afterCheck.ControlInv :=
  controlInv_of_active (by simpa using h.pending_wf hpending) (by simp [h.halted, hhalted]) (by simp [h.run, hrun])

theorem State.KeepsControl.controlInv_afterExec (h : s.KeepsControl u) : u.afterExec.ControlInv :=
  controlInv_of_active (by simpa using h.pending_wf hpending) (by simp [h.halted, hhalted]) (by simp [h.run, hrun])

theorem checkStep_controlInv (h : checkStep s = .next t) : t.ControlInv := by
  rcases checkStep_keepsControl h with rfl | rfl | ⟨u, hsu, rfl | ⟨r, rfl⟩⟩
  · exact State.KeepsControl.controlInv_afterCheck hpending hhalted hrun (keepsControl_tolerant.refl s)
  · refine ⟨fun q hq => (nomatch hq), fun hwaits => ?_, fun hend => (nomatch hend), fun _ => rfl⟩
    exact absurd (hhalted.symm.trans hwaits) (by decide)
  · exact hsu.controlInv_afterCheck hpending hhalted hrun
  · exact hsu.controlInv_takeFault hpending hhalted r

/-- `eni` and `dsi` write a flag on which an active core's control state does not depend. -/
theorem writeIe_controlInv (b : Bool) (h : t = { s with ie := b, pc := s.pc + 1 } ∨
    t = State.takeFault { s with ie := b } .regRange) : t.afterExec.ControlInv := by
  rcases h with rfl | rfl
  · exact State.KeepsControl.controlInv_afterExec (s := { s with ie := b }) hpending hhalted hrun ⟨rfl, rfl, rfl, .inl rfl⟩
  · rw [State.afterExec_takeFault]
    exact State.KeepsControl.controlInv_takeFault (s := { s with ie := b }) hpending hhalted ⟨rfl, rfl, rfl, .inl rfl⟩ _

theorem exec_hlt_controlInv (h : exec .hlt s = .next t) : t.afterExec.ControlInv := by
  rcases exec_hlt_cases h with rfl | ⟨hie, hslot, rfl⟩ | rfl | ⟨hie, rfl⟩
  · rw [State.afterExec_takeFault]
    exact State.KeepsControl.controlInv_takeFault hpending hhalted (keepsControl_tolerant.refl s) _
  · rw [State.afterExec_eq, if_pos hrun]
    exact ⟨hpending, fun _ => ⟨hie, hslot, hrun, rfl⟩, fun hend => absurd hend (run_ne_terminated hrun _),
      fun hend => absurd hend (run_ne_terminated hrun _)⟩
  · exact State.KeepsControl.controlInv_afterExec hpending hhalted hrun (keepsControl_tolerant.pc s _)
  · rw [State.afterExec_eq, if_neg (by simp)]
    exact ⟨hpending, fun hwaits => absurd (hhalted.symm.trans hwaits) (by decide), fun _ => hie,
      fun hend => (nomatch hend)⟩

theorem exec_controlInv (h : exec i s = .next t) : t.afterExec.ControlInv := by
  by_cases hi : i ≠ .eni ∧ i ≠ .dsi ∧ i ≠ .hlt
  · rcases exec_keepsControl hi h with hst | ⟨r, u, hsu, rfl⟩
    · exact hst.controlInv_afterExec hpending hhalted hrun
    · rw [State.afterExec_takeFault]
      exact hsu.controlInv_takeFault hpending hhalted r
  · obtain rfl | rfl | rfl : i = .eni ∨ i = .dsi ∨ i = .hlt := by simpa [or_iff_not_imp_left] using hi
    · rw [exec_eni_eq] at h
      cases h
      exact writeIe_controlInv hpending hhalted hrun true (ite_eq_or_eq _ _ _)
    · rw [exec_dsi_eq] at h
      cases h
      exact writeIe_controlInv hpending hhalted hrun false (ite_eq_or_eq _ _ _)
    · exact exec_hlt_controlInv hpending hhalted hrun h

theorem executeStep_controlInv (h : executeStep s = .next t) : t.ControlInv := by
  rcases executeStep_cases h with ⟨i, u, -, hexec, rfl⟩ | ⟨r, rfl⟩
  · exact exec_controlInv hpending hhalted hrun hexec
  · exact State.KeepsControl.controlInv_takeFault hpending hhalted (keepsControl_tolerant.refl s) r

end

theorem request_controlInv {q : Request} (hq : q.wf) (hs : s.ControlInv) (hrun : s.run = .running) :
    (request q s).2.ControlInv := by
  by_cases h : s.ie = true ∧ s.pending = none
  · rw [request_accepted h.1 h.2]
    exact controlInv_of_active (fun q' hq' => Option.some.inj hq' ▸ hq) rfl (run_ne_terminated hrun)
  · rw [request_missed h]
    exact hs

/-- Every step keeps the control part of the invariant, from every state that has it. -/
theorem step_controlInv (hs : s.ControlInv) (h : step s = .next t) : t.ControlInv := by
  rcases step_cases h with ⟨-, rfl⟩ | ⟨hrun, q, rest, hq, rfl⟩ | ⟨hrun, rest, hcore⟩
  · exact hs
  · exact request_controlInv (s := { s with schedule := rest }) hq hs hrun
  · have hpending := hs.1
    rcases coreStep_cases hcore with rfl | ⟨hhalted, hcheck⟩ | ⟨hhalted, -, hexecute⟩
    · exact hs
    · exact checkStep_controlInv (s := { s with schedule := rest }) hpending hhalted hrun hcheck
    · exact executeStep_controlInv (s := { s with schedule := rest }) hpending hhalted hrun hexecute

/-! ### The statements -/

/-- Settles O14: the ground and the control part are each kept, and together they are the invariant. -/
theorem stepKeepsTheInvariant : Obligations.StepKeepsTheInvariant := by
  intro s t hs h
  obtain ⟨hcfg, hwf, hbelow, hcontrol⟩ := s.inv_iff.mp hs
  have hground := step_sameGround h
  refine t.inv_iff.mpr ⟨?_, hground.wf hwf, ?_, step_controlInv hcontrol h⟩
  · rw [hground.cfg]
    exact hcfg
  · rw [hground.cfg]
    exact hground.below hbelow

/-- Settles O13: reset stands at a check of a running machine with an empty slot and an empty memory. -/
theorem resetSatisfiesTheInvariant : Obligations.ResetSatisfiesTheInvariant :=
  State.reset.inv_iff.mpr ⟨by decide, reset_mem_wf, rfl,
    controlInv_of_active (fun _ hq => nomatch hq) rfl fun _ hend => nomatch hend⟩

/-- Settles O15: the parameters and the words of ROM are part of the ground. -/
theorem stepNeverChangesRom : Obligations.StepNeverChangesRom := fun _ _ h =>
  ⟨(step_sameGround h).cfg, (step_sameGround h).rom⟩

/-- Settles O16: of the cases of a step only the execute step can change the flag. -/
theorem onlyEniAndDsiChangeInterruptEnable : Obligations.OnlyEniAndDsiChangeInterruptEnable := by
  intro s t h hne
  rcases step_cases h with ⟨-, rfl⟩ | ⟨-, q, rest, -, rfl⟩ | ⟨-, rest, hcore⟩
  · exact absurd rfl hne
  · exact absurd (request_ie q _) hne
  · rcases coreStep_cases hcore with rfl | ⟨-, hcheck⟩ | ⟨-, hphase, hexecute⟩
    · exact absurd rfl hne
    · exact absurd (checkStep_ie hcheck) hne
    · exact ⟨hphase, executeStep_ie (s := { s with schedule := rest }) hexecute hne⟩

end Sys2Proof.Machine

/-! PROOFS. The word and the long ALU (spec/41_alu_word.md, spec/42_alu_long.md): results, carries and faults. As in the proofs
of `add` and `mul`, the arm of `exec` names a shape and an operation; the shape's law and the operation's law give the state. -/

namespace Sys2Proof.Machine

variable {s : State} {n : Nat}

/-! ### The carries as the rules state them -/

theorem decide_toNat_eq_zero (a : BitVec n) : decide (a.toNat = 0) = decide (a = 0) := by
  rw [decide_eq_decide, BitVec.toNat_eq]
  simp

theorem aluNeg_nonzero (a : BitVec n) : aluNeg a = (-a, decide (a ≠ 0)) := by
  rw [aluNeg_eq, decide_not, decide_not, decide_toNat_eq_zero]

theorem aluDec_zero (a : BitVec n) : aluDec a = (a - 1, decide (a = 0)) := by
  rw [aluDec_eq, decide_toNat_eq_zero]

theorem aluInc_allOnes (a : BitVec n) : aluInc a = (a + 1, decide (a = BitVec.allOnes n)) := by
  have ha := a.isLt
  rw [aluInc_eq, Prod.mk.injEq, decide_eq_decide, BitVec.toNat_eq (y := BitVec.allOnes n), BitVec.toNat_allOnes]
  exact ⟨rfl, by omega⟩

theorem aluAdd_long (a b : Long) : aluAdd a b = (a + b, decide (a.toNat + b.toNat > 0xFFFFFF)) := by
  rw [aluAdd_eq, Prod.mk.injEq, decide_eq_decide]
  exact ⟨rfl, by omega⟩

theorem aluMul_long (a b : Long) : aluMul a b = (a * b, decide (a.toNat * b.toNat > 0xFFFFFF)) := by
  rw [aluMul_eq, Prod.mk.injEq, decide_eq_decide]
  exact ⟨rfl, by omega⟩

/-! ### The rotates as concatenations of bits -/

theorem toNat_append_ofBool (x : BitVec n) (c : Bool) : (x ++ BitVec.ofBool c).toNat = x.toNat * 2 + c.toNat := by
  rw [BitVec.toNat_append, ← Nat.shiftLeft_add_eq_or_of_lt (BitVec.ofBool c).isLt, Nat.shiftLeft_eq, BitVec.toNat_ofBool]

theorem toNat_ofBool_append (x : BitVec n) (c : Bool) : (BitVec.ofBool c ++ x).toNat = c.toNat * 2 ^ n + x.toNat := by
  rw [BitVec.toNat_append, ← Nat.shiftLeft_add_eq_or_of_lt x.isLt, Nat.shiftLeft_eq, BitVec.toNat_ofBool]

/-- `rot_l_c` (R145) keeps the low eleven bits above the old carry. -/
theorem aluRotL_eq (a : Word) (c : Bool) :
    aluRotL a c = ((a.extractLsb' 0 11 ++ BitVec.ofBool c : BitVec 12), a[11]) := by
  have hc := c.toNat_le
  have hraw : ((a.toNat : Int) * 2) = ((a.toNat * 2 : Nat) : Int) := by push_cast; rfl
  rw [aluRotL, hraw, mask_nat, ← Nat.cast_add, mask_nat]
  refine Prod.ext (BitVec.eq_of_toNat_eq ?_) rfl
  rw [toNat_append_ofBool, BitVec.toNat_ofNat, BitVec.toNat_ofNat, BitVec.extractLsb'_toNat, Nat.shiftRight_zero]
  omega

/-- `rot_r_c` (R146) keeps the high eleven bits below the old carry. -/
theorem aluRotR_eq (a : Word) (c : Bool) :
    aluRotR a c = ((BitVec.ofBool c ++ a.extractLsb' 1 11 : BitVec 12), a[0]) := by
  have hc := c.toNat_le
  have ha := a.isLt
  have hraw : (((a.toNat / 2 : Nat) : Int) + c.toNat * 0x800) = ((a.toNat / 2 + c.toNat * 0x800 : Nat) : Int) := by
    push_cast; rfl
  rw [aluRotR, hraw, mask_nat]
  refine Prod.ext (BitVec.eq_of_toNat_eq ?_) rfl
  rw [toNat_ofBool_append, BitVec.toNat_ofNat, BitVec.extractLsb'_toNat, Nat.shiftRight_eq_div_pow]
  omega

theorem toNat_rotateLeft_one (x : BitVec 13) : (x.rotateLeft 1).toNat = x.toNat % 4096 * 2 + x.toNat / 4096 := by
  have hx := x.isLt
  have hhigh : x.toNat <<< (1 % 13) % 2 ^ 13 = (x.toNat % 4096) <<< 1 := by
    simp only [Nat.shiftLeft_eq, Nat.reduceMod]
    omega
  have hlow : x.toNat >>> (13 - 1 % 13) = x.toNat / 4096 := Nat.shiftRight_eq_div_pow _ _
  rw [BitVec.toNat_rotateLeft, hhigh, hlow, ← Nat.shiftLeft_add_eq_or_of_lt (by omega), Nat.shiftLeft_eq]

theorem toNat_rotateRight_one (x : BitVec 13) : (x.rotateRight 1).toNat = x.toNat % 2 * 4096 + x.toNat / 2 := by
  have hx := x.isLt
  have hhigh : x.toNat <<< (13 - 1 % 13) % 2 ^ 13 = (x.toNat % 2) <<< 12 := by
    simp only [Nat.shiftLeft_eq, Nat.reduceMod]
    omega
  have hlow : x.toNat >>> (1 % 13) = x.toNat / 2 := Nat.shiftRight_eq_div_pow _ _
  rw [BitVec.toNat_rotateRight, hhigh, hlow, Nat.or_comm, ← Nat.shiftLeft_add_eq_or_of_lt (by omega), Nat.shiftLeft_eq]

theorem toNat_getElem (a : Word) (i : Nat) (h : i < 12) : a[i].toNat = a.toNat / 2 ^ i % 2 := by
  rw [BitVec.getElem_eq_testBit_toNat, Nat.toNat_testBit]

/-- Carry above the word, rotated to the left: what `rot_l_c` gives. -/
theorem aluRotL_rotates (a : Word) (c : Bool) :
    (BitVec.ofBool (aluRotL a c).2 ++ (aluRotL a c).1 : BitVec 13) = (BitVec.ofBool c ++ a : BitVec 13).rotateLeft 1 := by
  have ha := a.isLt
  have hc := c.toNat_le
  apply BitVec.eq_of_toNat_eq
  rw [toNat_rotateLeft_one, toNat_ofBool_append, toNat_ofBool_append, aluRotL_eq, toNat_append_ofBool,
    BitVec.extractLsb'_toNat, Nat.shiftRight_zero, toNat_getElem a 11 (by omega)]
  omega

/-- Carry below the word, rotated to the right: what `rot_r_c` gives. -/
theorem aluRotR_rotates (a : Word) (c : Bool) :
    ((aluRotR a c).1 ++ BitVec.ofBool (aluRotR a c).2 : BitVec 13) = (a ++ BitVec.ofBool c : BitVec 13).rotateRight 1 := by
  have ha := a.isLt
  have hc := c.toNat_le
  apply BitVec.eq_of_toNat_eq
  rw [toNat_rotateRight_one, toNat_append_ofBool, toNat_append_ofBool, aluRotR_eq, toNat_ofBool_append,
    BitVec.extractLsb'_toNat, Nat.shiftRight_eq_div_pow, toNat_getElem a 0 (by omega)]
  omega

/-! ### The outcome of each shape -/

theorem runOp_binaryWordDiv {op : Word → Word → Word × Bool} {r : Word} {c : Bool} (h : s.binaryWordReady)
    (h0 : s.stackWord 0 ≠ 0) (hop : op (s.stackWord 1) (s.stackWord 0) = (r, c)) :
    runOp (binaryWordDiv op) s = .next (s.afterBinaryWord r c) := by
  rw [runOp_ok (binaryWordDiv_ok h h0), hop]

theorem runOp_unaryWord {op : Word → Word × Bool} {r : Word} {c : Bool} (h : s.unaryWordReady)
    (hop : op (s.stackWord 0) = (r, c)) : runOp (unaryWord op) s = .next (s.afterUnaryWord r c) := by
  rw [runOp_ok (unaryWord_ok h), hop]

theorem runOp_binaryLong {op : Long → Long → Long × Bool} {r : Long} {c : Bool} (h : s.binaryLongReady)
    (hop : op s.underLong s.topLong = (r, c)) : runOp (binaryLong op) s = .next (s.afterBinaryLong r c) := by
  rw [runOp_ok (binaryLong_ok h), hop]

theorem runOp_binaryLongDiv {op : Long → Long → Long × Bool} {r : Long} {c : Bool} (h : s.binaryLongReady)
    (h0 : s.topLong ≠ 0) (hop : op s.underLong s.topLong = (r, c)) :
    runOp (binaryLongDiv op) s = .next (s.afterBinaryLong r c) := by
  rw [runOp_ok (binaryLongDiv_ok h h0), hop]

theorem runOp_binaryLongKeep {op : Long → Long → Long} {r : Long} (h : s.binaryLongReady)
    (hop : op s.underLong s.topLong = r) : runOp (binaryLongKeep op) s = .next (s.afterBinaryLong r s.carry) := by
  rw [runOp_ok (binaryLongKeep_ok h), hop]

theorem runOp_unaryLong {op : Long → Long × Bool} {r : Long} {c : Bool} (h : s.unaryLongReady)
    (hop : op s.topLong = (r, c)) : runOp (unaryLong op) s = .next (s.afterUnaryLong r c) := by
  rw [runOp_ok (unaryLong_ok h), hop]

/-! ### Results of the word ALU -/

/-- Settles O24: `sub` is the binary word shape over the difference, which never exceeds 0xFFF. -/
theorem subResult : Obligations.SubResult :=
  ⟨by decide, fun _ h => runOp_binaryWord h (aluSub_eq _ _)⟩

/-- Settles O26: `mul2` has a shape of its own, which puts the 24-bit product where the two words were. -/
theorem mul2Result : Obligations.Mul2Result := by
  refine ⟨by decide, fun s h => ?_⟩
  calc exec .mul2 s
    _ = .next (s.afterUnaryLong _ _) := runOp_ok (binaryWordToLong_ok h)
    _ = _ := by rw [aluMul2_eq]

/-- Settles O27: both are the shape that a zero divisor does not stop. -/
theorem divModResults : Obligations.DivModResults :=
  ⟨by decide, by decide, fun _ h h0 =>
    ⟨runOp_binaryWordDiv h h0 (aluDiv_eq _ _), runOp_binaryWordDiv h h0 (aluMod_eq _ _)⟩⟩

/-- Settles O28: the four are the unary word shape over their operations. -/
theorem unaryWordResults : Obligations.UnaryWordResults :=
  ⟨by decide, by decide, by decide, by decide, fun _ h =>
    ⟨runOp_unaryWord h (aluNeg_nonzero _), runOp_unaryWord h (aluNot_eq _), runOp_unaryWord h (aluInc_allOnes _),
      runOp_unaryWord h (aluDec_zero _)⟩⟩

/-- Settles O30: each rotate is the unary shape that reads carry, and its operation rotates the 13 bits. -/
theorem rotateResults : Obligations.RotateResults :=
  ⟨by decide, by decide, fun _ h =>
    ⟨⟨_, _, runOp_ok (unaryWordCarry_ok h), aluRotL_rotates _ _⟩,
      ⟨_, _, runOp_ok (unaryWordCarry_ok h), aluRotR_rotates _ _⟩⟩⟩

/-! ### Results of the long ALU -/

/-- Settles O31: the three are the binary long shape over the operations at width 24. -/
theorem longArithmeticResults : Obligations.LongArithmeticResults :=
  ⟨by decide, by decide, by decide, fun _ h =>
    ⟨runOp_binaryLong h (aluAdd_long _ _), runOp_binaryLong h (aluSub_eq _ _), runOp_binaryLong h (aluMul_long _ _)⟩⟩

/-- Settles O32: both are the long shape that a zero divisor does not stop. -/
theorem longDivModResults : Obligations.LongDivModResults :=
  ⟨by decide, by decide, fun _ h h0 =>
    ⟨runOp_binaryLongDiv h h0 (aluDiv_eq _ _), runOp_binaryLongDiv h h0 (aluMod_eq _ _)⟩⟩

/-- Settles O33: the four are the unary long shape over their operations. -/
theorem unaryLongResults : Obligations.UnaryLongResults :=
  ⟨by decide, by decide, by decide, by decide, fun _ h =>
    ⟨runOp_unaryLong h (aluNeg_nonzero _), runOp_unaryLong h (aluNot_eq _), runOp_unaryLong h (aluInc_allOnes _),
      runOp_unaryLong h (aluDec_zero _)⟩⟩

/-- Settles O34: the three are the long shape that leaves carry, and a bitwise operation acts on each half. -/
theorem bitwiseLongResults : Obligations.BitwiseLongResults :=
  ⟨by decide, by decide, by decide, fun _ h =>
    ⟨runOp_binaryLongKeep h BitVec.or_append, runOp_binaryLongKeep h BitVec.xor_append,
      runOp_binaryLongKeep h BitVec.and_append⟩⟩

/-! ### Faults -/

/-- The binary word instructions of R130 pop two words and then, but for a zero divisor, push one. -/
theorem exec_popsTwo_pushesOne : ∀ i ∈ [Instr.add, .sub, .mul, .div, .mod, .or, .xor, .and],
    ∃ f : Word → Word → Op Unit, (∀ s, exec i s = runOp (pop >>= fun b => pop >>= f b) s) ∧
      ∀ b a, (i = .div ∨ i = .mod → b ≠ 0) → ∃ (w : Word) (rest : Op Unit), f b a = push w >>= fun _ => rest := by
  simp only [List.forall_mem_cons, List.not_mem_nil, false_implies, implies_true, and_true]
  refine ⟨?add, ?sub, ?mul, ?div, ?mod, ?or, ?xor, ?and⟩
  case div => exact ⟨_, fun _ => rfl, fun _ _ h0 => ⟨_, _, if_neg (h0 (.inl trivial))⟩⟩
  case mod => exact ⟨_, fun _ => rfl, fun _ _ h0 => ⟨_, _, if_neg (h0 (.inr trivial))⟩⟩
  case add | sub | mul | or | xor | and => exact ⟨_, fun _ => rfl, fun _ _ _ => ⟨_, _, rfl⟩⟩

theorem pop_addrRange (h : ¬ s.readable s.sp.toNat) : pop s = .error .addrRange s := by
  rw [pop_eq, if_pos (Nat.not_lt.mp h)]

theorem pop_regRange (h : s.readable s.sp.toNat) (h0 : s.sp.toNat = 0) : pop s = .error .regRange s := by
  rw [pop_eq, if_neg (Nat.not_le.mpr h), if_pos h0]

/-- The push of a result where a popped operand was, that place being in ROM. -/
theorem push_after_pop_romWrite (w : Word) (hs : 1 ≤ s.sp.toNat) (hr : s.readable s.sp.toNat) (hw : ¬ s.writable s.sp.toNat) :
    push w { s with sp := s.sp - 1 } = .error .romWrite s := by
  have hp := toNat_pred_of_pos s.sp hs
  have hlt := long_toNat_lt s.sp
  simp only [State.readable, State.writable] at hr hw
  rw [push_eq, hp, if_neg (by omega), if_neg (by simp only; omega), if_pos (by simp only; omega), BitVec.sub_add_cancel]

/-- Settles O20: where SP stands decides which of the two pops faults, and else the push does. -/
theorem binaryWordFaults : Obligations.BinaryWordFaults := by
  intro i hi s
  obtain ⟨f, hexec, hpush⟩ := exec_popsTwo_pushesOne i hi
  refine ⟨fun hr => ?_, fun hr h0 => ?_, fun hr h1 => ?_, fun hr h2 hw hdivisor => ?_⟩ <;> rw [hexec]
  · exact runOp_error (Op.bind_error (pop_addrRange hr))
  · exact runOp_error (Op.bind_error (pop_regRange hr h0))
  · have hsp : s.sp - 1 = 0 := BitVec.eq_of_toNat_eq (by rw [toNat_pred_of_pos s.sp (by omega), h1]; rfl)
    have hpop := pop_ok hr (by omega)
    rw [hsp] at hpop
    exact runOp_error ((Op.bind_ok hpop).trans (Op.bind_error (pop_regRange (Nat.lt_of_le_of_lt (Nat.zero_le _) hr) rfl)))
  · have hp := toNat_pred_of_pos s.sp (by omega)
    obtain ⟨hpop, hpop'⟩ := pop_two hr h2
    obtain ⟨w, rest, hf⟩ := hpush _ (s.stackWord 1) hdivisor
    have hrom := push_after_pop_romWrite (s := { s with sp := s.sp - 1 }) w (by simp only [hp]; omega)
      (by simp only [State.readable, hp] at hr ⊢; omega) (by simpa only [hp] using hw)
    exact runOp_error ((Op.bind_ok hpop).trans ((Op.bind_ok hpop').trans (hf ▸ Op.bind_error hrom)))

theorem binaryWordDiv_zero (op : Word → Word → Word × Bool) (h2 : 2 ≤ s.sp.toNat) (hr : s.readable s.sp.toNat)
    (h0 : s.stackWord 0 = 0) : binaryWordDiv op s = .error .divideByZero { s with sp := s.sp - 2 } := by
  obtain ⟨hpop, hpop'⟩ := pop_two hr h2
  unfold binaryWordDiv
  rw [Op.bind_ok hpop, Op.bind_ok hpop', if_pos h0, show s.sp - 1 - 1 = s.sp - 2 by bv_omega]
  rfl

theorem binaryLongDiv_zero (op : Long → Long → Long × Bool) (h4 : 4 ≤ s.sp.toNat) (hr : s.readable s.sp.toNat)
    (h0 : s.topLong = 0) : binaryLongDiv op s = .error .divideByZero { s with sp := s.sp - 4 } := by
  obtain ⟨hpop, hpop'⟩ := popL_two hr h4
  unfold binaryLongDiv
  rw [Op.bind_ok hpop, Op.bind_ok hpop', if_pos h0, show s.sp - 2 - 2 = s.sp - 4 by bv_omega]
  rfl

/-- Settles O21: each shape of division stops after its pops where the divisor is zero. -/
theorem divisionByZeroIsFatal : Obligations.DivisionByZeroIsFatal := by
  simp only [Obligations.DivisionByZeroIsFatal, List.forall_mem_cons, List.not_mem_nil, false_implies, implies_true, and_true]
  exact ⟨⟨fun _ h2 hr h0 => runOp_error (binaryWordDiv_zero aluDiv h2 hr h0),
      fun _ h2 hr h0 => runOp_error (binaryWordDiv_zero aluMod h2 hr h0)⟩,
    fun _ h4 hr h0 => runOp_error (binaryLongDiv_zero aluDiv h4 hr h0),
    fun _ h4 hr h0 => runOp_error (binaryLongDiv_zero aluMod h4 hr h0)⟩

end Sys2Proof.Machine

/-! PROOFS. The long and the relative jumps (spec/44_control_transfer.md R223 to R227), the loads and stores and the block copy
(spec/40_stack_memory.md, spec/20_memory.md R69). -/

namespace Sys2Proof.Machine

variable {s : State} {target : Long} {k : Word}

/-! ### Jumps on a long, and the relative jump -/

theorem exec_jgzL_eq (target : Long) (s : State) :
    exec (.jgzL target) s = runOp (jumpOnLong target fun v => decide (0 < v.toInt)) s := by
  simp only [← sext_eq]
  rfl

theorem exec_jlzL_eq (target : Long) (s : State) :
    exec (.jlzL target) s = runOp (jumpOnLong target fun v => decide (v.toInt < 0)) s := by
  simp only [← sext_eq]
  rfl

/-- Settles O38: the four are the long shape, each over its test of the popped long. -/
theorem jumpsOnOneLong : Obligations.JumpsOnOneLong := by
  intro s target
  simp only [List.forall_mem_cons, List.not_mem_nil, false_implies, implies_true, and_true]
  refine ⟨⟨encode_jump rfl rfl rfl (by decide), encode_jump rfl rfl rfl (by decide), encode_jump rfl rfl rfl (by decide),
    encode_jump rfl rfl rfl (by decide)⟩, fun hsp hread => ⟨fun h => ?_, fun h => ?_, fun h => ?_, fun h => ?_⟩⟩
  · exact runOp_ok (jumpOnLong_ok hsp hread h)
  · exact runOp_ok (jumpOnLong_ok hsp hread h)
  · rw [exec_jgzL_eq]
    exact runOp_ok (jumpOnLong_ok hsp hread h)
  · rw [exec_jlzL_eq]
    exact runOp_ok (jumpOnLong_ok hsp hread h)

/-- The target of `jro` as a register holds it: the popped word sign-extended (R223). -/
theorem ofInt24_relative (pc : Long) (off : Word) :
    BitVec.ofInt 24 ((pc.toNat : Int) + 2 + off.toInt) = pc + 2 + off.signExtend 24 := by
  rw [BitVec.ofInt_add, BitVec.ofInt_add, ofInt_toNat]
  rfl

theorem exec_jro_eq (h1 : 1 ≤ s.sp.toNat) (hr : s.readable s.sp.toNat) :
    exec .jro s = runOp (setPc ((s.pc.toNat : Int) + 2 + (s.stackWord 0).toInt)) { s with sp := s.sp - 1 } := by
  rw [← sext_eq]
  show runOp _ s = _
  simp only [runOp, Op.bind_ok (pop_ok hr h1)]
  rfl

/-- Settles O39: the checked write of PC decides between the two clauses. -/
theorem relativeJumpResult : Obligations.RelativeJumpResult := by
  refine ⟨by decide, fun s h1 hr => ⟨fun hin => ?_, fun hout => ?_⟩⟩ <;> rw [exec_jro_eq h1 hr]
  · have hrange : inRegRange ((s.pc.toNat : Int) + 2 + (s.stackWord 0).toInt) := ⟨hin.1, by simp only [addressLimit]; omega⟩
    refine runOp_ok ?_
    rw [setPc, if_pos hrange, ofInt24_relative]
  · exact runOp_error (setPc_error fun hrange => hout ⟨hrange.1, by
      have := hrange.2
      simp only [addressLimit] at this
      omega⟩)

/-! ### Loads and stores -/

/-- The end of a load: the push of the word and the advance over its two words (40_stack_memory.md R110, R112). -/
theorem push_advance_ok (w : Word) (hpush : s.canPush 1) (hadvance : s.canAdvance 2) :
    (push w >>= fun _ => advance 2 : Op Unit) s =
      .ok () { s with mem := s.mem.write (s.sp.toNat + 1) w, sp := s.sp + 1, pc := s.pc + 2 } := by
  rw [Op.bind_ok (push_ok hpush.1 hpush.2)]
  exact advance_ok hadvance

theorem fpLoc_ok (hr : s.readable (s.fp.toNat + 4)) (hl : s.localsWord ≤ s.fp.toNat) :
    fpLoc s = .ok (s.fp.toNat - s.localsWord) s := by
  rw [fpLoc_eq, if_neg (Nat.not_le.mpr hr), if_neg (Nat.not_lt.mpr hl)]

theorem fpLoc_regRange (hr : s.readable (s.fp.toNat + 4)) (hl : s.fp.toNat < s.localsWord) :
    fpLoc s = .error .regRange s := by
  rw [fpLoc_eq, if_neg (Nat.not_le.mpr hr), if_pos hl]

/-- Settles O40: the four clauses are the four cases of the push. -/
theorem loadLiteralResult : Obligations.LoadLiteralResult := by
  intro s k
  refine ⟨rfl, fun hpush hadvance => runOp_ok (push_advance_ok k hpush hadvance), fun hsp => ?_, fun hsp hr => ?_,
    fun hsp hr hw => ?_⟩
  · exact runOp_error (Op.bind_error (by rw [push_eq, if_pos hsp]))
  · exact runOp_error (Op.bind_error (by rw [push_eq, if_neg (Nat.not_le.mpr hsp), if_pos (Nat.not_lt.mp hr)]))
  · exact runOp_error (Op.bind_error (by
      rw [push_eq, if_neg (Nat.not_le.mpr hsp), if_neg (Nat.not_le.mpr hr), if_pos (Nat.not_lt.mp hw)]))

/-- Settles O41: the base, the read at base and `k`, the push. -/
theorem loadLocalResult : Obligations.LoadLocalResult := by
  intro s k hheader
  refine ⟨fun hl hr hpush hadvance => ?_, fun hl => runOp_error (Op.bind_error (fpLoc_regRange hheader hl))⟩
  exact runOp_ok ((Op.bind_ok (fpLoc_ok hheader hl)).trans ((Op.bind_ok (memRead_ok hr)).trans
    (push_advance_ok _ hpush hadvance)))

/-- Settles O42: the base before the pop, then the store at base and `k`. -/
theorem storeLocalResult : Obligations.StoreLocalResult := by
  intro s k hheader
  refine ⟨fun hl h1 hr hw hadvance => ?_, fun hl => runOp_error (Op.bind_error (fpLoc_regRange hheader hl))⟩
  exact runOp_ok ((Op.bind_ok (fpLoc_ok hheader hl)).trans ((Op.bind_ok (pop_ok hr h1)).trans
    ((Op.bind_ok (memWrite_ok (s := { s with sp := s.sp - 1 }) hw)).trans (advance_ok hadvance))))

/-! ### The block copy -/

/-- The copy of one word more ends with that word. -/
theorem copyMem_succ (m : Memory) (src dst n : Nat) :
    copyMem m src dst (n + 1) = (copyMem m src dst n).write (dst + n) ((copyMem m src dst n).read (src + n)) := by
  induction n generalizing m src dst with
  | zero => rfl
  | succ n ih =>
    rw [copyMem, ih, copyMem]
    simp only [Nat.add_assoc, Nat.add_comm 1 n]

theorem copyMem_wf {m : Memory} (hm : m.wf = true) (src dst n : Nat) : (copyMem m src dst n).wf = true := by
  induction n with
  | zero => exact hm
  | succ n ih => rw [copyMem_succ]; exact Memory.write_wf ih _ _

theorem copyMem_read_outside (m : Memory) (src dst n : Nat) {a : Nat} (h : a < dst ∨ dst + n ≤ a) :
    (copyMem m src dst n).read a = m.read a := by
  induction n with
  | zero => rfl
  | succ n ih => rw [copyMem_succ, Memory.read_write_ne _ _ (by omega), ih (by omega)]

/-- Where word `i` of the destination comes from: with the destination above the source, the words between them repeat
(20_memory.md R69). -/
def copySource (src dst i : Nat) : Nat := src + (if src < dst then i % (dst - src) else i)

/-- The source of a word that the copy itself has written is the source of the word a distance before. -/
theorem copySource_of_overlap {src dst i : Nat} (hlt : src < dst) (h : dst ≤ src + i) :
    copySource src dst (src + i - dst) = copySource src dst i := by
  have hi : i = src + i - dst + (dst - src) := by omega
  rw [copySource, copySource, if_pos hlt, if_pos hlt]
  conv_rhs => rw [hi, Nat.add_mod_right]

theorem copySource_of_fresh {src dst i : Nat} (h : src + i < dst ∨ dst ≤ src) : copySource src dst i = src + i := by
  unfold copySource
  split
  · rw [Nat.mod_eq_of_lt (by omega)]
  · rfl

theorem copyMem_read_inside {m : Memory} (hm : m.wf = true) (src dst n : Nat) {i : Nat} (hi : i < n) :
    (copyMem m src dst n).read (dst + i) = m.read (copySource src dst i) := by
  induction n generalizing i with
  | zero => exact absurd hi (Nat.not_lt_zero i)
  | succ n ih =>
    rw [copyMem_succ, Memory.read_write (copyMem_wf hm src dst n)]
    by_cases hin : i = n
    · subst hin
      rw [if_pos rfl]
      by_cases hoverlap : src < dst ∧ dst ≤ src + i
      · have := ih (i := src + i - dst) (by omega)
        rw [copySource_of_overlap hoverlap.1 hoverlap.2] at this
        rw [← this, show dst + (src + i - dst) = src + i by omega]
      · rw [copySource_of_fresh (by omega), copyMem_read_outside _ _ _ _ (by omega)]
    · rw [if_neg (by omega)]
      exact ih (by omega)

/-- The three longs that `memc` pops (40_stack_memory.md R114). -/
theorem popL_three (hr : s.readable s.sp.toNat) (h6 : 6 ≤ s.sp.toNat) :
    popL { s with sp := s.sp - 2 - 2 } = .ok (longOf (s.stackWord 5) (s.stackWord 4)) { s with sp := s.sp - 6 } := by
  have hp : (s.sp - 2 - 2).toNat = s.sp.toNat - 4 := by
    rw [show s.sp - 2 - 2 = s.sp - 4 by bv_omega]
    exact toNat_sub_of_le s.sp 4 (by omega)
  simp only [State.readable] at hr
  rw [popL_ok (s := { s with sp := s.sp - 2 - 2 }) (by simp only [hp]; omega) (by simp only [hp]; omega)]
  simp only [hp, show s.sp.toNat - 4 - 1 = s.sp.toNat - 5 by omega, show s.sp - 2 - 2 - 2 = s.sp - 6 by bv_omega]

/-- An empty copy checks no address. -/
theorem copyWords_ok_of_empty_or {src dst len : Nat} (h : len = 0 ∨ (src + len ≤ s.cfg.memSize ∧ dst + len ≤ s.cfg.romBase)) :
    copyWords src dst len s = .ok () { s with mem := copyMem s.mem src dst len } := by
  rcases h with rfl | ⟨hsrc, hdst⟩
  · rfl
  · exact copyWords_ok hsrc hdst

/-- Settles O43: three longs popped, the forward copy, the advance. -/
theorem blockCopyResult : Obligations.BlockCopyResult := by
  intro s src dst len hm h6 hr hadvance hlen hdst hsrc hblock
  obtain ⟨hpop1, hpop2⟩ := popL_two hr (by omega)
  have hcopy := copyWords_ok_of_empty_or (s := { s with sp := s.sp - 6 }) hblock
  rw [hlen, hdst, hsrc] at hcopy
  refine ⟨copyMem s.mem src dst len, ?_, fun i hi => copyMem_read_inside hm src dst len hi,
    fun a ha => copyMem_read_outside _ _ _ _ ha⟩
  rw [hlen, hdst, hsrc]
  exact runOp_ok ((Op.bind_ok hpop1).trans ((Op.bind_ok hpop2).trans ((Op.bind_ok (popL_three hr h6)).trans
    ((Op.bind_ok hcopy).trans (advance_ok hadvance)))))

end Sys2Proof.Machine

/-! PROOFS. Rules for the two ends of an operation: what holds of its result and next state where it goes on, and of the state
where it faults. `Confined` properties are those that survive what an instruction may always do: write PC, SP and the words
of memory at given addresses. -/

namespace Sys2Proof.Machine

variable {α β : Type} {s t : State} {Q Q' : α → State → Prop} {E P : State → Prop} {W : Nat → Prop}

/-- Run from `s`, the operation goes on in `Q` or faults in `E`. -/
def Op.Post (m : Op α) (s : State) (Q : α → State → Prop) (E : State → Prop) : Prop :=
  (∀ a t, m s = .ok a t → Q a t) ∧ (∀ r t, m s = .error r t → E t)

/-- Run from `s`, the operation ends in `P`, whether it goes on or faults. -/
abbrev Op.EndsIn (m : Op α) (s : State) (P : State → Prop) : Prop := m.Post s (fun _ => P) P

theorem Op.Post.of_ok {m : Op α} {a : α} (h : m s = .ok a t) (hq : Q a t) : m.Post s Q E := by
  refine ⟨fun b u e => ?_, fun r u e => ?_⟩ <;> rw [h] at e <;> cases e
  exact hq

theorem Op.Post.of_error {m : Op α} {r : Fault} (h : m s = .error r t) (he : E t) : m.Post s Q E := by
  refine ⟨fun b u e => ?_, fun r u e => ?_⟩ <;> rw [h] at e <;> cases e
  exact he

theorem Op.Post.mono {m : Op α} (h : m.Post s Q E) (hq : ∀ a t, Q a t → Q' a t) : m.Post s Q' E :=
  ⟨fun a t e => hq a t (h.1 a t e), h.2⟩

theorem Op.Post.bind {x : Op α} {f : α → Op β} {Q : β → State → Prop}
    (h : x.Post s (fun a t => (f a).Post t Q E) E) : (x >>= f).Post s Q E := by
  cases hx : x s with
  | ok a t =>
    rw [Op.Post, Op.bind_ok hx]
    exact h.1 a t hx
  | error r t => exact .of_error (Op.bind_error hx) (h.2 r t hx)

/-- What an instruction's next state is, where its pseudocode ends in a property. -/
theorem runOp_endsIn {m : Op Unit} (hm : m.EndsIn s P) (h : runOp m s = .next t) :
    P t ∨ ∃ r u, P u ∧ t = u.takeFault r := by
  rcases runOp_cases h with hok | ⟨r, u, he, rfl⟩
  · exact .inl (hm.1 _ _ hok)
  · exact .inr ⟨r, u, hm.2 _ _ he, rfl⟩

/-- An instruction that answers a running state went on to its end. -/
theorem runOp_running {m : Op Unit} (h : runOp m s = .next t) (hrun : t.run = .running) : m s = .ok () t := by
  rcases runOp_cases h with hok | ⟨r, u, -, rfl⟩
  · exact hok
  · exact nomatch hrun

/-! ### The elementary operations -/

theorem memRead_post {a : Int} {Q : Word → State → Prop} (he : E s)
    (hq : 0 ≤ a → a < s.cfg.memSize → Q (s.mem.read a.toNat) s) : (memRead a).Post s Q E := by
  by_cases h : a < 0 ∨ (s.cfg.memSize : Int) ≤ a
  · exact .of_error (by rw [memRead_eq, if_pos h]) he
  · exact .of_ok (by rw [memRead_eq, if_neg h]) (hq (by omega) (by omega))

theorem memWrite_post {a : Int} {w : Word} {Q : Unit → State → Prop} (he : E s)
    (hq : 0 ≤ a → a < s.cfg.romBase → Q () { s with mem := s.mem.write a.toNat w }) : (memWrite a w).Post s Q E := by
  by_cases h : a < 0 ∨ (s.cfg.memSize : Int) ≤ a
  · exact .of_error (by rw [memWrite_eq, if_pos h]) he
  · by_cases h' : (s.cfg.romBase : Int) ≤ a
    · exact .of_error (by rw [memWrite_eq, if_neg h, if_pos h']) he
    · exact .of_ok (by rw [memWrite_eq, if_neg h, if_neg h']) (hq (by omega) (by omega))

theorem setPc_post {v : Int} {Q : Unit → State → Prop} (he : E s)
    (hq : inRegRange v → Q () { s with pc := BitVec.ofInt 24 v }) : (setPc v).Post s Q E := by
  by_cases h : inRegRange v
  · exact .of_ok (by rw [setPc, if_pos h]) (hq h)
  · exact .of_error (setPc_error h) he

theorem setSp_post {v : Int} {Q : Unit → State → Prop} (he : E s)
    (hq : inRegRange v → Q () { s with sp := BitVec.ofInt 24 v }) : (setSp v).Post s Q E := by
  by_cases h : inRegRange v
  · exact .of_ok (by rw [setSp, if_pos h]) (hq h)
  · exact .of_error (setSp_error h) he

theorem pop_post {Q : Word → State → Prop} (he : E s)
    (hq : s.readable s.sp.toNat → 1 ≤ s.sp.toNat → Q (s.stackWord 0) { s with sp := s.sp - 1 }) : pop.Post s Q E := by
  by_cases hr : s.readable s.sp.toNat
  · by_cases h0 : s.sp.toNat = 0
    · exact .of_error (pop_regRange hr h0) he
    · exact .of_ok (pop_ok hr (by omega)) (hq hr (by omega))
  · exact .of_error (pop_addrRange hr) he

theorem tearDown_post {Q : Unit → State → Prop} (he : E s)
    (hq : s.readable (s.fp.toNat + 4) → s.localsWord + 1 ≤ s.fp.toNat → Q () s.afterTearDown) : tearDown.Post s Q E := by
  by_cases hheader : s.readable (s.fp.toNat + 4)
  · by_cases hlocals : s.localsWord + 1 ≤ s.fp.toNat
    · exact .of_ok (tearDown_ok hheader hlocals) (hq hheader hlocals)
    · exact .of_error (tearDown_regRange hheader (Nat.not_le.mp hlocals)) he
  · exact .of_error (tearDown_addrRange hheader) he

/-! ### Properties that only the words at given addresses can touch -/

/-- The property survives a new PC, a new SP and a new word at an address of `W`. -/
structure Confined (W : Nat → Prop) (P : State → Prop) : Prop where
  pc : ∀ t v, P t → P { t with pc := v }
  sp : ∀ t v, P t → P { t with sp := v }
  mem : ∀ t a w, W a → P t → P { t with mem := t.mem.write a w }

section
variable (C : Confined W P)
include C

theorem setPc_endsIn {v : Int} (hs : P s) : (setPc v).EndsIn s P := setPc_post hs fun _ => C.pc _ _ hs

theorem advance_endsIn {n : Nat} (hs : P s) : (advance n).EndsIn s P :=
  .bind (.of_ok getPc_ok (setPc_endsIn C hs))

theorem branch_endsIn {target : Long} {taken : Bool} (hs : P s) : (branch target taken).EndsIn s P := by
  unfold branch
  split
  · exact setPc_endsIn C hs
  · exact advance_endsIn C hs

/-- A push that goes on raises SP by one, to an address that can be written. -/
theorem push_post {w : Word} (hs : P s) (hW : W (s.sp.toNat + 1)) :
    (push w).Post s (fun _ t => P t ∧ t.sp.toNat = s.sp.toNat + 1 ∧ t.sp.toNat < t.cfg.romBase) P := by
  refine .bind (.of_ok getSp_ok (.bind (setSp_post hs fun hrange => memWrite_post (C.sp _ _ hs) fun _ hrom => ?_)))
  have hsp : (BitVec.ofInt 24 ((s.sp.toNat : Int) + 1)).toNat = s.sp.toNat + 1 := by
    have := hrange.2
    rw [show ((s.sp.toNat : Int) + 1) = ((s.sp.toNat + 1 : Nat) : Int) by omega] at this ⊢
    rw [ofInt24_nat, toNat_ofNat24 _ (by simpa using this)]
  refine ⟨C.mem { s with sp := _ } _ w ?_ (C.sp _ _ hs), hsp, ?_⟩
  · rwa [show ((s.sp.toNat : Int) + 1).toNat = s.sp.toNat + 1 by omega]
  · simp only [hsp]
    simp only at hrom
    omega

theorem push_endsIn {w : Word} (hs : P s) (hW : W (s.sp.toNat + 1)) : (push w).EndsIn s P :=
  (push_post C hs hW).mono fun _ _ ⟨ht, _⟩ => ht

/-- Two pushes write the two words above SP. -/
theorem pushTwo_endsIn {w w' : Word} (hs : P s) (hW : W (s.sp.toNat + 1)) (hW' : W (s.sp.toNat + 2)) :
    (push w >>= fun _ => push w').EndsIn s P :=
  .bind ((push_post C hs hW).mono fun _ _ ⟨ht, hsp, _⟩ => push_endsIn C ht (hsp ▸ hW'))

theorem pushL_endsIn {v : Long} (hs : P s) (hW : W (s.sp.toNat + 1)) (hW' : W (s.sp.toNat + 2)) :
    (pushL v).EndsIn s P := pushTwo_endsIn C hs hW hW'

theorem popL_post {Q : Long → State → Prop} (hs : P s) (hq : 2 ≤ s.sp.toNat → Q s.topLong { s with sp := s.sp - 2 }) :
    popL.Post s Q P := by
  refine .bind (pop_post hs fun _ h1 => .bind (pop_post (C.sp _ _ hs) fun _ h2 => .of_ok rfl ?_))
  have hp := toNat_pred_of_pos s.sp h1
  rw [hp] at h2
  have h := hq (by omega)
  rw [show s.sp - 2 = s.sp - 1 - 1 by bv_omega] at h
  simpa only [State.topLong, State.stackWord, hp, Nat.sub_zero] using h

theorem copyWords_endsIn {src dst n : Nat} (hs : P s) (hW : ∀ a, dst ≤ a → a < dst + n → W a) :
    (copyWords src dst n).EndsIn s P := by
  induction n generalizing s src dst with
  | zero => exact .of_ok rfl hs
  | succ n ih =>
    refine .bind (memRead_post hs fun _ _ => .bind (memWrite_post hs fun _ _ => ?_))
    exact ih (C.mem _ _ _ (hW _ (Nat.le_refl dst) (by omega)) hs) fun a ha hlt => hW a (by omega) (by omega)

variable (hfp : ∀ t v, P t → P { t with fp := v })
include hfp

/-- A frame header that is built raises SP by five, to an address that can be written. -/
theorem buildFrame_post {ra : Long} {n : Word} (hs : P s) (hW : ∀ a, s.sp.toNat < a → a ≤ s.sp.toNat + 5 → W a) :
    (buildFrame ra n).Post s (fun _ t => P t ∧ t.sp.toNat = s.sp.toNat + 5 ∧ t.sp.toNat < t.cfg.romBase) P := by
  refine .bind (.of_ok getFp_ok (.bind ((push_post C hs (hW _ (by omega) (by omega))).mono fun _ t1 ⟨h1, hsp1, _⟩ => ?_)))
  refine .bind (.of_ok getSp_ok (.bind (.of_ok (setFp_ok (long_toNat_lt _)) ?_)))
  have h1' := hfp t1 (BitVec.ofNat 24 t1.sp.toNat) h1
  refine .bind ((push_post C h1' (hW _ ?_ ?_)).mono fun _ t2 ⟨h2, hsp2, _⟩ => ?_)
  · simp only [hsp1]; omega
  · simp only [hsp1]; omega
  simp only [hsp1] at hsp2
  refine .bind ((push_post C h2 (hW _ (by omega) (by omega))).mono fun _ t3 ⟨h3, hsp3, _⟩ => ?_)
  refine .bind ((push_post C h3 (hW _ (by omega) (by omega))).mono fun _ t4 ⟨h4, hsp4, _⟩ => ?_)
  refine (push_post C h4 (hW _ (by omega) (by omega))).mono fun _ t5 ⟨h5, hsp5, hrom⟩ => ⟨h5, by omega, hrom⟩

end

end Sys2Proof.Machine

/-! PROOFS. Call and return (spec/43_call_return.md R192 to R198) and the start-up frame (spec/10_state.md R36). -/

namespace Sys2Proof.Machine

variable {s t : State} {target : Long}

/-! ### The call -/

/-- The pseudocode of `call` (R193). -/
def callOp (target : Long) : Op Unit := do
  let params ← memRead target.toNat
  let locals ← memRead ((target.toNat : Int) + 1)
  let sp ← getSp
  setSp ((sp : Int) + locals.toNat - params.toNat)
  let ra ← returnAddress
  buildFrame ra locals
  setPc ((target.toNat : Int) + 2)

theorem exec_call_eq (target : Long) (s : State) : exec (.call target) s = runOp (callOp target) s := rfl

/-- The return address is drawn only where PC + 3 is no 24-bit value (log 12). -/
theorem returnAddress_cases (s : State) :
    ∃ ra d, returnAddress s = .ok ra { s with draws := d } ∧ (s.canAdvance 3 → ra = s.pc + 3 ∧ d = s.draws) := by
  by_cases h : s.canAdvance 3
  · exact ⟨s.pc + 3, s.draws, returnAddress_ok h, fun _ => ⟨rfl, rfl⟩⟩
  · exact ⟨_, _, returnAddress_free h, fun h' => absurd h' h⟩

/-- The state after a call that put the frame header above `base` (R193). -/
def State.afterCall (s : State) (target : Long) (base : Nat) (ra : Long) (locals : Word) (d : Nat) : State :=
  { s with
    pc := target + 2
    fp := BitVec.ofNat 24 (base + 1)
    sp := BitVec.ofNat 24 (base + 5)
    mem := storeUp s.mem (base + 1) (headerWords ra s.fp locals)
    draws := d }

theorem callOp_ok {base : Nat} (hr : s.readable (target.toNat + 1))
    (hbase : s.sp.toNat + (s.mem.read (target.toNat + 1)).toNat = base + (s.mem.read target.toNat).toNat)
    (hw : s.writable (base + 5)) (hlimit : base + 5 < addressLimit) (htarget : target.toNat + 2 < addressLimit) :
    ∃ ra d, callOp target s = .ok () (s.afterCall target base ra (s.mem.read (target.toNat + 1)) d) ∧
      (s.canAdvance 3 → ra = s.pc + 3 ∧ d = s.draws) := by
  simp only [State.readable, State.writable] at hr hw
  have hsp := toNat_ofNat24 base (by omega)
  obtain ⟨ra, d, hra, hfree⟩ := returnAddress_cases { s with sp := BitVec.ofNat 24 base }
  refine ⟨ra, d, ?_, hfree⟩
  unfold callOp
  rw [Op.bind_ok (memRead_ok (by omega)), show ((target.toNat : Int) + 1) = ((target.toNat + 1 : Nat) : Int) by omega,
    Op.bind_ok (memRead_ok hr), Op.bind_ok getSp_ok,
    show ((s.sp.toNat : Int) + (s.mem.read (target.toNat + 1)).toNat - (s.mem.read target.toNat).toNat) = (base : Int) by omega,
    Op.bind_ok (setSp_ok (by omega)), Op.bind_ok hra,
    Op.bind_ok (buildFrame_ok (by simp only [hsp]; exact hw) (by simp only [hsp]; exact hlimit)),
    show ((target.toNat : Int) + 2) = ((target.toNat + 2 : Nat) : Int) by omega, setPc_ok htarget]
  simp only [hsp, State.afterCall, BitVec.ofNat_add, ofNat24_toNat]
  rfl

/-- Settles O44: the call goes on to its end, and the words of the header are read back. -/
theorem callResult : Obligations.CallResult := by
  intro s target params locals base hm hr hparams hlocals hbase hw hlimit htarget
  rw [hparams, hlocals] at hbase
  obtain ⟨ra, d, hcall, hfree⟩ := callOp_ok hr hbase hw hlimit htarget
  obtain ⟨hra1, hra0, hfp1, hfp0, hn⟩ := read_headerWords hm (base + 1) ra s.fp (s.mem.read (target.toNat + 1))
  refine ⟨_, ra, d, (exec_call_eq target s).trans (runOp_ok hcall), hfree, hra1, hra0, hfp1, hfp0, ?_, fun a ha => ?_⟩
  · rw [hlocals, BitVec.ofNat_toNat, BitVec.setWidth_eq]
    exact hn
  · exact read_headerWords_outside _ _ _ _ (by omega)

/-! ### The returns with result words -/

section
variable (hheader : s.readable (s.fp.toNat + 4)) (hlocals : s.localsWord + 1 ≤ s.fp.toNat)
include hlocals

theorem afterTearDown_sp : s.afterTearDown.sp.toNat + 1 = s.fp.toNat - s.localsWord := by
  have hfp := long_toNat_lt s.fp
  have := toNat_ofNat24 (s.fp.toNat - 1 - s.localsWord) (by omega)
  simp only [State.afterTearDown, this]
  omega

/-- The push of the word that a return keeps: it lands at `FP - locals` (R196). -/
theorem push_afterTearDown (v : Word) (hw : s.writable (s.fp.toNat - s.localsWord)) :
    push v s.afterTearDown = .ok () { s.afterTearDown with
      mem := s.mem.write (s.fp.toNat - s.localsWord) v
      sp := BitVec.ofNat 24 (s.fp.toNat - s.localsWord) } := by
  have hsp := afterTearDown_sp hlocals
  have hfp := long_toNat_lt s.fp
  have hsucc : s.afterTearDown.sp + 1 = BitVec.ofNat 24 (s.fp.toNat - s.localsWord) := by
    rw [← hsp, BitVec.ofNat_add, ofNat24_toNat]
    rfl
  rw [push_ok (by rw [hsp]; exact hw) (by omega), hsp, hsucc]
  rfl

/-- The push of the second kept word, right above the other (R197). -/
theorem push_push_afterTearDown (v w : Word) (hw : s.writable (s.fp.toNat - s.localsWord + 1))
    (hlimit : s.fp.toNat - s.localsWord + 1 < addressLimit) :
    (push v >>= fun _ => push w) s.afterTearDown = .ok () { s.afterTearDown with
      mem := (s.mem.write (s.fp.toNat - s.localsWord) v).write (s.fp.toNat - s.localsWord + 1) w
      sp := BitVec.ofNat 24 (s.fp.toNat - s.localsWord + 1) } := by
  simp only [State.writable] at hw
  have hsp := toNat_ofNat24 (s.fp.toNat - s.localsWord) (by omega)
  rw [Op.bind_ok (push_afterTearDown hlocals v (by simp only [State.writable]; omega)),
    push_ok (by simp only [hsp]; exact hw) (by simp only [hsp]; exact hlimit)]
  simp only [hsp, BitVec.ofNat_add]
  rfl

end

/-- Settles O46: the words read before the teardown are pushed after it. -/
theorem returnWithResultWords : Obligations.ReturnWithResultWords := by
  refine ⟨by decide, by decide, fun s hheader hlocals hr => ⟨fun hw => ?_, fun h1 hw hlimit => ?_⟩⟩
  · exact runOp_ok ((Op.bind_ok getSp_ok).trans ((Op.bind_ok (memRead_ok hr)).trans
      ((Op.bind_ok (tearDown_ok hheader hlocals)).trans (push_afterTearDown hlocals _ hw))))
  · have hunder : memRead ((s.sp.toNat : Int) - 1) s = .ok (s.stackWord 1) s := by
      rw [show ((s.sp.toNat : Int) - 1) = ((s.sp.toNat - 1 : Nat) : Int) by omega]
      exact memRead_ok (Nat.lt_of_le_of_lt (Nat.sub_le _ _) hr)
    exact runOp_ok ((Op.bind_ok getSp_ok).trans ((Op.bind_ok (memRead_ok hr)).trans ((Op.bind_ok hunder).trans
      ((Op.bind_ok (tearDown_ok hheader hlocals)).trans (push_push_afterTearDown hlocals _ _ hw hlimit)))))

/-! ### The start-up frame -/

/-- Settles O22: the base of the locals is 0, and one word of header below address 0 is no place for SP. -/
theorem startUpFrame : Obligations.StartUpFrame := by
  intro s hfp hr hzero
  have hbase : s.fp.toNat = 0 := by rw [hfp]; rfl
  have hlocals : s.localsWord = 0 := by rw [State.localsWord, hbase, hzero]; rfl
  have hheader : s.readable (s.fp.toNat + 4) := by rwa [hbase]
  have hteardown := tearDown_regRange hheader (by omega)
  refine ⟨fun k hk hpush hadvance => ?_, runOp_error hteardown, fun hsp => ?_, fun hsp h1 => ?_⟩
  · have h := (loadLocalResult s k hheader).1 (by omega)
    rw [hlocals, hbase, Nat.sub_zero, Nat.zero_add] at h
    exact h hk hpush hadvance
  · exact runOp_error ((Op.bind_ok getSp_ok).trans ((Op.bind_ok (memRead_ok hsp)).trans (Op.bind_error hteardown)))
  · have hunder : memRead ((s.sp.toNat : Int) - 1) s = .ok (s.stackWord 1) s := by
      rw [show ((s.sp.toNat : Int) - 1) = ((s.sp.toNat - 1 : Nat) : Int) by omega]
      exact memRead_ok (Nat.lt_of_le_of_lt (Nat.sub_le _ _) hsp)
    exact runOp_error ((Op.bind_ok getSp_ok).trans ((Op.bind_ok (memRead_ok hsp)).trans ((Op.bind_ok hunder).trans
      (Op.bind_error hteardown))))

/-! ### The round trip -/

/-- The five addresses above the base that a call moves SP to: those of the frame header (R193). -/
def State.callHeader (s : State) (target : Long) (a : Nat) : Prop :=
  ∃ base, s.sp.toNat + (s.mem.read (target.toNat + 1)).toNat = base + (s.mem.read target.toNat).toNat ∧
    base < a ∧ a ≤ base + 5

/-- Everything a call can do to a property that only the header's words, FP and a free return address can touch. Where it
goes on to its end, the routine header could be read and SP stands on the last word of the frame header. -/
theorem callOp_post {P : State → Prop} (C : Confined (s.callHeader target) P) (hfp : ∀ t v, P t → P { t with fp := v })
    (hdraws : ∀ v d, (s.canAdvance 3 → d = s.draws) → P { s with sp := v, draws := d }) :
    (callOp target).Post s (fun _ t => P t ∧ s.readable (target.toNat + 1) ∧ target.toNat + 2 < addressLimit ∧
      ∃ base, s.sp.toNat + (s.mem.read (target.toNat + 1)).toNat = base + (s.mem.read target.toNat).toNat ∧
        t.sp.toNat = base + 5 ∧ t.sp.toNat < t.cfg.romBase) P := by
  have hs : P s := hdraws s.sp s.draws fun _ => rfl
  refine .bind (memRead_post hs fun _ _ => .bind (memRead_post hs fun _ hread => .bind (.of_ok getSp_ok ?_)))
  rw [show ((target.toNat : Int) + 1).toNat = target.toNat + 1 by omega, Int.toNat_natCast]
  refine .bind (setSp_post hs fun hrange => ?_)
  obtain ⟨base, hbase⟩ := Int.eq_ofNat_of_zero_le hrange.1
  rw [hbase, ofInt24_nat]
  have hsp : (BitVec.ofNat 24 base).toNat = base := toNat_ofNat24 base (by simpa [hbase] using hrange.2)
  have heq : s.sp.toNat + (s.mem.read (target.toNat + 1)).toNat = base + (s.mem.read target.toNat).toNat := by omega
  obtain ⟨ra, d, hra, hfree⟩ := returnAddress_cases { s with sp := BitVec.ofNat 24 base }
  refine .bind (.of_ok hra (.bind ((buildFrame_post C hfp (hdraws _ d fun h => (hfree h).2) fun a hlo hhi => ?_).mono
    fun _ t ⟨ht, htsp, hrom⟩ => setPc_post ht fun htarget => ?_)))
  · simp only [hsp] at hlo hhi
    exact ⟨base, heq, hlo, hhi⟩
  · simp only [hsp] at htsp
    have hlimit := htarget.2
    exact ⟨C.pc _ _ ht, by simp only [State.readable]; omega, by omega, base, heq, htsp, hrom⟩

/-- A teardown takes PC and FP from the header that stands at FP, and drops it with its locals (R195). -/
theorem afterTearDown_of_header {a : Nat} {ra fp : Long} {n : Word} (ha : s.fp.toNat = a)
    (hra1 : s.mem.read a = hiWord ra) (hra0 : s.mem.read (a + 1) = loWord ra)
    (hfp1 : s.mem.read (a + 2) = hiWord fp) (hfp0 : s.mem.read (a + 3) = loWord fp) (hn : s.mem.read (a + 4) = n) :
    s.afterTearDown = { s with sp := BitVec.ofNat 24 (a - 1 - n.toNat), pc := ra, fp := fp } := by
  simp only [State.afterTearDown, State.localsWord, ha, hra1, hra0, hfp1, hfp0, hn, longOf_hi_lo]

/-- Settles O47: a call that does not fault met the conditions of its result, and `ret` finds the header it stored. -/
theorem callThenReturnRoundTrip : Obligations.CallThenReturnRoundTrip := by
  intro s t target hm hadvance hparams hsp hcall hrun
  have C : Confined (s.callHeader target) fun u => u.cfg = s.cfg :=
    ⟨fun _ _ h => h, fun _ _ h => h, fun _ _ _ _ h => h⟩
  obtain ⟨hcfg, hr, htarget, base, hbase, htsp, hrom⟩ :=
    (callOp_post C (fun _ _ h => h) fun _ _ _ => rfl).1 _ _ (runOp_running hcall hrun)
  have hw : s.writable (base + 5) := by rw [State.writable, ← htsp, ← hcfg]; exact hrom
  have hlimit : base + 5 < addressLimit := htsp ▸ long_toNat_lt t.sp
  obtain ⟨m, ra, d, hnext, hfree, hra1, hra0, hfp1, hfp0, hn, hframe⟩ :=
    callResult s target _ _ base hm hr rfl rfl hbase hw hlimit htarget
  obtain ⟨rfl, -⟩ := hfree hadvance
  obtain rfl := Host.Outcome.next.inj (hnext.symm.trans hcall)
  have hfp := toNat_ofNat24 (base + 1) (by omega)
  rw [BitVec.ofNat_toNat, BitVec.setWidth_eq] at hn
  have hsize := romBase_le_memSize s.cfg
  simp only [State.writable] at hw
  have hsp' := toNat_ofNat24 (base + 1 - 1 - (s.mem.read (target.toNat + 1)).toNat) (by omega)
  have htearDown := tearDown_ok (s := { s with
      pc := target + 2, fp := BitVec.ofNat 24 (base + 1), sp := BitVec.ofNat 24 (base + 5), mem := m, draws := d })
    (by simp only [State.readable, hfp]; omega) (by simp only [State.localsWord, hfp, Nat.add_assoc, Nat.reduceAdd, hn]; omega)
  rw [afterTearDown_of_header hfp hra1 hra0 hfp1 hfp0 hn] at htearDown
  refine ⟨_, (exec_ret_eq _).trans (runOp_ok htearDown), hrun, rfl, rfl, ?_, rfl, fun a ha => hframe a (.inl ?_)⟩
  · simp only [hsp']
    omega
  · simp only [hsp'] at ha
    omega

end Sys2Proof.Machine

/-! PROOFS. The frames of the instructions (spec/10_state.md section 4 and the frame lines of spec/40 to 44): each operand shape
ends in every property that only the result's words, PC and SP can touch, and the frame is such a property. -/

namespace Sys2Proof.Machine

variable {s t : State} {i : Instr} {P C : State → Prop} {W : Nat → Prop}

/-! ### The frame as a property -/

/-- The run is as it was, and so is every word outside `W` and what `C` says of the registers and the control state. -/
def State.Frame (s : State) (W : Nat → Prop) (C : State → Prop) (t : State) : Prop :=
  C t ∧ t.run = s.run ∧ ∀ a, ¬ W a → s.sameAt t a

/-- The property does not speak of PC, SP, memory and the run. -/
def OfTheRest (C : State → Prop) : Prop := ∀ t pc sp mem run, C t → C { t with pc := pc, sp := sp, mem := mem, run := run }

theorem confined_frame (hC : OfTheRest C) : Confined W (s.Frame W C) where
  pc t v := fun ⟨h, hrun, hmem⟩ => ⟨hC t v t.sp t.mem t.run h, hrun, hmem⟩
  sp t v := fun ⟨h, hrun, hmem⟩ => ⟨hC t t.pc v t.mem t.run h, hrun, hmem⟩
  mem t a w ha := fun ⟨h, hrun, hmem⟩ => ⟨hC t t.pc t.sp _ t.run h, hrun, fun b hb =>
    (Memory.read_write_ne t.mem w fun e : b = a => hb (e ▸ ha)).trans (hmem b hb)⟩

theorem frame_refl (hs : C s) : s.Frame W C s := ⟨hs, rfl, fun _ _ => rfl⟩

/-- The frame of an instruction, where its pseudocode ends in it. -/
theorem frame_of_runOp (hC : OfTheRest C) {m : Op Unit} (hm : m.EndsIn s (s.Frame W C)) (h : runOp m s = .next t) :
    C t ∧ s.sameRunOrFault t ∧ ∀ a, ¬ W a → s.sameAt t a := by
  rcases runOp_endsIn hm h with ⟨ht, hrun, hmem⟩ | ⟨r, u, ⟨hu, -, hmem⟩, rfl⟩
  · exact ⟨ht, .inl hrun, hmem⟩
  · exact ⟨hC u u.pc u.sp u.mem _ hu, .inr ⟨r, rfl⟩, hmem⟩

/-- What the ALU instructions leave beside memory: FP and the control state. -/
def State.sameFp (s t : State) : Prop := t.fp = s.fp ∧ s.sameControl t

/-- What the jumps, loads and stores leave beside memory: carry too. -/
def State.sameFpCarry (s t : State) : Prop := t.fp = s.fp ∧ t.carry = s.carry ∧ s.sameControl t

theorem sameFp_rest (s : State) : OfTheRest s.sameFp := fun _ _ _ _ _ h => h

theorem sameFpCarry_rest (s : State) : OfTheRest s.sameFpCarry := fun _ _ _ _ _ h => h

theorem sameFp_refl (s : State) : s.sameFp s := ⟨rfl, rfl, rfl, rfl, rfl, rfl, rfl, rfl, rfl⟩

theorem sameFpCarry_refl (s : State) : s.sameFpCarry s := ⟨rfl, rfl, rfl, rfl, rfl, rfl, rfl, rfl, rfl, rfl⟩

/-! ### The operand shapes -/

theorem raiseFatal_endsIn {α : Type} {r : Fault} (hs : P s) : (raiseFatal r : Op α).EndsIn s P := .of_error rfl hs

/-- Two words popped: a result word goes where the deeper one was. -/
theorem popTwo_endsIn {W : Nat → Prop} (K : Confined W P) (hs : P s) {f : Word → Word → Op Unit}
    (hf : ∀ b a u, P u → u.sp.toNat + 2 = s.sp.toNat → (f b a).EndsIn u P) : (pop >>= fun b => pop >>= f b).EndsIn s P :=
  .bind (pop_post hs fun _ h1 => .bind (pop_post (K.sp _ _ hs) fun _ h2 => by
    have hp := toNat_pred_of_pos s.sp h1
    have hp2 := toNat_pred_of_pos (s.sp - 1) h2
    rw [hp] at h2
    exact hf _ _ _ (K.sp { s with sp := s.sp - 1 } _ (K.sp _ _ hs)) (by simp only [hp2, hp]; omega)))

/-- Two longs popped: a result long goes where the deeper one was. -/
theorem popTwoLongs_endsIn {W : Nat → Prop} (K : Confined W P) (hs : P s) {f : Long → Long → Op Unit}
    (hf : ∀ b a u, P u → u.sp.toNat + 4 = s.sp.toNat → (f b a).EndsIn u P) : (popL >>= fun b => popL >>= f b).EndsIn s P :=
  .bind (popL_post K hs fun h2 => .bind (popL_post K (K.sp _ _ hs) fun h4 => by
    have hp : (s.sp - 2).toNat = s.sp.toNat - 2 := toNat_sub_of_le s.sp 2 h2
    have hp2 : (s.sp - 2 - 2).toNat = (s.sp - 2).toNat - 2 := toNat_sub_of_le (s.sp - 2) 2 h4
    simp only [hp] at h4
    exact hf _ _ _ (K.sp { s with sp := s.sp - 2 } _ (K.sp _ _ hs)) (by simp only [hp2, hp]; omega)))

/-- One word popped: a result word goes where it was. -/
theorem popOne_endsIn {W : Nat → Prop} (K : Confined W P) (hs : P s) {f : Word → Op Unit}
    (hf : ∀ a u, P u → u.sp.toNat + 1 = s.sp.toNat → (f a).EndsIn u P) : (pop >>= f).EndsIn s P :=
  .bind (pop_post hs fun _ h1 => hf _ _ (K.sp _ _ hs) (by simp only [toNat_pred_of_pos s.sp h1]; omega))

/-- One long popped: a result long goes where it was. -/
theorem popOneLong_endsIn {W : Nat → Prop} (K : Confined W P) (hs : P s) {f : Long → Op Unit}
    (hf : ∀ a u, P u → u.sp.toNat + 2 = s.sp.toNat → (f a).EndsIn u P) : (popL >>= f).EndsIn s P :=
  .bind (popL_post K hs fun h2 => hf _ _ (K.sp _ _ hs) (by
    have hp : (s.sp - 2).toNat = s.sp.toNat - 2 := toNat_sub_of_le s.sp 2 h2
    simp only [hp]
    omega))

theorem push_then_endsIn {u : State} (K : Confined W P) (hu : P u) (hW : W (u.sp.toNat + 1)) {w : Word} {rest : Op Unit}
    (hrest : ∀ t, P t → rest.EndsIn t P) : (push w >>= fun _ => rest).EndsIn u P :=
  .bind ((push_endsIn K hu hW).mono fun _ t ht => hrest t ht)

theorem pushL_then_endsIn {u : State} (K : Confined W P) (hu : P u) (hW : W (u.sp.toNat + 1)) (hW' : W (u.sp.toNat + 2))
    {v : Long} {rest : Op Unit} (hrest : ∀ t, P t → rest.EndsIn t P) : (pushL v >>= fun _ => rest).EndsIn u P :=
  .bind ((pushL_endsIn K hu hW hW').mono fun _ t ht => hrest t ht)

theorem binaryWordKeep_endsIn (K : Confined (fun a => a + 1 = s.sp.toNat) P) (hs : P s) (op : Word → Word → Word) :
    (binaryWordKeep op).EndsIn s P :=
  popTwo_endsIn K hs fun _ _ _ hu hsp => push_then_endsIn K hu hsp fun _ => advance_endsIn K

theorem binaryLongKeep_endsIn (K : Confined (fun a => a + 3 = s.sp.toNat ∨ a + 2 = s.sp.toNat) P) (hs : P s)
    (op : Long → Long → Long) : (binaryLongKeep op).EndsIn s P :=
  popTwoLongs_endsIn K hs fun _ _ _ hu hsp => pushL_then_endsIn K hu (.inl hsp) (.inr hsp) fun _ => advance_endsIn K

section
variable (hc : ∀ t v, P t → P { t with carry := v })
include hc

theorem setCarry_advance_endsIn (K : Confined W P) {c : Bool} (ht : P t) :
    (setCarry c >>= fun _ => advance 1).EndsIn t P :=
  .bind (.of_ok (setCarry_ok c) (advance_endsIn K (hc t c ht)))

theorem binaryWord_endsIn (K : Confined (fun a => a + 1 = s.sp.toNat) P) (hs : P s) (op : Word → Word → Word × Bool) :
    (binaryWord op).EndsIn s P :=
  popTwo_endsIn K hs fun _ _ _ hu hsp => push_then_endsIn K hu hsp fun _ => setCarry_advance_endsIn hc K

theorem binaryWordDiv_endsIn (K : Confined (fun a => a + 1 = s.sp.toNat) P) (hs : P s) (op : Word → Word → Word × Bool) :
    (binaryWordDiv op).EndsIn s P :=
  popTwo_endsIn K hs fun _ _ _ hu hsp => by
    split
    · exact raiseFatal_endsIn hu
    · exact push_then_endsIn K hu hsp fun _ => setCarry_advance_endsIn hc K

theorem binaryWordToLong_endsIn (K : Confined (fun a => a + 1 = s.sp.toNat ∨ a = s.sp.toNat) P) (hs : P s)
    (op : Word → Word → Long × Bool) : (binaryWordToLong op).EndsIn s P :=
  popTwo_endsIn K hs fun _ _ _ hu hsp =>
    pushL_then_endsIn K hu (.inl hsp) (.inr hsp) fun _ => setCarry_advance_endsIn hc K

theorem unaryWord_endsIn (K : Confined (fun a => a = s.sp.toNat) P) (hs : P s) (op : Word → Word × Bool) :
    (unaryWord op).EndsIn s P :=
  popOne_endsIn K hs fun _ _ hu hsp => push_then_endsIn K hu hsp fun _ => setCarry_advance_endsIn hc K

theorem unaryWordCarry_endsIn (K : Confined (fun a => a = s.sp.toNat) P) (hs : P s) (op : Word → Bool → Word × Bool) :
    (unaryWordCarry op).EndsIn s P :=
  popOne_endsIn K hs fun _ _ hu hsp =>
    .bind (.of_ok getCarry_ok (push_then_endsIn K hu hsp fun _ => setCarry_advance_endsIn hc K))

theorem binaryLong_endsIn (K : Confined (fun a => a + 3 = s.sp.toNat ∨ a + 2 = s.sp.toNat) P) (hs : P s)
    (op : Long → Long → Long × Bool) : (binaryLong op).EndsIn s P :=
  popTwoLongs_endsIn K hs fun _ _ _ hu hsp =>
    pushL_then_endsIn K hu (.inl hsp) (.inr hsp) fun _ => setCarry_advance_endsIn hc K

theorem binaryLongDiv_endsIn (K : Confined (fun a => a + 3 = s.sp.toNat ∨ a + 2 = s.sp.toNat) P) (hs : P s)
    (op : Long → Long → Long × Bool) : (binaryLongDiv op).EndsIn s P :=
  popTwoLongs_endsIn K hs fun _ _ _ hu hsp => by
    split
    · exact raiseFatal_endsIn hu
    · exact pushL_then_endsIn K hu (.inl hsp) (.inr hsp) fun _ => setCarry_advance_endsIn hc K

theorem unaryLong_endsIn (K : Confined (fun a => a + 1 = s.sp.toNat ∨ a = s.sp.toNat) P) (hs : P s)
    (op : Long → Long × Bool) : (unaryLong op).EndsIn s P :=
  popOneLong_endsIn K hs fun _ _ hu hsp =>
    pushL_then_endsIn K hu (.inl hsp) (.inr hsp) fun _ => setCarry_advance_endsIn hc K

end

/-! ### The frame of each shape -/

/-- An instruction that may write carry, over any shape that ends in every property confined to `W`. -/
theorem frame_of_shape {m : Op Unit} (hi : exec i s = runOp m s) (h : exec i s = .next t)
    (hm : ∀ P : State → Prop, (∀ t v, P t → P { t with carry := v }) → Confined W P → P s → m.EndsIn s P) :
    t.fp = s.fp ∧ s.sameControl t ∧ s.sameRunOrFault t ∧ ∀ a, ¬ W a → s.sameAt t a := by
  have hends := hm (s.Frame W s.sameFp) (fun _ _ h => h) (confined_frame (sameFp_rest s)) (frame_refl (sameFp_refl s))
  obtain ⟨⟨hfp, hcontrol⟩, hrun, hmem⟩ := frame_of_runOp (sameFp_rest s) hends (hi ▸ h)
  exact ⟨hfp, hcontrol, hrun, hmem⟩

/-- An instruction that leaves carry, over any shape that ends in every property confined to `W`. -/
theorem frame_of_shape_keep {m : Op Unit} (hi : exec i s = runOp m s) (h : exec i s = .next t)
    (hm : ∀ P : State → Prop, Confined W P → P s → m.EndsIn s P) :
    t.fp = s.fp ∧ t.carry = s.carry ∧ s.sameControl t ∧ s.sameRunOrFault t ∧ ∀ a, ¬ W a → s.sameAt t a := by
  have hends := hm (s.Frame W s.sameFpCarry) (confined_frame (sameFpCarry_rest s)) (frame_refl (sameFpCarry_refl s))
  obtain ⟨⟨hfp, hcarry, hcontrol⟩, hrun, hmem⟩ := frame_of_runOp (sameFpCarry_rest s) hends (hi ▸ h)
  exact ⟨hfp, hcarry, hcontrol, hrun, hmem⟩

/-! ### The ALU -/

theorem binaryWord_frame {op : Word → Word → Word × Bool} (hi : exec i s = runOp (binaryWord op) s) (h : exec i s = .next t) :
    t.fp = s.fp ∧ s.sameControl t ∧ s.sameRunOrFault t ∧ ∀ a, a + 1 ≠ s.sp.toNat → s.sameAt t a :=
  frame_of_shape hi h fun _ hc K hs => binaryWord_endsIn hc K hs op

theorem binaryWordDiv_frame {op : Word → Word → Word × Bool} (hi : exec i s = runOp (binaryWordDiv op) s)
    (h : exec i s = .next t) :
    t.fp = s.fp ∧ s.sameControl t ∧ s.sameRunOrFault t ∧ ∀ a, a + 1 ≠ s.sp.toNat → s.sameAt t a :=
  frame_of_shape hi h fun _ hc K hs => binaryWordDiv_endsIn hc K hs op

theorem binaryWordKeep_frame {op : Word → Word → Word} (hi : exec i s = runOp (binaryWordKeep op) s)
    (h : exec i s = .next t) : t.fp = s.fp ∧ t.carry = s.carry ∧ s.sameControl t ∧ s.sameRunOrFault t ∧
      ∀ a, a + 1 ≠ s.sp.toNat → s.sameAt t a :=
  frame_of_shape_keep hi h fun _ K hs => binaryWordKeep_endsIn K hs op

theorem unaryWord_frame {op : Word → Word × Bool} (hi : exec i s = runOp (unaryWord op) s) (h : exec i s = .next t) :
    t.fp = s.fp ∧ s.sameControl t ∧ s.sameRunOrFault t ∧ ∀ a, a ≠ s.sp.toNat → s.sameAt t a :=
  frame_of_shape hi h fun _ hc K hs => unaryWord_endsIn hc K hs op

theorem unaryWordCarry_frame {op : Word → Bool → Word × Bool} (hi : exec i s = runOp (unaryWordCarry op) s)
    (h : exec i s = .next t) :
    t.fp = s.fp ∧ s.sameControl t ∧ s.sameRunOrFault t ∧ ∀ a, a ≠ s.sp.toNat → s.sameAt t a :=
  frame_of_shape hi h fun _ hc K hs => unaryWordCarry_endsIn hc K hs op

/-- The two words of a binary long result are the only ones such an instruction can touch. -/
theorem binaryLong_frame {m : Op Unit} (hi : exec i s = runOp m s) (h : exec i s = .next t)
    (hm : ∀ P : State → Prop, (∀ t v, P t → P { t with carry := v }) →
      Confined (fun a => a + 3 = s.sp.toNat ∨ a + 2 = s.sp.toNat) P → P s → m.EndsIn s P) :
    t.fp = s.fp ∧ s.sameControl t ∧ s.sameRunOrFault t ∧ ∀ a, a + 3 ≠ s.sp.toNat → a + 2 ≠ s.sp.toNat → s.sameAt t a := by
  obtain ⟨hfp, hcontrol, hrun, hmem⟩ := frame_of_shape hi h hm
  exact ⟨hfp, hcontrol, hrun, fun a h3 h2 => hmem a (not_or.mpr ⟨h3, h2⟩)⟩

theorem binaryLongKeep_carry {op : Long → Long → Long} (hi : exec i s = runOp (binaryLongKeep op) s)
    (h : exec i s = .next t) : t.carry = s.carry :=
  (frame_of_shape_keep hi h fun _ K hs => binaryLongKeep_endsIn K hs op).2.1

/-- The two words of a unary long result, or of `mul2`, are the only ones such an instruction can touch. -/
theorem unaryLong_frame {m : Op Unit} (hi : exec i s = runOp m s) (h : exec i s = .next t)
    (hm : ∀ P : State → Prop, (∀ t v, P t → P { t with carry := v }) →
      Confined (fun a => a + 1 = s.sp.toNat ∨ a = s.sp.toNat) P → P s → m.EndsIn s P) :
    t.fp = s.fp ∧ s.sameControl t ∧ s.sameRunOrFault t ∧ ∀ a, a + 1 ≠ s.sp.toNat → a ≠ s.sp.toNat → s.sameAt t a := by
  obtain ⟨hfp, hcontrol, hrun, hmem⟩ := frame_of_shape hi h hm
  exact ⟨hfp, hcontrol, hrun, fun a h1 h0 => hmem a (not_or.mpr ⟨h1, h0⟩)⟩

/-- Settles O51: each instruction has the frame of its shape. -/
theorem wordAluFrame : Obligations.WordAluFrame := by
  have hkeep : ∀ {i s t} {op : Word → Word → Word}, exec i s = runOp (binaryWordKeep op) s → exec i s = .next t →
      t.fp = s.fp ∧ s.sameControl t ∧ s.sameRunOrFault t ∧ ∀ a, a + 1 ≠ s.sp.toNat → s.sameAt t a := fun hi h =>
    have ⟨hfp, _, hrest⟩ := binaryWordKeep_frame hi h
    ⟨hfp, hrest⟩
  simp only [Obligations.WordAluFrame, List.forall_mem_cons, List.not_mem_nil, false_implies, implies_true, and_true]
  refine ⟨⟨?add, ?sub, ?mul, ?div, ?mod, ?or, ?xor, ?and⟩, ⟨?orCarry, ?xorCarry, ?andCarry⟩,
    ⟨?neg, ?not, ?inc, ?dec, ?rotLC, ?rotRC⟩, ?mul2⟩
  case add | sub | mul => exact fun _ _ => binaryWord_frame rfl
  case div | mod => exact fun _ _ => binaryWordDiv_frame rfl
  case or | xor | and => exact fun _ _ => hkeep rfl
  case orCarry | xorCarry | andCarry => exact fun _ _ h => (binaryWordKeep_frame rfl h).2.1
  case neg | not | inc | dec => exact fun _ _ => unaryWord_frame rfl
  case rotLC | rotRC => exact fun _ _ => unaryWordCarry_frame rfl
  case mul2 =>
    intro s t h
    obtain ⟨hfp, hcontrol, hrun, hmem⟩ := unaryLong_frame rfl h fun _ hc K hs => binaryWordToLong_endsIn hc K hs aluMul2
    exact ⟨hfp, hcontrol, hrun, fun a h0 h1 => hmem a h1 h0⟩

/-- Settles O52: each instruction has the frame of its shape. -/
theorem longAluFrame : Obligations.LongAluFrame := by
  simp only [Obligations.LongAluFrame, List.forall_mem_cons, List.not_mem_nil, false_implies, implies_true, and_true]
  refine ⟨⟨?addL, ?subL, ?mulL, ?divL, ?modL, ?orL, ?xorL, ?andL⟩, ⟨?orCarry, ?xorCarry, ?andCarry⟩,
    ?negL, ?notL, ?incL, ?decL⟩
  case addL | subL | mulL => exact fun _ _ h => binaryLong_frame rfl h fun _ hc K hs => binaryLong_endsIn hc K hs _
  case divL | modL => exact fun _ _ h => binaryLong_frame rfl h fun _ hc K hs => binaryLongDiv_endsIn hc K hs _
  case orL | xorL | andL => exact fun _ _ h => binaryLong_frame rfl h fun _ _ K hs => binaryLongKeep_endsIn K hs _
  case orCarry | xorCarry | andCarry => exact fun _ _ => binaryLongKeep_carry rfl
  case negL | notL | incL | decL => exact fun _ _ h => unaryLong_frame rfl h fun _ hc K hs => unaryLong_endsIn hc K hs _

/-! ### Jumps -/

/-- A jump touches no word of memory. -/
theorem jump_frame {m : Op Unit} (hi : exec i s = runOp m s) (h : exec i s = .next t)
    (hm : ∀ P : State → Prop, Confined (fun _ => False) P → P s → m.EndsIn s P) :
    t.fp = s.fp ∧ t.carry = s.carry ∧ s.sameControl t ∧ s.sameRunOrFault t ∧ ∀ a, s.sameAt t a := by
  obtain ⟨hfp, hcarry, hcontrol, hrun, hmem⟩ := frame_of_shape_keep hi h hm
  exact ⟨hfp, hcarry, hcontrol, hrun, fun a => hmem a id⟩

theorem jumpOnCarry_endsIn (K : Confined W P) (hs : P s) {target : Long} {cond : Bool → Bool} :
    (jumpOnCarry target cond).EndsIn s P := .bind (.of_ok getCarry_ok (branch_endsIn K hs))

/-- Settles O53: a jump pops what its mode tests and writes PC. -/
theorem jumpFrame : Obligations.JumpFrame := by
  intro target
  simp only [List.forall_mem_cons, List.not_mem_nil, false_implies, implies_true, and_true]
  refine ⟨?jmp, ?jz, ?jnz, ?jc, ?jcz, ?jgz, ?jlz, ?jge, ?jle, ?jeq, ?jneq, ?jro, ?jzL, ?jnzL, ?jgzL, ?jlzL⟩
  case jmp => exact fun _ _ h => jump_frame rfl h fun _ K hs => branch_endsIn K hs
  case jc | jcz => exact fun _ _ h => jump_frame rfl h fun _ K hs => jumpOnCarry_endsIn K hs
  case jz | jnz | jgz | jlz | jge | jle =>
    exact fun _ _ h => jump_frame rfl h fun _ K hs => popOne_endsIn K hs fun _ _ hu _ => branch_endsIn K hu
  case jeq | jneq =>
    exact fun _ _ h => jump_frame rfl h fun _ K hs => popTwo_endsIn K hs fun _ _ _ hu _ => branch_endsIn K hu
  case jro =>
    exact fun _ _ h => jump_frame rfl h fun _ K hs => popOne_endsIn K hs fun _ _ hu _ =>
      .bind (.of_ok getPc_ok (setPc_endsIn K hu))
  case jzL | jnzL | jgzL | jlzL =>
    exact fun _ _ h => jump_frame rfl h fun _ K hs => popOneLong_endsIn K hs fun _ _ hu _ => branch_endsIn K hu

/-! ### Loads, stores and the block copy -/

theorem fpLoc_post {E : State → Prop} {Q : Nat → State → Prop} (he : E s) (hq : ∀ base, fpLoc s = .ok base s → Q base s) :
    fpLoc.Post s Q E := by
  by_cases hheader : s.readable (s.fp.toNat + 4)
  · by_cases hlocals : s.localsWord ≤ s.fp.toNat
    · exact .of_ok (fpLoc_ok hheader hlocals) (hq _ (fpLoc_ok hheader hlocals))
    · exact .of_error (fpLoc_regRange hheader (Nat.not_le.mp hlocals)) he
  · exact .of_error (by rw [fpLoc_eq, if_pos (Nat.not_lt.mp hheader)]) he

/-- Settles O54: the loads push one word; the store goes to the base that `fpLoc` gives. -/
theorem loadStoreFrame : Obligations.LoadStoreFrame := by
  simp only [Obligations.LoadStoreFrame, List.forall_mem_cons, List.not_mem_nil, false_implies, implies_true, and_true]
  refine ⟨fun k => ⟨fun s t h => ?_, fun s t h => ?_⟩, fun k s t h => ?_⟩
  · exact frame_of_shape_keep (W := fun a => a = s.sp.toNat + 1) rfl h fun _ K hs =>
      push_then_endsIn K hs rfl fun _ => advance_endsIn K
  · exact frame_of_shape_keep (W := fun a => a = s.sp.toNat + 1) rfl h fun _ K hs =>
      .bind (fpLoc_post hs fun _ _ => .bind (memRead_post hs fun _ _ => push_then_endsIn K hs rfl fun _ => advance_endsIn K))
  · obtain ⟨hfp, hcarry, hcontrol, hrun, hmem⟩ :=
      frame_of_shape_keep (W := fun a => ∃ base u, fpLoc s = .ok base u ∧ a = base + k.toNat) rfl h fun P K hs => by
        refine .bind (fpLoc_post hs fun base hbase => popOne_endsIn K hs fun v u hu _ => ?_)
        refine .bind (memWrite_post hu fun _ _ => advance_endsIn K (K.mem _ _ _ ⟨base, s, hbase, ?_⟩ hu))
        omega
    refine ⟨hfp, hcarry, hcontrol, hrun, fun base u hbase a ha => hmem a ?_, fun r u herror a => hmem a ?_⟩
    · rintro ⟨base', u', hbase', rfl⟩
      rw [hbase] at hbase'
      cases hbase'
      exact ha rfl
    · rintro ⟨base', u', hbase', -⟩
      rw [herror] at hbase'
      cases hbase'

/-- The long under the popped top long is the top long then. -/
theorem topLong_after_popL (h2 : 2 ≤ s.sp.toNat) : State.topLong { s with sp := s.sp - 2 } = s.underLong := by
  have hp : (s.sp - 2).toNat = s.sp.toNat - 2 := toNat_sub_of_le s.sp 2 h2
  simp only [State.topLong, State.underLong, State.stackWord, hp, Nat.sub_sub, Nat.reduceAdd]

/-- Settles O55: the copy touches the block that the two upper longs name, wherever it stops. -/
theorem blockCopyFrame : Obligations.BlockCopyFrame := by
  intro s t h
  obtain ⟨hfp, hcarry, hcontrol, hrun, hmem⟩ := frame_of_shape_keep
      (W := fun a => s.underLong.toNat ≤ a ∧ a < s.underLong.toNat + s.topLong.toNat) rfl h fun P K hs => by
    refine .bind (popL_post K hs fun h2 => .bind (popL_post K (K.sp _ _ hs) fun _ => ?_))
    rw [topLong_after_popL h2]
    refine popOneLong_endsIn K (K.sp { s with sp := s.sp - 2 } _ (K.sp _ _ hs)) fun src u hu _ => ?_
    exact .bind ((copyWords_endsIn K hu fun a hlo hhi => ⟨hlo, hhi⟩).mono fun _ _ => advance_endsIn K)
  exact ⟨hfp, hcarry, hcontrol, hrun, fun a ha => hmem a (by omega)⟩

/-! ### Call and return -/

/-- What `call` leaves beside memory. -/
def State.sameForCall (s t : State) : Prop :=
  t.carry = s.carry ∧ t.ie = s.ie ∧ t.halted = s.halted ∧ t.pending = s.pending ∧ t.missed = s.missed ∧
  t.phase = s.phase ∧ t.cfg = s.cfg ∧ t.schedule = s.schedule ∧ (s.canAdvance 3 → t.draws = s.draws)

theorem sameForCall_rest (s : State) : OfTheRest s.sameForCall := fun _ _ _ _ _ h => h

theorem call_frame {target : Long} (h : exec (.call target) s = .next t) :
    s.sameForCall t ∧ s.sameRunOrFault t ∧ ∀ a, ¬ s.callHeader target a → s.sameAt t a :=
  frame_of_runOp (sameForCall_rest s) ((callOp_post (confined_frame (sameForCall_rest s)) (fun _ _ h => h)
    fun _ _ hd => ⟨⟨rfl, rfl, rfl, rfl, rfl, rfl, rfl, rfl, hd⟩, rfl, fun _ _ => rfl⟩).mono fun _ _ ⟨ht, _⟩ => ht) h

/-- What the returns leave beside memory. -/
def State.sameCarry (s t : State) : Prop := t.carry = s.carry ∧ s.sameControl t

theorem sameCarry_rest (s : State) : OfTheRest s.sameCarry := fun _ _ _ _ _ h => h

/-- A return whose pushes stay in `W` after a teardown that goes on. -/
theorem return_frame {m : Op Unit} (hi : exec i s = runOp m s) (h : exec i s = .next t)
    (hm : ∀ P : State → Prop, Confined W P → P s → (s.localsWord + 1 ≤ s.fp.toNat → P s.afterTearDown) → m.EndsIn s P) :
    t.carry = s.carry ∧ s.sameControl t ∧ s.sameRunOrFault t ∧ ∀ a, ¬ W a → s.sameAt t a := by
  have hs : s.sameCarry s := ⟨rfl, rfl, rfl, rfl, rfl, rfl, rfl, rfl, rfl⟩
  have hends := hm (s.Frame W s.sameCarry) (confined_frame (sameCarry_rest s)) (frame_refl hs) fun _ => frame_refl hs
  obtain ⟨⟨hcarry, hcontrol⟩, hrun, hmem⟩ := frame_of_runOp (sameCarry_rest s) hends (hi ▸ h)
  exact ⟨hcarry, hcontrol, hrun, hmem⟩

/-- Settles O56: `call` touches the header's words, the returns those they push. -/
theorem callReturnFrame : Obligations.CallReturnFrame := by
  refine ⟨fun target s t h => ?_, fun target s t h hbelow a => ?_, fun s t h => ?_, fun s t h => ?_, fun s t h => ?_⟩
  · obtain ⟨⟨hcarry, hie, hhalted, hpending, hmissed, hphase, hcfg, hschedule, hdraws⟩, hrun, hmem⟩ := call_frame h
    refine ⟨hcarry, hie, hhalted, hpending, hmissed, hphase, hcfg, hschedule, hdraws, hrun, fun a base hbase ha => hmem a ?_⟩
    rintro ⟨base', hbase', hlo, hhi⟩
    omega
  · refine (call_frame h).2.2 a ?_
    rintro ⟨base, hbase, -⟩
    omega
  · obtain ⟨hcarry, hcontrol, hrun, hmem⟩ := return_frame (W := fun _ => False) rfl h fun P K hs htd =>
      tearDown_post hs fun _ hlocals => htd hlocals
    exact ⟨hcarry, hcontrol, hrun, fun a => hmem a id⟩
  · refine return_frame (W := fun a => a + s.localsWord = s.fp.toNat) rfl h fun P K hs htd => ?_
    refine .bind (.of_ok getSp_ok (.bind (memRead_post hs fun _ _ => .bind (tearDown_post hs fun _ hlocals => ?_))))
    have hsp := afterTearDown_sp hlocals
    exact push_endsIn K (htd hlocals) (by omega)
  · obtain ⟨hcarry, hcontrol, hrun, hmem⟩ := return_frame
        (W := fun a => a + s.localsWord = s.fp.toNat ∨ a + s.localsWord = s.fp.toNat + 1) rfl h fun P K hs htd => by
      refine .bind (.of_ok getSp_ok (.bind (memRead_post hs fun _ _ => .bind (memRead_post hs fun _ _ =>
        .bind (tearDown_post hs fun _ hlocals => ?_)))))
      have hsp := afterTearDown_sp hlocals
      exact pushTwo_endsIn K (htd hlocals) (.inl (by omega)) (.inr (by omega))
    exact ⟨hcarry, hcontrol, hrun, fun a h0 h1 => hmem a (not_or.mpr ⟨h0, h1⟩)⟩

/-! ### Who changes carry and FP -/

/-- The instructions that write carry (10_state.md R26). -/
def carryWriters : List Instr :=
  [.add, .sub, .mul, .mul2, .div, .mod, .neg, .not, .inc, .dec, .rotLC, .rotRC,
   .addL, .subL, .mulL, .divL, .modL, .negL, .notL, .incL, .decL]

/-- Every other instruction has a frame that keeps carry. -/
theorem exec_carry (hi : i ∉ carryWriters) (h : exec i s = .next t) : t.carry = s.carry := by
  obtain ⟨-, hbitwise, -, -⟩ := wordAluFrame
  obtain ⟨-, hbitwiseLong, -⟩ := longAluFrame
  obtain ⟨hload, hstore⟩ := loadStoreFrame
  obtain ⟨-, -, hret, hret1, hret2⟩ := callReturnFrame
  cases i with
  | loadLit k | loadLocal k => exact (hload k _ (by simp) s t h).2.1
  | storeLocal k => exact (hstore k s t h).2.1
  | memc => exact (blockCopyFrame s t h).2.1
  | or | xor | and => exact hbitwise _ (by simp) s t h
  | orL | xorL | andL => exact hbitwiseLong _ (by simp) s t h
  | jmp a | jz a | jnz a | jc a | jcz a | jgz a | jlz a | jge a | jle a | jeq a | jneq a | jzL a | jnzL a | jgzL a
  | jlzL a => exact (jumpFrame a _ (by simp) s t h).2.1
  | jro => exact (jumpFrame 0 _ (by simp) s t h).2.1
  | call a => exact (call_frame h).1.1
  | ret => exact (hret s t h).1
  | ret1 => exact (hret1 s t h).1
  | ret2 => exact (hret2 s t h).1
  | eni | dsi | hlt =>
    obtain ⟨-, -, -, hcarry, -⟩ := systemFrame _ (by simp) s t h
    exact hcarry
  | _ => exact absurd (by simp [carryWriters]) hi

/-- Every instruction but `call` and the returns has a frame that keeps FP. -/
theorem exec_fp (hi : (∀ a, i ≠ .call a) ∧ i ≠ .ret ∧ i ≠ .ret1 ∧ i ≠ .ret2) (h : exec i s = .next t) : t.fp = s.fp := by
  obtain ⟨hcall, hret, hret1, hret2⟩ := hi
  obtain ⟨hbinary, -, hunary, hmul2⟩ := wordAluFrame
  obtain ⟨hbinaryLong, -, hunaryLong⟩ := longAluFrame
  obtain ⟨hload, hstore⟩ := loadStoreFrame
  cases i with
  | loadLit k | loadLocal k => exact (hload k _ (by simp) s t h).1
  | storeLocal k => exact (hstore k s t h).1
  | memc => exact (blockCopyFrame s t h).1
  | add | sub | mul | div | mod | or | xor | and => exact (hbinary _ (by simp) s t h).1
  | neg | not | inc | dec | rotLC | rotRC => exact (hunary _ (by simp) s t h).1
  | mul2 => exact (hmul2 s t h).1
  | addL | subL | mulL | divL | modL | orL | xorL | andL => exact (hbinaryLong _ (by simp) s t h).1
  | negL | notL | incL | decL => exact (hunaryLong _ (by simp) s t h).1
  | jmp a | jz a | jnz a | jc a | jcz a | jgz a | jlz a | jge a | jle a | jeq a | jneq a | jzL a | jnzL a | jgzL a
  | jlzL a => exact (jumpFrame a _ (by simp) s t h).1
  | jro => exact (jumpFrame 0 _ (by simp) s t h).1
  | eni | dsi | hlt =>
    obtain ⟨-, -, hfp, -⟩ := systemFrame _ (by simp) s t h
    exact hfp
  | call a => exact absurd rfl (hcall a)
  | ret => exact absurd rfl hret
  | ret1 => exact absurd rfl hret1
  | ret2 => exact absurd rfl hret2

/-- Carry is kept from one state to the other. -/
def State.keepsCarry (s t : State) : Prop := t.carry = s.carry

theorem keepsCarry_tolerant : Tolerant State.keepsCarry where
  refl _ := rfl
  trans _ _ _ h h' := Eq.trans h' h
  pc _ _ := rfl
  sp _ _ := rfl
  fp _ _ := rfl
  mem _ _ _ _ := rfl
  draws _ _ := rfl

theorem checkStep_carry (h : checkStep s = .next t) : t.carry = s.carry := by
  rcases checkStep_keeps keepsCarry_tolerant (fun _ => rfl) h with rfl | rfl | ⟨u, hsu, rfl | ⟨r, rfl⟩⟩
  · exact s.afterCheck_carry
  · rfl
  · exact u.afterCheck_carry.trans hsu
  · exact hsu

theorem request_carry (q : Request) (s : State) : (request q s).2.carry = s.carry := by
  unfold request
  split <;> rfl

/-- Settles O17: an instruction that is no writer of carry keeps it, and so do a check and a request. -/
theorem onlyAluInstructionsChangeCarry : Obligations.OnlyAluInstructionsChangeCarry :=
  ⟨fun _ _ _ h hne => Decidable.not_not.mp fun hi => hne (exec_carry hi h), fun _ _ => checkStep_carry, request_carry⟩

/-- Settles O18: by contraposition, from the frames. -/
theorem ofInstructionsOnlyCallAndReturnsChangeFp : Obligations.OfInstructionsOnlyCallAndReturnsChangeFp := by
  intro i s t h hne
  by_contra hi
  simp only [not_or, not_exists] at hi
  exact hne (exec_fp hi h)

end Sys2Proof.Machine

/-! PROOFS. The program image and the reset (spec/20_memory.md R64, R65, spec/70_reset_and_hazards.md R290): what the load makes of
the bytes of a block, of several blocks, and of a malformed one, and what a reset leaves over it. -/

namespace Sys2Proof.Machine

variable {c : Config} {m m' : Memory}

/-! ### Numbers in bytes -/

theorem int16_toNat (b0 b1 : Byte) : int16 b0 b1 = b1.toNat * 256 + b0.toNat := by
  rw [int16, BitVec.toNat_append, ← Nat.shiftLeft_add_eq_or_of_lt b0.isLt, Nat.shiftLeft_eq]

/-- The two bytes of a word read as the word. -/
theorem int16_bytes16 (w : Word) : int16 (BitVec.ofNat 8 w.toNat) (BitVec.ofNat 8 (w.toNat / 256)) = w.toNat := by
  have := w.isLt
  rw [int16_toNat, BitVec.toNat_ofNat, BitVec.toNat_ofNat]
  omega

/-- The four bytes of a number read as the number, signed. -/
theorem int32_bytes32 (n : Nat) : int32 (BitVec.ofNat 8 n) (BitVec.ofNat 8 (n / 256)) (BitVec.ofNat 8 (n / 65536))
    (BitVec.ofNat 8 (n / 16777216)) = (BitVec.ofNat 32 n).toInt := by
  rw [int32]
  congr 1
  apply BitVec.eq_of_toNat_eq
  rw [BitVec.toNat_append, BitVec.toNat_append, BitVec.toNat_append,
    ← Nat.shiftLeft_add_eq_or_of_lt (BitVec.isLt _), ← Nat.shiftLeft_add_eq_or_of_lt (BitVec.isLt _),
    ← Nat.shiftLeft_add_eq_or_of_lt (BitVec.isLt _)]
  simp only [BitVec.toNat_ofNat, Nat.shiftLeft_eq]
  omega

theorem toInt_ofNat32 {n : Nat} (h : n < 2147483648) : (BitVec.ofNat 32 n).toInt = n := by
  have hn : (BitVec.ofNat 32 n).toNat = n := by rw [BitVec.toNat_ofNat]; omega
  rw [BitVec.toInt_eq_toNat_of_lt (by omega), hn]

theorem int32_toNat (v : BitVec 32) : int32 (BitVec.ofNat 8 v.toNat) (BitVec.ofNat 8 (v.toNat / 256))
    (BitVec.ofNat 8 (v.toNat / 65536)) (BitVec.ofNat 8 (v.toNat / 16777216)) = v.toInt := by
  rw [int32_bytes32, BitVec.ofNat_toNat, BitVec.setWidth_eq]

/-! ### One block -/

/-- The data of a block of words is stored word by word. -/
theorem loadBlock_words (a : Nat) (ws : List Word) (rest : List Byte) (m : Memory) :
    loadBlock a ws.length (ws.flatMap bytes16 ++ rest) m = .ok (rest, storeWords m a ws) := by
  induction ws generalizing a m with
  | nil => rfl
  | cons w ws ih =>
    have hw := w.isLt
    show loadBlock a (ws.length + 1) (_ :: _ :: (ws.flatMap bytes16 ++ rest)) m = _
    rw [loadBlock, int16_bytes16, if_pos (by omega), BitVec.ofNat_toNat, BitVec.setWidth_eq]
    exact ih (a + 1) _

/-- Data that ends early, or with a 2-byte value above 0xFFF among the words it owes, is refused. -/
theorem loadBlock_error {data : List Byte} {n : Nat}
    (h : data.length < 2 * n ∨ ∃ (j : Nat) (hj : 2 * j + 1 < data.length), j < n ∧ 16 ≤ data[2 * j + 1].toNat)
    (a : Nat) (m : Memory) : ∃ e, loadBlock a n data m = .error e := by
  induction n generalizing data a m with
  | zero =>
    rcases h with h | ⟨j, -, hj, -⟩
    · exact absurd h (Nat.not_lt_zero _)
    · exact absurd hj (Nat.not_lt_zero _)
  | succ n ih =>
    match data, h with
    | [], _ | [_], _ => exact ⟨_, rfl⟩
    | b0 :: b1 :: bs, h =>
      rw [loadBlock]
      split
      case isTrue hword =>
        refine ih ?_ _ _
        rw [int16_toNat] at hword
        rcases h with h | ⟨j, hj, hjn, hbyte⟩
        · simp only [List.length_cons] at h
          exact .inl (by omega)
        · cases j with
          | zero => simp only [Nat.mul_zero, Nat.zero_add, List.getElem_cons_succ, List.getElem_cons_zero] at hbyte; omega
          | succ j =>
            simp only [List.length_cons] at hj
            exact .inr ⟨j, by omega, by omega, by simpa [Nat.mul_succ] using hbyte⟩
      case isFalse => exact ⟨_, rfl⟩

/-! ### Blocks in a row -/

section
variable {b : Block} {data rest : List Byte}

theorem loadBlocks_block_ok (hb : b.fits c) (fuel : Nat)
    (h : loadBlock (c.romBase + b.offset) b.words.length data m = .ok (rest, m')) :
    loadBlocks c (fuel + 1) (bytes32 b.offset ++ bytes32 b.words.length ++ data) m = loadBlocks c fuel rest m' := by
  obtain ⟨hreach, hoffset, hcount⟩ := hb
  simp only [bytes32, List.cons_append, List.nil_append, loadBlocks, int32_bytes32, toInt_ofNat32 hoffset,
    toInt_ofNat32 hcount]
  rw [if_neg (by omega), if_neg (by omega), if_neg (by omega), Int.toNat_natCast, Int.toNat_natCast, h]

theorem loadBlocks_block_error (hb : b.fits c) (fuel : Nat) {e : ImageError}
    (h : loadBlock (c.romBase + b.offset) b.words.length data m = .error e) :
    loadBlocks c (fuel + 1) (bytes32 b.offset ++ bytes32 b.words.length ++ data) m = .error e := by
  obtain ⟨hreach, hoffset, hcount⟩ := hb
  simp only [bytes32, List.cons_append, List.nil_append, loadBlocks, int32_bytes32, toInt_ofNat32 hoffset,
    toInt_ofNat32 hcount]
  rw [if_neg (by omega), if_neg (by omega), if_neg (by omega), Int.toNat_natCast, Int.toNat_natCast, h]

end

theorem loadBlocks_nil (fuel : Nat) : loadBlocks c fuel [] m = .ok m := by
  cases fuel <;> rfl

/-- Without fuel nothing but the end of the image loads. -/
theorem loadBlocks_zero {bs : List Byte} (h : bs ≠ []) : loadBlocks c 0 bs m = .error .truncated := by
  cases bs with
  | nil => exact absurd rfl h
  | cons => simp only [loadBlocks]

/-- Blocks that lie in ROM load one after the other, whatever follows them. -/
theorem loadBlocks_blocks {blocks : List Block} (hb : ∀ b ∈ blocks, b.fits c) (fuel : Nat) (tail : List Byte) (m : Memory) :
    loadBlocks c (blocks.length + fuel) (blocks.flatMap Block.bytes ++ tail) m =
      loadBlocks c fuel tail (blocks.foldl (Block.store c) m) := by
  induction blocks generalizing m with
  | nil => rw [List.length_nil, Nat.zero_add]; rfl
  | cons b blocks ih =>
    obtain ⟨hb0, hb⟩ := List.forall_mem_cons.mp hb
    have hdata := loadBlock_words (c.romBase + b.offset) b.words (blocks.flatMap Block.bytes ++ tail) m
    rw [List.length_cons, Nat.add_right_comm, List.flatMap_cons, Block.bytes, List.append_assoc, List.append_assoc,
      loadBlocks_block_ok hb0 _ hdata]
    exact ih hb _

/-- Each block takes bytes, so the length of an image is fuel enough for its blocks. -/
theorem length_le_flatMap_bytes (blocks : List Block) : blocks.length ≤ (blocks.flatMap Block.bytes).length := by
  induction blocks with
  | nil => exact Nat.le_refl 0
  | cons b blocks ih =>
    simp only [List.length_cons, List.flatMap_cons, List.length_append, Block.bytes, bytes32, List.length_nil]
    omega

/-- The load of an image is that of what follows its blocks. -/
theorem loadImage_blocks {blocks : List Block} (hb : ∀ b ∈ blocks, b.fits c) (tail : List Byte) (m : Memory) :
    ∃ fuel, loadImage c (blocks.flatMap Block.bytes ++ tail) m = loadBlocks c fuel tail (blocks.foldl (Block.store c) m) := by
  have hlength := length_le_flatMap_bytes blocks
  obtain ⟨fuel, hfuel⟩ := Nat.exists_eq_add_of_le (hlength.trans (Nat.le_add_right _ tail.length))
  refine ⟨fuel, ?_⟩
  rw [loadImage, List.length_append, hfuel]
  exact loadBlocks_blocks hb fuel tail m

/-! ### Malformed tails -/

/-- A tail shorter than a block header. -/
theorem loadBlocks_short {tail : List Byte} (h0 : 0 < tail.length) (h8 : tail.length < 8) (fuel : Nat) (m : Memory) :
    ∃ e, loadBlocks c fuel tail m = .error e := by
  cases fuel with
  | zero => exact ⟨_, loadBlocks_zero (List.ne_nil_of_length_pos h0)⟩
  | succ fuel =>
    match tail, h0, h8 with
    | [_], _, _ | [_, _], _, _ | [_, _, _], _, _ | [_, _, _, _], _, _ | [_, _, _, _, _], _, _ | [_, _, _, _, _, _], _, _
    | [_, _, _, _, _, _, _], _, _ => exact ⟨_, rfl⟩

/-- A header with a negative number, or of a block that reaches beyond ROM. -/
theorem loadBlocks_bad_header {o n : BitVec 32}
    (h : o.toInt < 0 ∨ n.toInt < 0 ∨ (c.romSize : Int) < o.toInt + n.toInt) (data : List Byte) (fuel : Nat) (m : Memory) :
    ∃ e, loadBlocks c fuel (bytes32 o.toNat ++ bytes32 n.toNat ++ data) m = .error e := by
  cases fuel with
  | zero => exact ⟨_, loadBlocks_zero (by simp [bytes32])⟩
  | succ fuel =>
    simp only [bytes32, List.cons_append, List.nil_append, loadBlocks, int32_toNat]
    by_cases ho : o.toInt < 0
    · exact ⟨_, if_pos ho⟩
    by_cases hn : n.toInt < 0
    · exact ⟨_, by rw [if_neg ho, if_pos hn]⟩
    · exact ⟨_, by rw [if_neg ho, if_neg hn, if_pos ((h.resolve_left ho).resolve_left hn)]⟩

/-- A block whose data is refused. -/
theorem loadBlocks_bad_data {b : Block} (hb : b.fits c) {data : List Byte}
    (h : data.length < 2 * b.words.length ∨
      ∃ (j : Nat) (hj : 2 * j + 1 < data.length), j < b.words.length ∧ 16 ≤ data[2 * j + 1].toNat) (fuel : Nat) (m : Memory) :
    ∃ e, loadBlocks c fuel (bytes32 b.offset ++ bytes32 b.words.length ++ data) m = .error e := by
  cases fuel with
  | zero => exact ⟨_, loadBlocks_zero (by simp [bytes32])⟩
  | succ fuel =>
    obtain ⟨e, he⟩ := loadBlock_error h (c.romBase + b.offset) m
    exact ⟨e, loadBlocks_block_error hb fuel he⟩

/-! ### What a load and a reset leave alone -/

theorem loadBlock_read_lt {a n x : Nat} {bs rest : List Byte} (hx : x < a) (h : loadBlock a n bs m = .ok (rest, m')) :
    m'.read x = m.read x := by
  induction n generalizing a bs m with
  | zero => cases h; rfl
  | succ n ih =>
    match bs, h with
    | b0 :: b1 :: bs, h =>
      rw [loadBlock] at h
      split at h
      · rw [ih (by omega) h, Memory.read_write_ne _ _ (by omega)]
      · cases h
    | [_], h | [], h => cases h

/-- The load writes only into ROM. -/
theorem loadBlocks_read_lt {fuel x : Nat} {bs : List Byte} (hx : x < c.romBase) (h : loadBlocks c fuel bs m = .ok m') :
    m'.read x = m.read x := by
  induction fuel generalizing bs m with
  | zero =>
    cases bs with
    | nil => cases h; rfl
    | cons => rw [loadBlocks_zero (List.cons_ne_nil _ _)] at h; cases h
  | succ fuel ih =>
    match bs, h with
    | [], h => cases h; rfl
    | o0 :: o1 :: o2 :: o3 :: c0 :: c1 :: c2 :: c3 :: bs, h =>
      simp only [loadBlocks] at h
      split at h
      · cases h
      split at h
      · cases h
      split at h
      · cases h
      split at h
      · cases h
      case h_2 hblock => rw [ih h, loadBlock_read_lt (by omega) hblock]
    | [_], h | [_, _], h | [_, _, _], h | [_, _, _, _], h | [_, _, _, _, _], h | [_, _, _, _, _, _], h
    | [_, _, _, _, _, _, _], h => cases h

theorem clearHeader_read_ge (m : Memory) {a : Nat} (h : 5 ≤ a) : (clearHeader m).read a = m.read a := by
  unfold clearHeader
  rw [Memory.read_write_ne _ _ (by omega), Memory.read_write_ne _ _ (by omega), Memory.read_write_ne _ _ (by omega),
    Memory.read_write_ne _ _ (by omega), Memory.read_write_ne _ _ (by omega)]

theorem clearHeader_read_le (hm : m.wf = true) {a : Nat} (h : a ≤ 4) : (clearHeader m).read a = 0 := by
  have h0 := Memory.write_wf hm 0 0
  have h1 := Memory.write_wf h0 1 0
  have h2 := Memory.write_wf h1 2 0
  have h3 := Memory.write_wf h2 3 0
  rw [clearHeader, Memory.read_write h3, Memory.read_write h2, Memory.read_write h1, Memory.read_write h0,
    Memory.read_write hm]
  interval_cases a <;> rfl

theorem boot_ok {init : Memory} {image : List Byte} {s : State} (h : boot c init image = .ok s) :
    ∃ m, loadImage c image init = .ok m ∧ s = State.resetWith c (clearHeader m) := by
  unfold boot at h
  split at h
  · cases h
  case h_2 m hload => cases h; exact ⟨m, hload, rfl⟩

/-! ### The statements -/

/-- Settles O58: the loaded memory with the start-up header cleared, under the reset values. -/
theorem resetLeavesTheStatedValues : Obligations.ResetLeavesTheStatedValues := by
  intro c init image s _ hinit hboot
  obtain ⟨m, hload, rfl⟩ := boot_ok hboot
  refine ⟨rfl, rfl, rfl, rfl, rfl, rfl, rfl, rfl, rfl, rfl, fun a ha => ?_, fun a ha hrom => ?_,
    m, hload, fun a ha => clearHeader_read_ge m ha⟩
  · exact clearHeader_read_le (loadBlocks_wf hinit hload) ha
  · exact (clearHeader_read_ge m ha).trans (loadBlocks_read_lt hrom hload)

/-- Settles O59: after its blocks the image is at its end. -/
theorem imageBlocksLoadInOrder : Obligations.ImageBlocksLoadInOrder := by
  intro c m blocks hb
  obtain ⟨fuel, hload⟩ := loadImage_blocks hb [] m
  rw [List.append_nil] at hload
  rw [hload, loadBlocks_nil]

/-- Settles O60: the load comes to the malformed tail, with some fuel, and refuses it. -/
theorem malformedImagesAreRefused : Obligations.MalformedImagesAreRefused := by
  intro c m blocks tail hblocks
  obtain ⟨fuel, hload⟩ := loadImage_blocks hblocks tail m
  rw [hload]
  refine ⟨fun b data hb htail hbad => ?_, fun h0 h8 => loadBlocks_short h0 h8 fuel _, fun o n data htail hbad => ?_⟩
  · rw [htail]
    exact loadBlocks_bad_data hb hbad fuel _
  · rw [htail]
    exact loadBlocks_bad_header hbad data fuel _

end Sys2Proof.Machine
